-- ==== Sys2Proof/Word.lean ====
section
/-! DEFINITION. The word of the block (00_scope.md R17): every register, every command word and every buffer
word is 32 bits, bit 31 the most significant. -/

namespace Sys2Proof

/-- A word (R17, R53): the unit of every access, of every register and of every command word. -/
abbrev Word := BitVec 32

end Sys2Proof
end

