-- ==== Sys2Proof/Config.lean ====
section
/-! DEFINITION. The configuration record of one block instance (00_scope.md R7 to R16) and the values the spec
leaves free (93_implementation_defined.md U6, U9). The record is plain data; what a free value is, nothing in
Lean can evaluate. -/

namespace Sys2Proof

/-- The eleven parameter registers `P0..P10` (10_state.md R21), all but `NOTE` of the type `α`: `Word` where
they are stored, a number type where they are read. `NOTE` is an `I32` word (R26). -/
structure Params (α : Type) where
  /-- P0 `CUTOFF` (R22) -/
  cutoff : α
  /-- P1 `RESONANCE` (R23) -/
  resonance : α
  /-- P2 `MODVALUE` (R24) -/
  modvalue : α
  /-- P3 `KEYTRACK` (R25) -/
  keytrack : α
  /-- P4 `NOTE`, a 32-bit two's-complement integer (R26) -/
  note : Word
  /-- P5 `BASECUT`, written and never read (R27) -/
  basecut : α
  /-- P6 `ATTACK` (R28) -/
  attack : α
  /-- P7 `DECAY` (R28) -/
  decay : α
  /-- P8 `SUSTAIN` (R29) -/
  sustain : α
  /-- P9 `RELEASE` (R28) -/
  release : α
  /-- P10 `CONTOUR` (R30) -/
  contour : α
deriving DecidableEq, Repr

/-- Which function `EXP2` an instance has (R14): the spec's default, the correctly rounded one, or the
implementation's own, one of all that have the four named properties (which one, `k` stands for). -/
inductive Exp2Choice where
  /-- the `F` value nearest to the real `2^x`, ties to even (R14, the default) -/
  | nearest
  /-- an implementation's own `EXP2`, of which only EXP2_ZERO, EXP2_INT, EXP2_POS and EXP2_MONO are known -/
  | other (k : Nat)
deriving DecidableEq, Repr

/-- A number of exact arithmetic (R13, log entry 13): the sum of `c * 2^r` over its terms `(r, c)`. These are the reals
that the rules reach from rational operands, `EXP2` being the real power of two (R14). In canonical form
(Machine/Exact.lean) the exponents rise within `[0, 1)` and no coefficient is zero. -/
structure Machine.PowerSum where
  /-- the terms `(r, c)` -/
  terms : List (ℚ × ℚ)
deriving DecidableEq, Repr, Inhabited

/-- The numeric format `NUM` (R13, U8): the spec's default, or exact arithmetic, which R13 lets a model instantiate
too. -/
inductive NumFormat where
  /-- IEEE 754 binary32 (R13, the default) -/
  | binary32
  /-- the real numbers, every operation exact (R13), as far as the rules reach them (log entry 13) -/
  | exact
deriving DecidableEq, Repr

/-- The configuration record (R16): its seven fields. DESIGN CHOICE (log entry 21): where `NUM` is exact too, the values
of type `F` are configured as words, so they are reals that a word encodes. -/
structure Config where
  /-- `FRAME_SIZE` (R7) -/
  frameSize : Nat
  /-- `SAMPLE_RATE`, the bits of an `F` value (R9) -/
  sampleRate : Word
  /-- `T_EPS`, the bits of an `F` value (R10) -/
  tEps : Word
  /-- `RES_MAX`, the bits of an `F` value (R11) -/
  resMax : Word
  /-- `RESET_PARAMS` (R12, R45) -/
  resetParams : Params Word
  /-- `NUM` (R13) -/
  num : NumFormat
  /-- `EXP2` (R14) -/
  exp2 : Exp2Choice
deriving DecidableEq, Repr

/-- The spec's default configuration where it gives one: `FRAME_SIZE` 128 (R7), `T_EPS` `0x3A83126F` (R10), `RES_MAX`
1.0 (R11), `NUM` binary32 (R13), `EXP2` correctly rounded (R14). DESIGN CHOICE (log entries 2 and 3): `SAMPLE_RATE`
48000.0 and `RESET_PARAMS` all zero, where the spec gives no value. -/
def Config.default : Config where
  frameSize := 128
  sampleRate := 0x473B8000
  tEps := 0x3A83126F
  resMax := 0x3F800000
  resetParams := ⟨0, 0, 0, 0, 0, 0, 0, 0, 0, 0, 0⟩
  num := .binary32
  exp2 := .nearest

/-- FREE VALUE (U6, log entry 5): the bits from which the `n`-th NaN pattern of a run is taken. -/
opaque Config.freeNan : Nat → Word

/-- FREE VALUE (R14, U9, log entry 6): `Config.exp2Threshold k r m` is the argument, in units of `2^-149`, at
which the `EXP2` numbered `k` reaches the `m + 1`-th value above the least one of octave `r`. Every function with
the four properties of R14 is given by such thresholds. -/
opaque Config.exp2Threshold : Nat → Int → Nat → Int

/-! The free values of exact arithmetic, where the words and the reals do not correspond and where the spec states no
result (log entries 13, 21, 22). -/

/-- FREE VALUE (log entry 21): the real that exact arithmetic reads in a word that encodes none, by its kind: `none`
for a NaN, else the infinity with that sign. -/
opaque Config.freeReal : Option Bool → ℚ

/-- FREE VALUE (log entry 21): the response word of a real that no word encodes. -/
opaque Config.freeBits : Machine.PowerSum → Word

/-- FREE VALUE (log entry 13): the quotient of a rational by zero. -/
opaque Config.freeQuotient : ℚ → ℚ

/-- FREE VALUE (log entry 13): a quotient by zero, or by a sum of several powers, which no rule forms. -/
opaque Config.freePowerQuotient : Machine.PowerSum → Machine.PowerSum → Machine.PowerSum

/-- FREE VALUE (log entry 13): whether the first is at most the second, where one is a sum of several powers, which no
rule compares. -/
opaque Config.freeOrder : Machine.PowerSum → Machine.PowerSum → Bool

/-- FREE VALUE (log entry 22): `EXP2` in exact arithmetic at a real that is not rational, where no rule evaluates it. -/
opaque Config.freePower : Machine.PowerSum → Machine.PowerSum

/-- FREE VALUE (R14, U9, log entry 22): from which the `EXP2` numbered `k` in exact arithmetic is made, argument by
argument: the exponent and the coefficient of one power's multiple. -/
opaque Config.exp2Real : Nat → ℚ → ℚ × ℚ

end Sys2Proof
end

