-- ==== Sys2Proof/Machine/Float.lean ====
section
/-! DEFINITION. The number format `F`, IEEE 754 binary32 (00_scope.md R13, R17): its values, their encoding in a
word, the four correctly rounded operations and the comparisons. A finite value is held as a whole number of
`2^-149`, the smallest subnormal; every operation computes its exact result as a fraction of such units and rounds
it once. -/

namespace Sys2Proof.Machine

/-- A value of type `F` (R13). -/
inductive F where
  /-- a NaN: `some w` when it was read from the word `w` and only moved since, `none` when an operation made it,
  so that its bits are not determined (U6) -/
  | nan (held : Option Word)
  /-- an infinity, negative when `neg` -/
  | inf (neg : Bool)
  /-- plus or minus `units * 2^-149`; the two zeros differ in `neg` -/
  | fin (neg : Bool) (units : Nat)
deriving DecidableEq, Repr

/-- The value is a NaN. -/
def F.isNan : F → Bool
  | .nan _ => true
  | .inf _ => false
  | .fin _ _ => false

/-- The value is neither a NaN nor an infinity. -/
def F.isFinite : F → Bool
  | .nan _ => false
  | .inf _ => false
  | .fin _ _ => true

/-- How many units of `2^-149` make `1.0`. -/
def unitsOfOne : Nat := 2 ^ 149

/-- How many units make `2^128`, the least power of two above every finite value. -/
def unitsOfInf : Nat := 2 ^ 149 * 2 ^ 128

/-! ## Encoding (R17) -/

/-- `f32_of_bits` (R17): sign bit 31, exponent bits 30:23, fraction bits 22:0. -/
def f32OfBits (w : Word) : F :=
  let neg := decide (2 ^ 31 ≤ w.toNat)
  let e := w.toNat / 2 ^ 23 % 2 ^ 8
  let frac := w.toNat % 2 ^ 23
  if e = 255 then (if frac = 0 then .inf neg else .nan (some w))
  else if e = 0 then .fin neg frac
  else .fin neg ((2 ^ 23 + frac) * 2 ^ (e - 1))

/-- The word with the given sign, exponent and fraction fields. -/
def packFields (neg : Bool) (e frac : Nat) : Word :=
  BitVec.ofNat 32 ((if neg then 2 ^ 31 else 0) + e * 2 ^ 23 + frac)

/-- The `n`-th free NaN pattern (U6): any word with `w[30:23] = 255` and `w[22:0] != 0` (R17), which one is the
free value `Config.freeNan n`. -/
def nanPattern (n : Nat) : Word :=
  let r := (Config.freeNan n).toNat
  packFields (decide (2 ^ 31 ≤ r)) 255 (if r % 2 ^ 23 = 0 then 1 else r % 2 ^ 23)

/-- `bits_of_f32` (R17): the inverse of `f32OfBits`. A NaN that an operation made takes the `n`-th free pattern; a
NaN that was only moved keeps its word. -/
def bitsOfF32 (n : Nat) : F → Word
  | .nan none => nanPattern n
  | .nan (some w) => w
  | .inf neg => packFields neg 255 0
  | .fin neg u =>
    if u < 2 ^ 23 then packFields neg 0 u
    else packFields neg (u.log2 - 22) (u / 2 ^ (u.log2 - 23) - 2 ^ 23)

/-! ## Rounding (R13) -/

/-- Round the positive or zero fraction `n / d` (`d` positive) to the nearest whole number, ties to even. -/
def roundHalfEven (n d : Nat) : Nat :=
  let q := n / d
  let r := n % d
  if d < 2 * r ∨ (2 * r = d ∧ q % 2 = 1) then q + 1 else q

/-- The magnitude of `n / d` units (`d` positive) rounded to 24 significant bits, or to a whole unit below `2^24`
units (no flush to zero, R13). -/
@[irreducible] def roundMagnitude (n d : Nat) : Nat :=
  let shift := (n / d).log2 - 23
  roundHalfEven n (d * 2 ^ shift) * 2 ^ shift

/-- Round the exact value `n / d` units (`d` positive) to `F`, to nearest, ties to even, overflow to infinity
(R13). -/
@[irreducible] def roundUnits (neg : Bool) (n d : Nat) : F :=
  if unitsOfInf ≤ roundMagnitude n d then .inf neg else .fin neg (roundMagnitude n d)

/-! ## The operations (R13, R194); a NaN operand or an invalid operation gives a NaN -/

/-- The value with the other sign. -/
def F.neg : F → F
  | .nan _ => .nan none
  | .inf s => .inf (!s)
  | .fin s u => .fin (!s) u

/-- `a + b`, rounded once. A sum that is exactly zero is `+0.0` unless both operands are negative. -/
def F.add : F → F → F
  | .fin s a, .fin t b =>
    if s = t then roundUnits s (a + b) 1
    else if a = b then .fin false 0
    else if b < a then roundUnits s (a - b) 1
    else roundUnits t (b - a) 1
  | .inf s, .inf t => if s = t then .inf s else .nan none
  | .inf s, .fin _ _ => .inf s
  | .fin _ _, .inf t => .inf t
  | .nan _, _ => .nan none
  | _, .nan _ => .nan none

/-- `a - b`, rounded once. -/
def F.sub (a b : F) : F := F.add a b.neg

/-- `a * b`, rounded once. -/
def F.mul : F → F → F
  | .fin s a, .fin t b => roundUnits (s != t) (a * b) unitsOfOne
  | .inf s, .inf t => .inf (s != t)
  | .inf s, .fin t b => if b = 0 then .nan none else .inf (s != t)
  | .fin s a, .inf t => if a = 0 then .nan none else .inf (s != t)
  | .nan _, _ => .nan none
  | _, .nan _ => .nan none

/-- `a / b`, rounded once. -/
def F.div : F → F → F
  | .fin s a, .fin t b =>
    if b = 0 then (if a = 0 then .nan none else .inf (s != t))
    else roundUnits (s != t) (a * unitsOfOne) b
  | .inf _, .inf _ => .nan none
  | .inf s, .fin t _ => .inf (s != t)
  | .fin s _, .inf t => .fin (s != t) 0
  | .nan _, _ => .nan none
  | _, .nan _ => .nan none

/-- `i2f` (42_cutoff_compositor.md R143): the `F` value nearest to an integer, exact up to `2^24`. -/
def F.ofInt (n : Int) : F := roundUnits (decide (n < 0)) (n.natAbs * unitsOfOne) 1

/-- The real number a finite value stands for (R13); the other values have none, and 0 stands in. -/
def F.toRat : F → ℚ
  | .nan _ => 0
  | .inf _ => 0
  | .fin neg u => (if neg then -(u : ℚ) else u) / 2 ^ 149

/-! ## Comparisons (R13): false with a NaN operand, `-0.0` equal to `+0.0` -/

/-- A value's place in the order, in units, `none` for a NaN; the infinities lie just outside the finite values. -/
def F.ord : F → Option Int
  | .nan _ => none
  | .inf neg => some (if neg then -(unitsOfInf : Int) else unitsOfInf)
  | .fin neg u => some (if neg then -(u : Int) else u)

/-- `a <= b`. -/
def F.le (a b : F) : Bool :=
  match a.ord, b.ord with
  | some x, some y => decide (x ≤ y)
  | _, _ => false

/-- `a < b`. -/
def F.lt (a b : F) : Bool :=
  match a.ord, b.ord with
  | some x, some y => decide (x < y)
  | _, _ => false

end Sys2Proof.Machine
end

