-- ==== Sys2Proof/Machine/Exp2.lean ====
section
/-! DEFINITION. `EXP2` (00_scope.md R14): at an integer from -126 to 127 the exact power of two; elsewhere what the
instance's choice gives, the correctly rounded value (the spec's default) or the free value of an implementation's
own function, which has the four named properties by its form. -/

namespace Sys2Proof.Machine

/-- `floor(ln 2 * 2^149)`. -/
def ln2Units : Nat := 0x162E42FEFA39EF35793C7673007E5ED5E81E68

/-- The sum of `u^j / j!` from `j = 0` on, in units of `2^-149`, by Horner's scheme from the term `i` with `k`
terms to go, every division rounded down. -/
def expHorner (u : Nat) (i : Nat) : Nat → Nat
  | 0 => unitsOfOne
  | k + 1 => unitsOfOne + u * expHorner u (i + 1) k / (i * unitsOfOne)

/-- `2^(t * 2^-149)` for `t < 2^149`, in units of `2^-149`. -/
@[irreducible] def exp2Fraction (t : Nat) : Nat := expHorner (t * ln2Units / unitsOfOne) 1 48

/-- The default `EXP2` at `k + t * 2^-149`, `t < 2^149` (R14): the value nearest to the real power, ties to even.
UNVERIFIED (log entry 6): that 149 bits of the real power always decide the rounding. -/
def exp2Nearest (k : Int) (t : Nat) : F :=
  if 128 ≤ k then .inf false
  else if k < -160 then .fin false 0
  else if 0 ≤ k then roundUnits false (exp2Fraction t * 2 ^ k.toNat) 1
  else roundUnits false (exp2Fraction t) (2 ^ (-k).toNat)

/-- How many of the numbers below `n` satisfy `p`. -/
def countBelow (p : Nat → Bool) : Nat → Nat
  | 0 => 0
  | n + 1 => countBelow p n + if p n then 1 else 0

/-- The octave of the argument `x` units: `r` with `r <= x < r + 1`, but one octave for all arguments below -126
and one for all from 127 on. -/
def exp2Octave (x : Int) : Int := max (-127) (min 127 (x / unitsOfOne))

/-- How many thresholds of its octave the argument has reached; an octave has `2^23`. -/
@[irreducible] def exp2Steps (k : Nat) (x : Int) : Nat :=
  countBelow (fun m => decide (Config.exp2Threshold k (exp2Octave x) m ≤ x)) (2 ^ 23)

/-- The implementation's own `EXP2` numbered `k` at `x` units (R14, U9): within the octave from `r` to `r + 1` a
non-decreasing step function from `2^r` to `2^(r+1)`, below -126 one from `0.0` to `2^-126`, from 127 on one from
`2^127` to infinity. -/
@[irreducible] def exp2Other (k : Nat) (x : Int) : F :=
  let r := exp2Octave x
  let u := if r < -126 then exp2Steps k x
    else 2 ^ (r + 149).toNat + exp2Steps k x * 2 ^ (r + 126).toNat
  if unitsOfInf ≤ u then .inf false else .fin false u

/-- `EXP2(x)` (R14). At an infinity, where the spec states no value, it is the value just outside the finite
arguments; at a NaN, a NaN (log entry 7: no command evaluates `EXP2` there). -/
@[irreducible] def exp2Value (c : Exp2Choice) (x : F) : F :=
  match x.ord with
  | none => .nan none
  | some u =>
    let k := u / (unitsOfOne : Int)
    let t := (u % (unitsOfOne : Int)).toNat
    if t = 0 ∧ -126 ≤ k ∧ k ≤ 127 then .fin false (2 ^ (k + 149).toNat)
    else match c with
      | .nearest => exp2Nearest k t
      | .other i => exp2Other i u

end Sys2Proof.Machine
end

