-- ==== Sys2Proof/Machine/Num.lean ====
section
/-! DEFINITION. `NUM` (00_scope.md R13): the operations and literals the numeric path is written over, so that it is
one text for both number formats the spec names: binary32, the default, and exact arithmetic, in which the spec states
its real-number laws. -/

namespace Sys2Proof.Machine

/-- A number format: the operations a rule may write (R13, R194), `EXP2` (R14) and the literals (R15). -/
structure Num (α : Type) where
  /-- `a + b` -/
  add : α → α → α
  /-- `a - b` -/
  sub : α → α → α
  /-- `a * b` -/
  mul : α → α → α
  /-- `a / b` -/
  div : α → α → α
  /-- `a <= b` -/
  le : α → α → Bool
  /-- `a < b` -/
  lt : α → α → Bool
  /-- `i2f` -/
  ofInt : Int → α
  /-- `EXP2` -/
  exp2 : α → α
  /-- `0.0` -/
  zero : α
  /-- `1.0` -/
  one : α
  /-- `-1.0` -/
  negOne : α
  /-- `0.5` -/
  half : α
  /-- `4.0` -/
  four : α
  /-- `12.0` -/
  twelve : α
  /-- `1.16` -/
  c116 : α
  /-- `0.15` -/
  c015 : α
  /-- `0.001` -/
  cutLow : α
  /-- `0.999` -/
  cutHigh : α

/-- Binary32 (R13) with the literals' bit patterns of R15. -/
def Num.binary32 (c : Exp2Choice) : Num F where
  add := F.add
  sub := F.sub
  mul := F.mul
  div := F.div
  le := F.le
  lt := F.lt
  ofInt := F.ofInt
  exp2 := exp2Value c
  zero := f32OfBits 0x00000000
  one := f32OfBits 0x3F800000
  negOne := f32OfBits 0xBF800000
  half := f32OfBits 0x3F000000
  four := f32OfBits 0x40800000
  twelve := f32OfBits 0x41400000
  c116 := f32OfBits 0x3F947AE1
  c015 := f32OfBits 0x3E19999A
  cutLow := f32OfBits 0x3A83126F
  cutHigh := f32OfBits 0x3F7FBE77

/-- Exact arithmetic (R13: "every operation exact") on the rationals, which the four operations do not leave; the
literals are the decimals as written. A quotient by zero is a free value, and `EXP2` is the caller's (log entry 13); the
format with the real `EXP2` is `Num.power` of Exact.lean. -/
def Num.exact (e : ℚ → ℚ) : Num ℚ where
  add a b := a + b
  sub a b := a - b
  mul a b := a * b
  div a b := if b = 0 then Config.freeQuotient a else a / b
  le a b := decide (a ≤ b)
  lt a b := decide (a < b)
  ofInt n := n
  exp2 := e
  zero := 0
  one := 1
  negOne := -1
  half := 1 / 2
  four := 4
  twelve := 12
  c116 := 116 / 100
  c015 := 15 / 100
  cutLow := 1 / 1000
  cutHigh := 999 / 1000

/-- The configuration values a rule reads as numbers (R9, R10, R11). -/
structure Consts (α : Type) where
  /-- `SAMPLE_RATE` -/
  sampleRate : α
  /-- `T_EPS` -/
  tEps : α
  /-- `RES_MAX` -/
  resMax : α

variable {α : Type}

/-- `clamp(x, lo, hi)` (R19): a NaN gives `lo`. -/
def clamp (N : Num α) (x lo hi : α) : α :=
  if N.le lo x then (if N.le x hi then x else hi) else lo

/-- `clamp_lo(x, lo)` (R19): a NaN gives `lo`. -/
def clampLo (N : Num α) (x lo : α) : α := if N.le lo x then x else lo

/-- `clamp_i(n, lo, hi)` (R19). -/
def clampI (n lo hi : Int) : Int := if n < lo then lo else if hi < n then hi else n

end Sys2Proof.Machine
end

