-- ==== Sys2Proof/Machine/State.lean ====
section
/-! DEFINITION. The state of one block instance as plain data (10_state.md R20 to R49, 20_memory.md R50), and the
state after reset (R44 to R48, 70_reset_and_hazards.md R231). -/

namespace Sys2Proof.Machine

/-- An envelope stage, a value of the `STAGE` register (R33). The register's codes are in Flags.lean. -/
inductive Stage where
  | idle
  | attack
  | decay
  | sustain
  | release
deriving DecidableEq, Repr

/-- What `FCODE` holds (60_exceptions.md R211). Code 3 is never written by any rule, so the type has no value for
it (U12). -/
inductive FaultCode where
  /-- no fault has occurred -/
  | none
  /-- the header word is illegal (R213) -/
  | illegalCommand
  /-- an index operand is `FRAME_SIZE` or more (R214) -/
  | bufferIndex
deriving DecidableEq, Repr

/-- The envelope registers (R32 to R35), with contents of the type `α`. -/
structure Env (α : Type) where
  /-- `STAGE` (R33) -/
  stage : Stage
  /-- `EV` (R32) -/
  ev : α
  /-- `ET` (R34) -/
  et : α
  /-- `ER` (R35) -/
  er : α
deriving DecidableEq, Repr

/-- The four filter stage registers `S1..S4` (R31), with contents of the type `α`. -/
structure Ladder (α : Type) where
  /-- `S1` -/
  s1 : α
  /-- `S2` -/
  s2 : α
  /-- `S3` -/
  s3 : α
  /-- `S4` -/
  s4 : α
deriving DecidableEq, Repr

/-- A frame buffer (20_memory.md R50) with contents of the type `α`: what it holds by index, indices strictly rising,
and no entry that holds what an unlisted index reads as (`+0.0`, R46). The operations are in Ops.lean. -/
abbrev Memory (α : Type) := List (Nat × α)

/-- The registers and the buffer that hold computed values (R31, R32, R34, R35, 20_memory.md R50), where `NUM` is exact
arithmetic (00_scope.md R13, log entry 23). The envelope's rules lead from rationals to rationals; the filter's
operands have passed `EXP2`. -/
structure RealBank where
  /-- `S1..S4` (R31) -/
  ladder : Ladder PowerSum
  /-- `EV` (R32) -/
  ev : ℚ
  /-- `ET` (R34) -/
  et : ℚ
  /-- `ER` (R35) -/
  er : ℚ
  /-- `OBUF` (R50) -/
  obuf : Memory PowerSum
deriving DecidableEq, Repr

/-- The state of one block instance (R20), the command port's words, and the model's own fields. -/
structure State where
  /-- the configuration record, which no step changes (R16, R43, log entry 1) -/
  cfg : Config
  /-- `P0..P10` (R21) -/
  params : Params Word
  /-- `S1..S4` (R31), where `NUM` is binary32 -/
  ladder : Ladder Word
  /-- `STAGE` (R33), and `EV, ET, ER` (R32, R34, R35) where `NUM` is binary32 -/
  env : Env Word
  /-- `FAULT` (R37) -/
  fault : Bool
  /-- `FCODE` (R37, R211) -/
  fcode : FaultCode
  /-- `BUSY` (R38), 0 between any two steps -/
  busy : Bool
  /-- `IBUF` (R50) -/
  ibuf : Memory Word
  /-- `OBUF` (R50), where `NUM` is binary32 -/
  obuf : Memory Word
  /-- `S1..S4`, `EV`, `ET`, `ER` and `OBUF` where `NUM` is exact arithmetic (log entry 23) -/
  real : RealBank
  /-- the response channel: the words produced so far, oldest first (30_encoding.md R77) -/
  resp : List Word
  /-- the words of a partly received command (R80, R231) -/
  rx : List Word
  /-- the words the host has offered on the command port and the block has not taken, oldest first (R70, R240) -/
  port : List Word
  /-- the reset input (R230): asserted by the platform, answered by the next step -/
  resetIn : Bool
  /-- the model's own field: how many free NaN patterns have been drawn (U6, log entry 5) -/
  nanSeq : Nat
deriving DecidableEq, Repr

/-- Why a step stops with a fault: never. The spec's faults are a latch in the state (`FAULT`, `FCODE`, R37) after
which the machine goes on as a state (R218), so no constructor exists. -/
inductive Fault where
deriving DecidableEq, Repr

/-- Why a step has no meaning. -/
inductive Refusal where
  /-- an instruction without a meaning in this model: raised by no arm of `exec`. Safe: the machine stops where the
  hardware goes on. -/
  | notModelled (mnemonic : String)
deriving DecidableEq, Repr

/-- The state after reset of the instance with configuration `c` (R44 to R47, R231): nothing offered, nothing
received, no free value drawn. -/
def State.resetOf (c : Config) : State where
  cfg := c
  params := c.resetParams
  ladder := ⟨0, 0, 0, 0⟩
  env := ⟨.idle, 0, 0, 0⟩
  fault := false
  fcode := .none
  busy := false
  ibuf := []
  obuf := []
  real := ⟨⟨⟨[]⟩, ⟨[]⟩, ⟨[]⟩, ⟨[]⟩⟩, 0, 0, 0, []⟩
  resp := []
  rx := []
  port := []
  resetIn := false
  nanSeq := 0

/-- The machine right after reset, with the default configuration (log entries 2 and 3). -/
def State.reset : State := State.resetOf Config.default

end Sys2Proof.Machine
end

