-- ==== Sys2Proof/Machine/Compositor.lean ====
section
/-! DEFINITION. The Cutoff Compositor (42_cutoff_compositor.md R140 to R149): five steps in the fixed order of R148,
the clamp last. -/

namespace Sys2Proof.Machine

variable {α : Type}

/-- `off = i2f(clamp_i(NOTE, 0, 127) - 60) / 12.0` (R143), a real division. -/
def noteOffset (N : Num α) (note : Word) : α :=
  N.div (N.ofInt (clampI note.toInt 0 127 - 60)) N.twelve

/-- Step 2, key tracking (R143): skipped unless the clamped `KEYTRACK` is above `0.0`. -/
def composeKey (N : Num α) (p : Params α) (e0 : α) : α :=
  let kt := clamp N p.keytrack N.zero N.one
  if N.lt N.zero kt then N.mul e0 (N.exp2 (N.mul (noteOffset N p.note) kt)) else e0

/-- Step 3, envelope contour (R144): the test is on `STAGE` alone. -/
def composeContour (N : Num α) (p : Params α) (e : Env α) (e1 : α) : α :=
  if e.stage = .idle then e1
  else N.mul e1 (N.add N.one (N.mul e.ev (clamp N p.contour N.negOne N.one)))

/-- Step 4, external modulation (R145): always performed. -/
def composeMod (N : Num α) (p : Params α) (e2 : α) : α :=
  N.mul e2 (N.add N.one (N.mul (clamp N p.modvalue N.negOne N.one) N.half))

/-- `compose()` (R141): step 1 is `CUTOFF` unclamped (R142), step 5 the clamp (R146). -/
def compose (N : Num α) (p : Params α) (e : Env α) : α :=
  clamp N (composeMod N p (composeContour N p e (composeKey N p p.cutoff))) N.cutLow N.cutHigh

/-- The resonance operand of the filter (43_frame_processor.md R163): `clamp(RESONANCE, 0.0, RES_MAX)`. -/
def resonanceOperand (N : Num α) (c : Consts α) (p : Params α) : α :=
  clamp N p.resonance N.zero c.resMax

end Sys2Proof.Machine
end

