-- ==== Sys2Proof/Machine/Exact.lean ====
section
/-! DEFINITION. Exact arithmetic as the format `NUM` of an instance (00_scope.md R13): its numbers and operations, its
`EXP2` (R14), the real a word stands for and the word of a real. The block's operands and responses are words in either
format (30_encoding.md R72, R77). -/

namespace Sys2Proof.Machine

/-! ## Sums of powers of two -/

/-- The terms with `c * 2^r` added, `r` within `[0, 1)`. -/
def addTerm (r c : ℚ) : List (ℚ × ℚ) → List (ℚ × ℚ)
  | [] => if c = 0 then [] else [(r, c)]
  | (s, d) :: l =>
    if r < s then (if c = 0 then (s, d) :: l else (r, c) :: (s, d) :: l)
    else if r = s then (if c + d = 0 then l else (s, c + d) :: l)
    else (s, d) :: addTerm r c l

/-- The terms with `c * 2^r` added: the whole part of the exponent goes into the coefficient. -/
def addPower (r c : ℚ) (l : List (ℚ × ℚ)) : List (ℚ × ℚ) := addTerm (r - ⌊r⌋) (c * 2 ^ ⌊r⌋) l

/-- `0` -/
def PowerSum.zero : PowerSum := ⟨[]⟩

/-- The number `c * 2^r`. -/
def PowerSum.power (r c : ℚ) : PowerSum := ⟨addPower r c []⟩

/-- A rational number. -/
def PowerSum.ofRat (q : ℚ) : PowerSum := PowerSum.power 0 q

/-- The same number in canonical form. -/
def PowerSum.normal (a : PowerSum) : PowerSum := ⟨a.terms.foldr (fun t l => addPower t.1 t.2 l) []⟩

/-- The canonical form: the exponents rise within `[0, 1)`, and no coefficient is zero. -/
def PowerSum.wf (a : PowerSum) : Bool :=
  a.terms.all (fun t => decide (0 ≤ t.1) && decide (t.1 < 1) && decide (t.2 ≠ 0)) &&
    decide (a.terms.Pairwise fun t u => t.1 < u.1)

/-- `a + b`. -/
def PowerSum.add (a b : PowerSum) : PowerSum := ⟨a.terms.foldr (fun t l => addPower t.1 t.2 l) b.terms⟩

/-- `-a`. -/
def PowerSum.neg (a : PowerSum) : PowerSum := ⟨a.terms.map fun t => (t.1, -t.2)⟩

/-- `a * b`. -/
def PowerSum.mul (a b : PowerSum) : PowerSum :=
  ⟨a.terms.foldr (fun t l => b.terms.foldr (fun u l => addPower (t.1 + u.1) (t.2 * u.2) l) l) []⟩

/-- The exponent and coefficient of a number that is one power's multiple; zero has the coefficient 0. -/
def PowerSum.single (a : PowerSum) : Option (ℚ × ℚ) :=
  match a.terms with
  | [] => some (0, 0)
  | [t] => some t
  | _ :: _ :: _ => none

/-- The rational number that this is, if it is one. -/
def PowerSum.toRat? (a : PowerSum) : Option ℚ := (a.single.filter fun t => t.1 = 0).map Prod.snd

/-- `a / b`: exact by one power's multiple (the rules divide by rationals only); DESIGN CHOICE otherwise (log entry
13). -/
def PowerSum.div (a b : PowerSum) : PowerSum :=
  match b.single with
  | some (r, c) => if c = 0 then (Config.freePowerQuotient a b).normal else a.mul (.power (-r) (1 / c))
  | none => (Config.freePowerQuotient a b).normal

/-- `c * 2^r <= d * 2^s` for positive `c` and `d`: with `r - s = p / q`, it is `2^p <= (d / c)^q`. -/
def positivePowerLe (r c s d : ℚ) : Bool := decide ((2 : ℚ) ^ (r - s).num ≤ (d / c) ^ (r - s).den)

/-- `c * 2^r <= d * 2^s`. -/
def powerLe (r c s d : ℚ) : Bool :=
  if c ≤ 0 ∧ 0 ≤ d then true
  else if 0 ≤ c ∧ d ≤ 0 then false
  else if 0 < c then positivePowerLe r c s d
  else positivePowerLe s (-d) r (-c)

/-- `a <= b`, exact between one power's multiples (the rules compare no others); DESIGN CHOICE otherwise (log entry
13). -/
def PowerSum.le (a b : PowerSum) : Bool :=
  match a.single, b.single with
  | some (r, c), some (s, d) => powerLe r c s d
  | _, _ => Config.freeOrder a b

/-! ## `EXP2` (R14) -/

/-- The greater of two numbers. -/
def PowerSum.max (a b : PowerSum) : PowerSum := if a.le b then b else a

/-- The lesser of two numbers. -/
def PowerSum.min (a b : PowerSum) : PowerSum := if a.le b then a else b

/-- `v` moved, as little as need be, to where a non-decreasing function through the points `graph` can be at `x`. -/
def squeeze (graph : List (ℚ × PowerSum)) (x : ℚ) (v : PowerSum) : PowerSum :=
  graph.foldr (fun p v => if p.1 = x then p.2 else if p.1 < x then p.2.max v else p.2.min v) v

/-- The points that EXP2_INT fixes. -/
def exp2IntegerPoints : List (ℚ × PowerSum) :=
  (List.range 254).map fun i : Nat => (((i : Int) - 126 : Int), .ofRat (2 ^ ((i : Int) - 126)))

/-- The value at `x` of the `EXP2` numbered `k`, given its value at other points: the free value, not negative
(EXP2_POS), as far as EXP2_MONO allows it. -/
def exp2Choose (k : Nat) (graph : List (ℚ × PowerSum)) (x : ℚ) : PowerSum :=
  squeeze graph x (PowerSum.zero.max (.power (Config.exp2Real k x).1 (Config.exp2Real k x).2))

/-- The points of the `EXP2` numbered `k` at the integers and at the first `n` rationals. -/
def exp2Graph (k : Nat) : Nat → List (ℚ × PowerSum)
  | 0 => exp2IntegerPoints
  | n + 1 =>
    match Encodable.decode (α := ℚ) n with
    | none => exp2Graph k n
    | some x => (x, exp2Choose k (exp2Graph k n) x) :: exp2Graph k n

/-- The implementation's own `EXP2` numbered `k` in exact arithmetic (R14, U9, log entry 22): at the rationals, any
non-decreasing function that is not negative and has the powers at the integers from -126 to 127, its values rational
multiples of powers of two; chosen rational by rational. -/
@[irreducible] def exp2OtherExact (k : Nat) (x : ℚ) : PowerSum := exp2Choose k (exp2Graph k (Encodable.encode x)) x

/-- `EXP2(x)` in exact arithmetic at a rational (R14): by default the real number `2^x` itself. -/
def exp2Power (c : Exp2Choice) (x : ℚ) : PowerSum :=
  match c with
  | .nearest => .power x 1
  | .other k => exp2OtherExact k x

/-- `EXP2(a)` in exact arithmetic; the rules evaluate it at rationals only (42_cutoff_compositor.md R143, log entry
22). -/
def PowerSum.exp2 (c : Exp2Choice) (a : PowerSum) : PowerSum :=
  match a.toRat? with
  | some x => exp2Power c x
  | none => (Config.freePower a).normal

/-- Exact arithmetic with the real `EXP2` (R13, R14); the literals are the decimals as written. -/
def Num.power (c : Exp2Choice) : Num PowerSum where
  add := PowerSum.add
  sub a b := a.add b.neg
  mul := PowerSum.mul
  div := PowerSum.div
  le := PowerSum.le
  lt a b := !(b.le a)
  ofInt n := .ofRat n
  exp2 := PowerSum.exp2 c
  zero := .ofRat 0
  one := .ofRat 1
  negOne := .ofRat (-1)
  half := .ofRat (1 / 2)
  four := .ofRat 4
  twelve := .ofRat 12
  c116 := .ofRat (116 / 100)
  c015 := .ofRat (15 / 100)
  cutLow := .ofRat (1 / 1000)
  cutHigh := .ofRat (999 / 1000)

/-! ## Words and reals (R17) -/

/-- The real that the word `w` stands for: that of the finite value it encodes (R17). DESIGN CHOICE (log entry 21): a
word that encodes no real stands for a free one. -/
def realOfBits (w : Word) : ℚ :=
  match f32OfBits w with
  | .nan _ => Config.freeReal none
  | .inf neg => Config.freeReal (some neg)
  | .fin neg u => F.toRat (.fin neg u)

/-- The binary32 value nearest to a rational (R13). -/
def nearestF32 (q : ℚ) : F := roundUnits (decide (q < 0)) (q.num.natAbs * unitsOfOne) q.den

/-- The word that encodes the rational `q` (R17), if one does; `0x00000000` for zero. -/
def wordOfRat (q : ℚ) : Option Word :=
  if (nearestF32 q).isFinite ∧ (nearestF32 q).toRat = q then some (bitsOfF32 0 (nearestF32 q)) else none

/-- The word of a real: the word that encodes it. DESIGN CHOICE (log entry 21): a real that no word encodes has a free
word. -/
def bitsOfReal (a : PowerSum) : Word := (a.toRat?.bind wordOfRat).getD (Config.freeBits a)

end Sys2Proof.Machine
end

