-- ==== Sys2Proof/Machine/Filter.lean ====
section
/-! DEFINITION. The Ladder Filter step (40_ladder_filter.md R90 to R95), an internal operation of the frame
processor. -/

namespace Sys2Proof.Machine

variable {α : Type}

/-- `f = ec * 1.16` (R93). -/
def filterF (N : Num α) (ec : α) : α := N.mul ec N.c116

/-- `fb = res * (1.0 - (0.15 * f) * f)` with `res = rr * 4.0` (R93, R94 (a)). -/
def filterFeedback (N : Num α) (f rr : α) : α :=
  N.mul (N.mul rr N.four) (N.sub N.one (N.mul (N.mul N.c015 f) f))

/-- One of the four stages: `(u * f) + (s * g)`, three roundings (R93, R94 (c)). -/
def filterStage (N : Num α) (f g u s : α) : α := N.add (N.mul u f) (N.mul s g)

/-- `ladder_step(x, ec, rr)` (R93): the stage registers after the step; the value returned is their `S4`. The
feedback reads the old `S4`; each stage reads the output its predecessor has just written (R94 (d), (e)). -/
def ladderStep (N : Num α) (x ec rr : α) (st : Ladder α) : Ladder α :=
  let f := filterF N ec
  let fb := filterFeedback N f rr
  let g := N.sub N.one f
  let u1 := N.sub x (N.mul fb st.s4)
  let s1 := filterStage N f g u1 st.s1
  let s2 := filterStage N f g s1 st.s2
  let s3 := filterStage N f g s2 st.s3
  let s4 := filterStage N f g s3 st.s4
  ⟨s1, s2, s3, s4⟩

end Sys2Proof.Machine
end

