-- ==== Sys2Proof/Machine/Generator.lean ====
section
/-! DEFINITION. The Envelope Generator's state machine (41_envelope.md R110 to R121): the rate formula, the two
events and the per-sample tick. The commands `TRIG` and `REL` are in Envelope.lean. -/

namespace Sys2Proof.Machine

variable {α : Type}

/-- `rate_of(t)` (R112). -/
def rateOf (N : Num α) (c : Consts α) (t : α) : α :=
  N.div N.one (N.mul (clampLo N t c.tEps) c.sampleRate)

/-- The assignments of `TRIG` (R113), valid in every stage (R111). -/
def envTrigger (N : Num α) (c : Consts α) (p : Params α) : Env α :=
  ⟨.attack, N.zero, N.one, rateOf N c p.attack⟩

/-- The assignments of `REL` (R114), valid in every stage (R111, R128); `EV` is not written. -/
def envRelease (N : Num α) (c : Consts α) (p : Params α) (e : Env α) : Env α :=
  ⟨.release, e.ev, N.zero, rateOf N c p.release⟩

/-- The sustain level as the tick reads it (R116, R117). -/
def sustainLevel (N : Num α) (p : Params α) : α := clamp N p.sustain N.zero N.one

/-- The tick in `Attack` (R116). -/
def tickAttack (N : Num α) (c : Consts α) (p : Params α) (e : Env α) : Env α :=
  let v := N.add e.ev e.er
  if N.le N.one v then ⟨.decay, N.one, sustainLevel N p, rateOf N c p.decay⟩ else { e with ev := v }

/-- The tick in `Decay` (R117). -/
def tickDecay (N : Num α) (p : Params α) (e : Env α) : Env α :=
  let v := N.sub e.ev e.er
  if N.le v (sustainLevel N p) then { e with stage := .sustain, ev := sustainLevel N p }
  else { e with ev := v }

/-- The tick in `Release` (R119). -/
def tickRelease (N : Num α) (e : Env α) : Env α :=
  let v := N.sub e.ev e.er
  if N.le v N.zero then { e with stage := .idle, ev := N.zero } else { e with ev := v }

/-- `env_tick()` (R115): at most one stage rule, chosen by `STAGE`; in `Sustain` (R118) and `Idle` (R120) nothing
is written. -/
def envTick (N : Num α) (c : Consts α) (p : Params α) (e : Env α) : Env α :=
  match e.stage with
  | .attack => tickAttack N c p e
  | .decay => tickDecay N p e
  | .sustain => e
  | .release => tickRelease N e
  | .idle => e

end Sys2Proof.Machine
end

