-- ==== Sys2Proof/Machine/Operands.lean ====
section
/-! DEFINITION. How the numeric path reads its operands out of the stored words (00_scope.md R17, R18, 30_encoding.md
R72): registers and buffer words hold bits, a rule reads values of the format `NUM` (R13). -/

namespace Sys2Proof.Machine

variable {α β : Type}

/-- Every `F` register of the parameter file through `f`; `NOTE` stays an `I32` word. -/
def mapParams (f : α → β) (p : Params α) : Params β :=
  ⟨f p.cutoff, f p.resonance, f p.modvalue, f p.keytrack, p.note, f p.basecut, f p.attack, f p.decay,
    f p.sustain, f p.release, f p.contour⟩

/-- Every `F` register of the envelope through `f`. -/
def mapEnv (f : α → β) (e : Env α) : Env β := ⟨e.stage, f e.ev, f e.et, f e.er⟩

/-- Every configuration value through `f`. -/
def mapConsts (f : α → β) (c : Consts α) : Consts β := ⟨f c.sampleRate, f c.tEps, f c.resMax⟩

/-- Every filter stage register through `f`. -/
def mapLadder (f : α → β) (l : Ladder α) : Ladder β := ⟨f l.s1, f l.s2, f l.s3, f l.s4⟩

/-! ## Binary32 -/

/-- Binary32 with the `EXP2` of the instance (R13, R14). -/
def State.f32Num (s : State) : Num F := Num.binary32 s.cfg.exp2

/-- `SAMPLE_RATE`, `T_EPS` and `RES_MAX` as `F` values (R9, R10, R11). -/
def configConsts (c : Config) : Consts F := ⟨f32OfBits c.sampleRate, f32OfBits c.tEps, f32OfBits c.resMax⟩

/-- The configuration values of the instance as `F` values. -/
def State.consts (s : State) : Consts F := configConsts s.cfg

/-- The parameter registers as `F` values (R21). -/
def State.paramValues (s : State) : Params F := mapParams f32OfBits s.params

/-- The envelope registers as `F` values (R32 to R35). -/
def State.envValues (s : State) : Env F := mapEnv f32OfBits s.env

/-- The filter stage registers as `F` values (R31). -/
def State.ladderValues (s : State) : Ladder F := mapLadder f32OfBits s.ladder

/-! ## Exact arithmetic (R13); the words that the host stores are read as the reals they encode (log entry 21) -/

/-- Exact arithmetic as the envelope computes in it: its rules evaluate no `EXP2` (41_envelope.md R112 to R120), so any
function may stand in its place. -/
def exactNum : Num ℚ := Num.exact id

/-- `SAMPLE_RATE`, `T_EPS` and `RES_MAX` as reals (R9, R10, R11). DESIGN CHOICE (log entry 21): in exact arithmetic too
they are configured as words, so they are reals that a word encodes. -/
def exactConfigConsts (c : Config) : Consts ℚ := ⟨realOfBits c.sampleRate, realOfBits c.tEps, realOfBits c.resMax⟩

/-- The configuration values of the instance as reals. -/
def State.exactConsts (s : State) : Consts ℚ := exactConfigConsts s.cfg

/-- The parameter registers as reals (R21). -/
def State.exactParams (s : State) : Params ℚ := mapParams realOfBits s.params

/-- The envelope registers in exact arithmetic (R32 to R35). -/
def State.exactEnv (s : State) : Env ℚ := ⟨s.env.stage, s.real.ev, s.real.et, s.real.er⟩

/-! The compositor and the filter compute with the same values as sums of powers. -/

/-- Exact arithmetic with the `EXP2` of the instance (R13, R14). -/
def State.powerNum (s : State) : Num PowerSum := Num.power s.cfg.exp2

/-- The configuration values of the instance. -/
def State.powerConsts (s : State) : Consts PowerSum := mapConsts .ofRat s.exactConsts

/-- The parameter registers (R21). -/
def State.powerParams (s : State) : Params PowerSum := mapParams .ofRat s.exactParams

/-- The envelope registers (R32 to R35). -/
def State.powerEnv (s : State) : Env PowerSum := mapEnv .ofRat s.exactEnv

end Sys2Proof.Machine
end

