-- ==== Sys2Proof/Machine/Ops.lean ====
section
/-! DEFINITION. The named operations over the buffers and the registers: buffer access (20_memory.md R50 to R56), the
stores of computed values, the response channel (30_encoding.md R77), raising a fault (60_exceptions.md R212) and the
reset event, the only way back from one (70_reset_and_hazards.md R230 to R234). -/

namespace Sys2Proof.Machine

/-! ## The buffers -/

variable {α : Type} [Inhabited α] [DecidableEq α]

/-- What a buffer word that nothing has written reads as: `+0.0` (R46), the default of both types a buffer holds. -/
abbrev unwritten (α : Type) [Inhabited α] : α := default

/-- `MemRead` of word `i` (R18, R55). -/
def Memory.read : Memory α → Nat → α
  | [], _ => unwritten α
  | (a, w) :: m, i => if a = i then w else Memory.read m i

/-- The buffer with no entry for word `i` in front, and `w` at `i` unless that is what an unlisted word reads as. -/
def Memory.insert (i : Nat) (w : α) (m : Memory α) : Memory α :=
  if w = unwritten α then m else (i, w) :: m

/-- `MemWrite` of `w` to word `i` (R18, R55), in canonical form. -/
def Memory.write : Memory α → Nat → α → Memory α
  | [], i, w => Memory.insert i w []
  | (a, v) :: m, i, w =>
    if i < a then Memory.insert i w ((a, v) :: m)
    else if i = a then Memory.insert i w m
    else (a, v) :: Memory.write m i w

/-- The entries have strictly rising indices from `lo` on, all below `size`, and no entry holds what an unlisted word
reads as. -/
def Memory.wfFrom (size : Nat) : Nat → Memory α → Bool
  | _, [] => true
  | lo, (a, w) :: m =>
    decide (lo ≤ a) && decide (a < size) && decide (w ≠ unwritten α) && Memory.wfFrom size (a + 1) m

/-- The canonical form of a buffer of `size` words (R50). -/
def Memory.wf (size : Nat) (m : Memory α) : Bool := Memory.wfFrom size 0 m

/-- The legal indices of either buffer (R56). -/
def State.legalIndex (s : State) (i : Nat) : Bool := decide (i < s.cfg.frameSize)

/-- The word of `OBUF` that the host reads at `i` (44_host_commands.md R191): what is stored there, as bits. -/
def State.outputBits (s : State) (i : Nat) : Word :=
  match s.cfg.num with
  | .binary32 => s.obuf.read i
  | .exact => bitsOfReal (s.real.obuf.read i)

/-! ## Storing what binary32 computes

Each store that may store a NaN draws a free pattern of its own (U6, log entry 5); a store draws the same patterns
whether it needs them or not. -/

/-- Write the envelope registers (R32 to R35). -/
def State.putEnv (e : Env F) (s : State) : State :=
  { s with
    env := ⟨e.stage, bitsOfF32 s.nanSeq e.ev, bitsOfF32 (s.nanSeq + 1) e.et, bitsOfF32 (s.nanSeq + 2) e.er⟩
    nanSeq := s.nanSeq + 3 }

/-- Write the filter stage registers (R31). -/
def State.putLadder (l : Ladder F) (s : State) : State :=
  { s with
    ladder := ⟨bitsOfF32 s.nanSeq l.s1, bitsOfF32 (s.nanSeq + 1) l.s2, bitsOfF32 (s.nanSeq + 2) l.s3,
      bitsOfF32 (s.nanSeq + 3) l.s4⟩
    nanSeq := s.nanSeq + 4 }

/-- `MemWrite(OBUF, n, y)` (R161, R164). -/
def State.putSample (n : Nat) (y : F) (s : State) : State :=
  { s with obuf := s.obuf.write n (bitsOfF32 s.nanSeq y), nanSeq := s.nanSeq + 1 }

/-! ## Storing what exact arithmetic computes (log entry 23) -/

/-- Write the envelope registers (R32 to R35). -/
def State.putEnvExact (e : Env ℚ) (s : State) : State :=
  { s with
    env := { s.env with stage := e.stage }
    real := { s.real with ev := e.ev, et := e.et, er := e.er } }

/-- Write the filter stage registers (R31). -/
def State.putLadderExact (l : Ladder PowerSum) (s : State) : State := { s with real := { s.real with ladder := l } }

/-- `MemWrite(OBUF, n, y)` (R161, R164). -/
def State.putSampleExact (n : Nat) (y : PowerSum) (s : State) : State :=
  { s with real := { s.real with obuf := s.real.obuf.write n y } }

/-! ## Storing what the host sends -/

/-- `MemWrite(IBUF, i, v)` of an operand word, stored bit for bit (R190). -/
def State.putInput (i : Nat) (w : Word) (s : State) : State := { s with ibuf := s.ibuf.write i w }

/-! ## The response channel, the fault latch, reset -/

/-- `respond(w)` (R77). -/
def State.respond (w : Word) (s : State) : State := { s with resp := s.resp ++ [w] }

/-- `raise Fault(code)` (R212): the latch and its cause, and nothing else. There is no handler and nothing is saved
(R221). -/
def State.raiseFault (code : FaultCode) (s : State) : State := { s with fault := true, fcode := code }

/-- The reset event (R230 to R234), the one way out of a fault: the reset state of the same configuration. A partly
received command is forgotten (R231); the words the host still offers are the host's (R240, log entry 10); the free
values already drawn stay drawn (log entry 5). -/
def State.resetEvent (s : State) : State :=
  { State.resetOf s.cfg with port := s.port, nanSeq := s.nanSeq }

end Sys2Proof.Machine
end

