-- ==== Sys2Proof/Machine/Buffers.lean ====
section
/-! DEFINITION. The buffer access commands `STIN` and `LDOUT` (44_host_commands.md R190, R191, 60_exceptions.md
R214). -/

namespace Sys2Proof.Machine

/-- `STIN i, v` (R190): an index that is no word of the buffer raises `BUFFER_INDEX` and nothing is written. -/
def execStin (index : Nat) (v : Word) (s : State) : Host.Outcome State Fault Refusal :=
  .next (if s.legalIndex index then s.putInput index v else s.raiseFault .bufferIndex)

/-- `LDOUT i` (R191): an index that is no word of the buffer raises `BUFFER_INDEX` and there is no response. -/
def execLdout (index : Nat) (s : State) : Host.Outcome State Fault Refusal :=
  .next (if s.legalIndex index then s.respond (s.outputBits index) else s.raiseFault .bufferIndex)

end Sys2Proof.Machine
end

