-- ==== Sys2Proof/Machine/Envelope.lean ====
section
/-! DEFINITION. The envelope commands `TRIG` and `REL` (41_envelope.md R113, R114), and the tick on the state
(R115). -/

namespace Sys2Proof.Machine

/-- `env_tick()` on the registers (R115), in the format `NUM`. -/
def State.tick (s : State) : State :=
  match s.cfg.num with
  | .binary32 => s.putEnv (envTick s.f32Num s.consts s.paramValues s.envValues)
  | .exact => s.putEnvExact (envTick exactNum s.exactConsts s.exactParams s.exactEnv)

/-- `TRIG` (R113), in the format `NUM`. -/
def execTrig (s : State) : Host.Outcome State Fault Refusal :=
  .next (match s.cfg.num with
    | .binary32 => s.putEnv (envTrigger s.f32Num s.consts s.paramValues)
    | .exact => s.putEnvExact (envTrigger exactNum s.exactConsts s.exactParams))

/-- `REL` (R114), in the format `NUM`. -/
def execRel (s : State) : Host.Outcome State Fault Refusal :=
  .next (match s.cfg.num with
    | .binary32 => s.putEnv (envRelease s.f32Num s.consts s.paramValues s.envValues)
    | .exact => s.putEnvExact (envRelease exactNum s.exactConsts s.exactParams s.exactEnv))

end Sys2Proof.Machine
end

