-- ==== Sys2Proof/Machine/Frame.lean ====
section
/-! DEFINITION. The Frame Processor and its command `PROC` (43_frame_processor.md R160 to R164). -/

namespace Sys2Proof.Machine

/-- The filter step on the registers, for input word `x` (R161), in binary32: the operands are the compositor's result
and the clamped resonance (R163). -/
def State.filterStep (x : Word) (s : State) : Ladder F :=
  ladderStep s.f32Num (f32OfBits x) (compose s.f32Num s.paramValues s.envValues)
    (resonanceOperand s.f32Num s.consts s.paramValues) s.ladderValues

/-- The same in exact arithmetic. -/
def State.filterStepExact (x : Word) (s : State) : Ladder PowerSum :=
  ladderStep s.powerNum (.ofRat (realOfBits x)) (compose s.powerNum s.powerParams s.powerEnv)
    (resonanceOperand s.powerNum s.powerConsts s.powerParams) s.real.ladder

/-- The end of `sample_step(n)` (R161), in the format `NUM`: the filter step and the store of its result, which is `S4`
(R164). -/
def State.filterSample (n : Nat) (s : State) : State :=
  match s.cfg.num with
  | .binary32 =>
    let l := s.filterStep (s.ibuf.read n)
    (s.putLadder l).putSample n l.s4
  | .exact =>
    let l := s.filterStepExact (s.ibuf.read n)
    (s.putLadderExact l).putSampleExact n l.s4

/-- `sample_step(n)` (R161): tick, compositor, resonance clamp, input read, filter step, output write. -/
def State.sampleStep (n : Nat) (s : State) : State := s.tick.filterSample n

/-- The sample steps `n`, `n + 1`, … in increasing order, `k` of them (R160, R63). -/
def State.sampleSteps : Nat → Nat → State → State
  | 0, _, s => s
  | k + 1, n, s => State.sampleSteps k (n + 1) (s.sampleStep n)

/-- `PROC` (R160): one whole frame, `BUSY` 1 inside it. -/
def execProc (s : State) : Host.Outcome State Fault Refusal :=
  .next { State.sampleSteps s.cfg.frameSize 0 { s with busy := true } with busy := false }

end Sys2Proof.Machine
end

