-- ==== Sys2Proof/Machine/Readback.lean ====
section
/-! DEFINITION. The read-back commands `GETCUT` and `GETRES` (44_host_commands.md R186, R187): the raw register. -/

namespace Sys2Proof.Machine

/-- `GETCUT` (R186). -/
def execGetcut (s : State) : Host.Outcome State Fault Refusal := .next (s.respond s.params.cutoff)

/-- `GETRES` (R187). -/
def execGetres (s : State) : Host.Outcome State Fault Refusal := .next (s.respond s.params.resonance)

end Sys2Proof.Machine
end

