-- ==== Sys2Proof/Machine/Setters.lean ====
section
/-! DEFINITION. The parameter setters `SETCUT`, `SETRES`, `SETMOD`, `SETENV`, `SETKEY` (44_host_commands.md R181 to
R185, R189): every operand is stored bit for bit and none is validated. -/

namespace Sys2Proof.Machine

/-- `SETCUT v` (R181). -/
def execSetcut (v : Word) (s : State) : Host.Outcome State Fault Refusal :=
  .next { s with params := { s.params with cutoff := v } }

/-- `SETRES v` (R182). -/
def execSetres (v : Word) (s : State) : Host.Outcome State Fault Refusal :=
  .next { s with params := { s.params with resonance := v } }

/-- `SETMOD v` (R183). -/
def execSetmod (v : Word) (s : State) : Host.Outcome State Fault Refusal :=
  .next { s with params := { s.params with modvalue := v } }

/-- `SETENV a, d, s, r, c` (R184): five registers in one step, the running envelope untouched. -/
def execSetenv (attack decay sustain release contour : Word) (s : State) : Host.Outcome State Fault Refusal :=
  .next { s with params := { s.params with
    attack := attack, decay := decay, sustain := sustain, release := release, contour := contour } }

/-- `SETKEY b, k, n` (R185): `BASECUT`, `KEYTRACK` and `NOTE` in one step, `CUTOFF` untouched. -/
def execSetkey (base amount : Word) (note : Int) (s : State) : Host.Outcome State Fault Refusal :=
  .next { s with params := { s.params with basecut := base, keytrack := amount, note := BitVec.ofInt 32 note } }

end Sys2Proof.Machine
end

