-- ==== Sys2Proof/Syntax.lean ====
section
/-! DEFINITION. The abstract commands (30_encoding.md R74, R85): one constructor per row of the opcode table.
An `f32` operand is kept as its word (R72, R85), so that a NaN keeps its bits; an `i32` operand is an integer and a
`u32` operand a natural number, whose ranges WellFormed.lean checks. -/

namespace Sys2Proof

/-- The twelve commands (R74). -/
inductive Instr where
  /-- `SETCUT v` (R181) -/
  | setcut (v : Word)
  /-- `SETRES v` (R182) -/
  | setres (v : Word)
  /-- `SETMOD v` (R183) -/
  | setmod (v : Word)
  /-- `SETENV a, d, s, r, c` (R184) -/
  | setenv (attack decay sustain release contour : Word)
  /-- `SETKEY b, k, n` (R185) -/
  | setkey (base amount : Word) (note : Int)
  /-- `TRIG` (R113) -/
  | trig
  /-- `REL` (R114) -/
  | rel
  /-- `PROC` (R160) -/
  | proc
  /-- `GETCUT` (R186) -/
  | getcut
  /-- `GETRES` (R187) -/
  | getres
  /-- `STIN i, v` (R190) -/
  | stin (index : Nat) (v : Word)
  /-- `LDOUT i` (R191) -/
  | ldout (index : Nat)
deriving DecidableEq, Repr

end Sys2Proof
end

