-- ==== Sys2Proof/Machine/Dispatch.lean ====
section
/-! DEFINITION. The meaning of each command, one arm per constructor (30_encoding.md R74). -/

namespace Sys2Proof.Machine

def exec (i : Instr) (s : State) : Host.Outcome State Fault Refusal :=
  match i with
  -- the setters
  | .setcut v => Sys2Proof.Machine.execSetcut v s
  | .setres v => Sys2Proof.Machine.execSetres v s
  | .setmod v => Sys2Proof.Machine.execSetmod v s
  | .setenv attack decay sustain release contour => Sys2Proof.Machine.execSetenv attack decay sustain release contour s
  | .setkey base amount note => Sys2Proof.Machine.execSetkey base amount note s
  -- the envelope
  | .trig => Sys2Proof.Machine.execTrig s
  | .rel => Sys2Proof.Machine.execRel s
  -- the frame processor
  | .proc => Sys2Proof.Machine.execProc s
  -- read-back
  | .getcut => Sys2Proof.Machine.execGetcut s
  | .getres => Sys2Proof.Machine.execGetres s
  -- buffer access
  | .stin index v => Sys2Proof.Machine.execStin index v s
  | .ldout index => Sys2Proof.Machine.execLdout index s

end Sys2Proof.Machine
end

