-- ==== Sys2Proof/WellFormed.lean ====
section
/-! DEFINITION. When a command has an encoding (30_encoding.md R72, R81): its signed integer operand fits `I32` and
its unsigned one fits `U32`. An `f32` operand has no check: every word is legal (R72). -/

namespace Sys2Proof

/-- `n` fits `I32` (R81, R17). -/
def fitsI32 (n : Int) : Bool := decide (-2 ^ 31 ≤ n) && decide (n < 2 ^ 31)

/-- `n` fits `U32` (R81, R17). -/
def fitsU32 (n : Nat) : Bool := decide (n < 2 ^ 32)

/-- The command has an encoding. -/
def Instr.wellFormed : Instr → Bool
  | .setcut _ => true
  | .setres _ => true
  | .setmod _ => true
  | .setenv _ _ _ _ _ => true
  | .setkey _ _ note => fitsI32 note
  | .trig => true
  | .rel => true
  | .proc => true
  | .getcut => true
  | .getres => true
  | .stin index _ => fitsU32 index
  | .ldout index => fitsU32 index

end Sys2Proof
end

