-- ==== Sys2Proof/Decode.lean ====
section
/-! DEFINITION. The decoder and the encoder (30_encoding.md R70 to R80, R85). A command is a header word and the
operand words its format has; the decoder is total on any list of words and answers one of the three results of
R76. -/

namespace Sys2Proof

/-- What the decoder answers (R76). -/
inductive Decoded where
  /-- the words start with a whole command -/
  | cmd (i : Instr) (rest : List Word)
  /-- the words start with an illegal header (R78); `rest` is everything after that one word -/
  | illegal (rest : List Word)
  /-- the words are empty, or a legal header without all its operands (R80) -/
  | incomplete
deriving DecidableEq, Repr

/-! The six formats (R73): the operand words taken after the header. -/

/-- Format `H`: no operand. -/
def formatH (c : Instr) (ops : List Word) : Decoded := .cmd c ops

/-- Format `HF`: one `f32`. -/
def formatHF (c : Word → Instr) : List Word → Decoded
  | w1 :: rest => .cmd (c w1) rest
  | _ => .incomplete

/-- Format `HF5`: five `f32`. -/
def formatHF5 (c : Word → Word → Word → Word → Word → Instr) : List Word → Decoded
  | w1 :: w2 :: w3 :: w4 :: w5 :: rest => .cmd (c w1 w2 w3 w4 w5) rest
  | _ => .incomplete

/-- Format `HK`: two `f32` and an `i32`, read as two's complement (R72, R17). -/
def formatHK (c : Word → Word → Int → Instr) : List Word → Decoded
  | w1 :: w2 :: w3 :: rest => .cmd (c w1 w2 w3.toInt) rest
  | _ => .incomplete

/-- Format `HX`: one `u32`. -/
def formatHX (c : Nat → Instr) : List Word → Decoded
  | w1 :: rest => .cmd (c w1.toNat) rest
  | _ => .incomplete

/-- Format `HXF`: a `u32` and an `f32`. -/
def formatHXF (c : Nat → Word → Instr) : List Word → Decoded
  | w1 :: w2 :: rest => .cmd (c w1.toNat w2) rest
  | _ => .incomplete

/-- The opcode map (R74), on the header's `OPC` field and the words after the header. Opcode `0x00` and the
opcodes from `0x0D` on are illegal (R78). -/
def decodeOpcode (opc : Nat) (ops : List Word) : Decoded :=
  match opc with
  | 0x01 => formatHF .setcut ops
  | 0x02 => formatHF .setres ops
  | 0x03 => formatHF .setmod ops
  | 0x04 => formatHF5 .setenv ops
  | 0x05 => formatHK .setkey ops
  | 0x06 => formatH .trig ops
  | 0x07 => formatH .rel ops
  | 0x08 => formatH .proc ops
  | 0x09 => formatH .getcut ops
  | 0x0A => formatH .getres ops
  | 0x0B => formatHXF .stin ops
  | 0x0C => formatHX .ldout ops
  | _ => .illegal ops

/-- The header's `RSV` field, bits 31:8 (R71). -/
def headerReserved (w : Word) : Nat := w.toNat / 2 ^ 8

/-- The header's `OPC` field, bits 7:0 (R71). -/
def headerOpcode (w : Word) : Nat := w.toNat % 2 ^ 8

/-- The decoder (R75, R76): one word is read as a header, and the opcode alone gives the operand words. -/
def decode : List Word → Decoded
  | [] => .incomplete
  | w0 :: ops => if headerReserved w0 = 0 then decodeOpcode (headerOpcode w0) ops else .illegal ops

/-- The word of an `I32` operand (R72). -/
def i32Word (n : Int) : Word := BitVec.ofInt 32 n

/-- The word of a `U32` operand (R72). -/
def u32Word (n : Nat) : Word := BitVec.ofNat 32 n

/-- The encoder (R71 to R74, R85). -/
def encode : Instr → List Word
  | .setcut v => [0x01, v]
  | .setres v => [0x02, v]
  | .setmod v => [0x03, v]
  | .setenv a d s r c => [0x04, a, d, s, r, c]
  | .setkey b k n => [0x05, b, k, i32Word n]
  | .trig => [0x06]
  | .rel => [0x07]
  | .proc => [0x08]
  | .getcut => [0x09]
  | .getres => [0x0A]
  | .stin i v => [0x0B, u32Word i, v]
  | .ldout i => [0x0C, u32Word i]

/-- How many words the longest command has (`SETENV`, R73). -/
def longestCommand : Nat := 6

/-- The words of a command whose bits are the number `w`, its first word the least significant; every bit from
`nbits` on is 0. -/
def tableWords (nbits w : Nat) : List Word :=
  (List.range longestCommand).map fun k => BitVec.ofNat 32 (w % 2 ^ nbits / 2 ^ (32 * k))

/-- The same words without those after the command: an illegal header is a command of one word (R75). -/
def tableCommandWords (nbits w : Nat) : List Word :=
  let ws := tableWords nbits w
  match decode ws with
  | .cmd _ rest => ws.take (ws.length - rest.length)
  | .illegal rest => ws.take (ws.length - rest.length)
  | .incomplete => ws

/-- The command the decoder reads from the bits `w`, numbered as the opcode table numbers them. -/
def decodeTableWord (nbits w : Nat) : Option Instr :=
  match decode (tableWords nbits w) with
  | .cmd i _ => some i
  | .illegal _ => none
  | .incomplete => none

end Sys2Proof
end

