-- ==== Sys2Proof/Machine/Port.lean ====
section
/-! DEFINITION. The command port (30_encoding.md R70, R75, R76, R80, 44_host_commands.md R180): taking the next
command from the words the host offers, and what becomes of the words otherwise. -/

namespace Sys2Proof.Machine

/-- The next command of the port (R75): the decoder reads on from the words already received. -/
def State.nextCommand (s : State) : Decoded := decode (s.rx ++ s.port)

/-- A whole command has been taken and `rest` is still offered. -/
def State.taken (rest : List Word) (s : State) : State := { s with rx := [], port := rest }

/-- The words offered are part of a command: the block takes them and waits for the rest, with no other change
(R80). -/
def State.await (s : State) : State := { s with rx := s.rx ++ s.port, port := [] }

/-- `FAULT = 1`: every word offered is discarded, with no other change (R216). -/
def State.discard (s : State) : State := { s with port := [] }

/-- An illegal header executes as `raise Fault(ILLEGAL_COMMAND)` (R78, R180, R213); no operand word is taken for
it. -/
def State.illegalHeader (rest : List Word) (s : State) : State := (s.taken rest).raiseFault .illegalCommand

/-- `s` with exactly the words `ws` offered to a block that accepts them at once. -/
def State.offering (ws : List Word) (s : State) : State :=
  { s with rx := [], port := ws, resetIn := false, busy := false, fault := false }

end Sys2Proof.Machine
end

