-- ==== Sys2Proof/Machine/Step.lean ====
section
/-! DEFINITION. One step of the block (44_host_commands.md R180, 60_exceptions.md R216, R218, 30_encoding.md R80,
70_reset_and_hazards.md R230): at most one command, taken and executed to completion. -/

namespace Sys2Proof.Machine

/-- The step. An asserted reset comes first (R216, R223, R233); a busy block takes no word (R240); a faulted block
discards what it is offered (R216); otherwise the next command is taken and executed (R180), an illegal header raises
its fault (R213), and an incomplete command waits (R80). -/
def step (s : State) : Host.Outcome State Fault Refusal :=
  if s.resetIn then .next s.resetEvent
  else if s.busy then .next s
  else if s.fault then .next s.discard
  else match s.nextCommand with
    | .cmd i rest => exec i (s.taken rest)
    | .illegal rest => .next (s.illegalHeader rest)
    | .incomplete => .next s.await

/-- `s` with the words of one command (of the bits `w`, numbered as the opcode table numbers them) offered on the port,
so that the next step takes and executes it (log entry 4). -/
def State.withFetchWord (s : State) (nbits w : Nat) : State := s.offering (tableCommandWords nbits w)

end Sys2Proof.Machine
end

