-- ==== Sys2Proof/Machine/Assembler.lean ====
section
/-! DEFINITION. The assembler's textual form of commands (30_encoding.md R81, R82), read from a list of characters.
It is no part of the block's step: the host turns text into words with it. What R81 leaves open in the text (blanks,
plus signs, the form of a literal) is log entry 16. -/

namespace Sys2Proof.Machine

/-- The pieces of a text between the characters `c`. -/
def splitAtChar (c : Char) : List Char → List (List Char)
  | [] => [[]]
  | x :: xs =>
    match splitAtChar c xs with
    | [] => [[x]]
    | p :: ps => if x = c then [] :: p :: ps else (x :: p) :: ps

/-- The text without blanks at either end. -/
def trimBlanks (t : List Char) : List Char :=
  ((t.dropWhile Char.isWhitespace).reverse.dropWhile Char.isWhitespace).reverse

/-- The number a text of digits in base 10 stands for. -/
def readDigits (t : List Char) : Option Nat :=
  if t ≠ [] ∧ t.all Char.isDigit then some (t.foldl (fun n c => 10 * n + (c.toNat - '0'.toNat)) 0) else none

/-- The value of a hexadecimal digit. -/
def hexDigit (c : Char) : Option Nat :=
  if c.isDigit then some (c.toNat - '0'.toNat)
  else if 'a' ≤ c ∧ c ≤ 'f' then some (c.toNat - 'a'.toNat + 10)
  else if 'A' ≤ c ∧ c ≤ 'F' then some (c.toNat - 'A'.toNat + 10)
  else none

/-- The number a text of hexadecimal digits stands for. -/
def readHex (t : List Char) : Option Nat :=
  t.foldl (fun acc c => do let n ← acc; let d ← hexDigit c; return 16 * n + d) (some 0)

/-- An integer literal: a decimal literal with an optional minus sign (R81). -/
def readInt : List Char → Option Int
  | '-' :: t => (readDigits t).map fun n => -(n : Int)
  | t => (readDigits t).map fun n => (n : Int)

/-- The word of the `F` value nearest to `n * 10^e`, ties to even (R81), negative when `neg`. -/
def decimalWord (neg : Bool) (n : Nat) (e : Int) : Word :=
  bitsOfF32 0 (if 0 ≤ e then roundUnits neg (n * 10 ^ e.toNat * unitsOfOne) 1
    else roundUnits neg (n * unitsOfOne) (10 ^ (-e).toNat))

/-- An unsigned decimal literal `123`, `1.5` or `1e-3` (R81), as digits and a power of ten. DESIGN CHOICE (log entry
16): the exponent may carry a minus sign and no plus sign, its letter is `e`, and a digit stands on each side of a
point. -/
def readDecimal (t : List Char) : Option (Nat × Int) :=
  match splitAtChar 'e' t with
  | [m] => mantissa m 0
  | [m, e] => (readInt e).bind (mantissa m)
  | _ => none
where
  /-- The part before the exponent, scaled by `10^e`. -/
  mantissa (m : List Char) (e : Int) : Option (Nat × Int) :=
    match splitAtChar '.' m with
    | [a] => (readDigits a).map fun n => (n, e)
    | [a, b] => do let _ ← readDigits a; let _ ← readDigits b; let n ← readDigits (a ++ b); return (n, e - b.length)
    | _ => none

/-- A floating-point operand (R81): a bit pattern `0x` and eight hexadecimal digits, `inf`, `-inf`, or a decimal
literal. DESIGN CHOICE (log entry 16): a decimal literal may carry a minus sign and no plus sign; one that rounds to zero
keeps its sign, and one too large for a finite value is an infinity. -/
def readFloat : List Char → Option Word
  | '0' :: 'x' :: t => if t.length = 8 then (readHex t).map (BitVec.ofNat 32) else none
  | ['i', 'n', 'f'] => some (packFields false 255 0)
  | ['-', 'i', 'n', 'f'] => some (packFields true 255 0)
  | '-' :: t => (readDecimal t).map fun (n, e) => decimalWord true n e
  | t => (readDecimal t).map fun (n, e) => decimalWord false n e

/-- A mnemonic in upper or lower case (R81), as its upper-case text; one in mixed case is none (DESIGN CHOICE, log entry
16). -/
def upperMnemonic (t : List Char) : List Char :=
  if t.all Char.isLower then t.map Char.toUpper else t

/-- The command of a mnemonic in upper case and its operands (R81). -/
def readCommand (m : String) (ops : List (List Char)) : Option Instr :=
  match m, ops with
  | "SETCUT", [f] => (readFloat f).map .setcut
  | "SETRES", [f] => (readFloat f).map .setres
  | "SETMOD", [f] => (readFloat f).map .setmod
  | "SETENV", [a, d, s, r, c] => do
    return .setenv (← readFloat a) (← readFloat d) (← readFloat s) (← readFloat r) (← readFloat c)
  | "SETKEY", [b, k, n] => do return .setkey (← readFloat b) (← readFloat k) (← readInt n)
  | "TRIG", [] => some .trig
  | "REL", [] => some .rel
  | "PROC", [] => some .proc
  | "GETCUT", [] => some .getcut
  | "GETRES", [] => some .getres
  | "STIN", [i, f] => do return .stin (← readDigits i) (← readFloat f)
  | "LDOUT", [i] => (readDigits i).map .ldout
  | _, _ => none

/-- The same, if the integer operands fit their types (R81). -/
def assembleCommand (m : String) (ops : List (List Char)) : Option Instr :=
  (readCommand m ops).filter Instr.wellFormed

/-- One line (R81): what stands before a `;`, one command or nothing. -/
def assembleLine (line : List Char) : Option (List Instr) :=
  let t := trimBlanks (line.takeWhile (· ≠ ';'))
  if t = [] then some []
  else
    let m := t.takeWhile fun c => !c.isWhitespace
    let rest := trimBlanks (t.dropWhile fun c => !c.isWhitespace)
    let ops := if rest = [] then [] else (splitAtChar ',' rest).map trimBlanks
    (assembleCommand (String.ofList (upperMnemonic m)) ops).map fun i => [i]

/-- A text of commands, one a line (R81, R82). -/
def assemble (text : List Char) : Option (List Instr) :=
  (splitAtChar '\n' text).foldr
    (fun line acc => do let a ← assembleLine line; let b ← acc; return a ++ b) (some [])

/-- The words a text of commands stands for. -/
def assembleWords (text : List Char) : Option (List Word) := (assemble text).map fun is => is.flatMap encode

end Sys2Proof.Machine
end

