-- ==== Sys2Proof/Machine/Flags.lean ====
section
/-! DEFINITION. The status outputs and register codes as bits (10_state.md R33, R37, R38, R49, 60_exceptions.md
R211). The block has no arithmetic flags and no condition codes (R40): no command computes one. -/

namespace Sys2Proof.Machine

/-- The code of an envelope stage in the 3-bit register `STAGE` (R33). -/
def stageBits : Stage → BitVec 3
  | .idle => 0
  | .attack => 1
  | .decay => 2
  | .sustain => 3
  | .release => 4

/-- The 2-bit code of a fault cause in `FCODE` (R211). -/
def fcodeBits : FaultCode → BitVec 2
  | .none => 0
  | .illegalCommand => 1
  | .bufferIndex => 2

/-- The status output `FAULT` (R37). -/
def State.faultOut (s : State) : BitVec 1 := BitVec.ofBool s.fault

/-- The status output `FCODE` (R37). -/
def State.fcodeOut (s : State) : BitVec 2 := fcodeBits s.fcode

/-- The status output `BUSY` (R38). -/
def State.busyOut (s : State) : BitVec 1 := BitVec.ofBool s.busy

end Sys2Proof.Machine
end

