-- ==== Sys2Proof/Safety.lean ====
section
/-! DEFINITION. The terms in which claims about the block are stated: the constraints on its configuration, the
invariants of its state, what "the word of a value" means where a NaN's bits are free, and what two states have in
common. -/

namespace Sys2Proof.Machine

/-! ## Words and values -/

/-- `w` is `bits_of_f32(v)` (00_scope.md R17): the encoding of `v`, or any NaN pattern when `v` is a NaN. -/
def isBitsOf (w : Word) (v : F) : Bool :=
  if v.isNan then (f32OfBits w).isNan else decide (w = bitsOfF32 0 v)

/-- The same word, or two NaN patterns: no rule distinguishes one NaN from another (44_host_commands.md R194). -/
def sameUpToNan (v w : Word) : Bool := decide (v = w) || ((f32OfBits v).isNan && (f32OfBits w).isNan)

/-- Finite and greater than zero. -/
def F.isPositive (x : F) : Bool := x.isFinite && F.lt (.fin false 0) x

/-- Not a NaN, and `lo <= x <= hi`. -/
def F.within (lo x hi : F) : Bool := F.le lo x && F.le x hi

/-- `0.0` -/
def zeroF : F := f32OfBits 0x00000000

/-- `1.0` -/
def oneF : F := f32OfBits 0x3F800000

/-- `r` is the exact result `z` correctly rounded to binary32, to nearest, ties to even (R13): an infinity from half a
last place above the greatest finite value on, and otherwise a finite value that a word encodes, no other word's value
being nearer, with an even last bit where another one is as near. -/
def roundsTo (z : ℚ) (r : F) : Prop :=
  if 2 ^ 128 - 2 ^ 103 ≤ |z| then r = .inf (decide (z < 0))
  else (∃ w, r = f32OfBits w) ∧ r.isFinite = true ∧
    ∀ w, (f32OfBits w).isFinite = true →
      |r.toRat - z| ≤ |(f32OfBits w).toRat - z| ∧
      (|r.toRat - z| = |(f32OfBits w).toRat - z| → (f32OfBits w).toRat ≠ r.toRat →
        (bitsOfF32 0 r).getLsbD 0 = false)

/-- The sum of `c * 2^r` over the terms `(r, c)`. -/
noncomputable def termsReal (l : List (ℚ × ℚ)) : ℝ := (l.map fun t => (t.2 : ℝ) * (2 : ℝ) ^ (t.1 : ℝ)).sum

/-- The real number that a number of exact arithmetic is (R13). -/
noncomputable def PowerSum.toReal (a : PowerSum) : ℝ := termsReal a.terms

/-- `clamp` on binary32, as R19 writes it. -/
def clampF (x lo hi : F) : F := if F.le lo x then (if F.le x hi then x else hi) else lo

/-- `rate_of` on binary32, as R112 of 41_envelope.md writes it, of a time register's word. -/
def rateOfWord (c : Config) (w : Word) : F :=
  F.div oneF (F.mul
    (if F.le (f32OfBits c.tEps) (f32OfBits w) then f32OfBits w else f32OfBits c.tEps) (f32OfBits c.sampleRate))

/-! ## The configuration -/

/-- `rate_of` in exact arithmetic (41_envelope.md R112) of a time register's word. -/
def exactRateOfWord (c : Config) (w : Word) : ℚ :=
  1 / (max (realOfBits c.tEps) (realOfBits w) * realOfBits c.sampleRate)

/-- The constraints on the configuration record (00_scope.md R7, R9, R10, R11). In exact arithmetic the quotient of R10
is positive with `T_EPS` and `SAMPLE_RATE`. -/
def configValid (c : Config) : Bool :=
  decide (1 ≤ c.frameSize) && decide (c.frameSize ≤ 2 ^ 24)
    && (f32OfBits c.sampleRate).isPositive
    && (f32OfBits c.tEps).isPositive
    && (decide (c.num = .exact) || (F.div oneF (F.mul (f32OfBits c.tEps) (f32OfBits c.sampleRate))).isPositive)
    && F.within zeroF (f32OfBits c.resMax) oneF

/-! ## Invariants -/

/-- The invariants of the envelope state (10_state.md R36): (a) `EV` in `[0, 1]`, (c) `EV` is `+0.0` in Idle
(41_envelope.md R120), (d) `ER` finite and not negative, (e) `ET` in `[0, 1]`. (b) is the type of `STAGE`. They are
about the registers of the instance's number format. -/
def State.envInvariant (s : State) : Bool :=
  match s.cfg.num with
  | .binary32 =>
    F.within zeroF (f32OfBits s.env.ev) oneF
      && (decide (s.env.stage ≠ .idle) || decide (s.env.ev = 0))
      && (f32OfBits s.env.er).isFinite && F.le zeroF (f32OfBits s.env.er)
      && F.within zeroF (f32OfBits s.env.et) oneF
  | .exact =>
    decide (0 ≤ s.real.ev) && decide (s.real.ev ≤ 1)
      && (decide (s.env.stage ≠ .idle) || decide (s.real.ev = 0))
      && decide (0 ≤ s.real.er)
      && decide (0 ≤ s.real.et) && decide (s.real.et ≤ 1)

/-- All buffers, in either number format, are in canonical form and within `FRAME_SIZE` (20_memory.md R50). -/
def State.buffersWf (s : State) : Bool :=
  Memory.wf s.cfg.frameSize s.ibuf && Memory.wf s.cfg.frameSize s.obuf && Memory.wf s.cfg.frameSize s.real.obuf

/-- The filter stage registers and the output buffer of exact arithmetic hold numbers in canonical form. -/
def State.realsWf (s : State) : Bool :=
  s.real.ladder.s1.wf && s.real.ladder.s2.wf && s.real.ladder.s3.wf && s.real.ladder.s4.wf
    && s.real.obuf.all fun p => p.2.wf

/-- The invariants of the rest of the state: the buffers in canonical form and within `FRAME_SIZE` (20_memory.md R50),
the numbers of exact arithmetic in canonical form (log entry 13), `BUSY` 0 between steps (10_state.md R38), `FCODE`
non-zero exactly when `FAULT` is set (R37, 60_exceptions.md R211), and what has been received of a command is no whole command (30_encoding.md R80). -/
def State.controlInvariant (s : State) : Bool :=
  s.buffersWf && s.realsWf
    && !s.busy
    && decide (s.fault = true ↔ s.fcode ≠ .none)
    && decide (decode s.rx = .incomplete)

/-- The block accepts a command (44_host_commands.md R180, 10_state.md R38): not faulted, not busy, not being
reset. -/
def State.accepting (s : State) : Bool := !s.resetIn && !s.busy && !s.fault

/-! ## What two states have in common -/

/-- Every word of both buffers reads the same, in either number format. -/
def sameBuffers (s t : State) : Prop :=
  (∀ i, t.ibuf.read i = s.ibuf.read i) ∧ (∀ i, t.obuf.read i = s.obuf.read i) ∧
    ∀ i, t.real.obuf.read i = s.real.obuf.read i

/-- The filter stage registers are the same, in either number format. -/
def sameLadder (s t : State) : Prop := t.ladder = s.ladder ∧ t.real.ladder = s.real.ladder

/-- The envelope registers are the same, in either number format. -/
def sameEnvelope (s t : State) : Prop := t.env = s.env ∧ t.exactEnv = s.exactEnv

/-- The configuration, the fault latch, `BUSY`, the command port and the reset input are the same. -/
def sameControl (s t : State) : Prop :=
  t.cfg = s.cfg ∧ t.fault = s.fault ∧ t.fcode = s.fcode ∧ t.busy = s.busy ∧ t.rx = s.rx ∧ t.port = s.port
    ∧ t.resetIn = s.resetIn

/-- The parts that no setter writes are the same: all but the parameter registers. -/
def sameButParams (s t : State) : Prop :=
  sameLadder s t ∧ sameEnvelope s t ∧ sameBuffers s t ∧ sameControl s t ∧ t.resp = s.resp ∧ t.nanSeq = s.nanSeq

/-- Everything but the response channel is the same. -/
def sameButResponses (s t : State) : Prop :=
  t.params = s.params ∧ sameLadder s t ∧ sameEnvelope s t ∧ sameBuffers s t ∧ sameControl s t ∧ t.nanSeq = s.nanSeq

/-- Everything but the envelope registers (and the free values drawn) is the same. -/
def sameButEnv (s t : State) : Prop :=
  t.params = s.params ∧ sameLadder s t ∧ sameBuffers s t ∧ sameControl s t ∧ t.resp = s.resp

/-- What the number format of `s` does not compute in is the same: the reals where `NUM` is binary32, and otherwise the
words of the computed registers and the free values drawn. -/
def sameOtherFormat (s t : State) : Prop :=
  match s.cfg.num with
  | .binary32 => t.real = s.real
  | .exact =>
    t.ladder = s.ladder ∧ t.env.ev = s.env.ev ∧ t.env.et = s.env.et ∧ t.env.er = s.env.er ∧ t.obuf = s.obuf
      ∧ t.nanSeq = s.nanSeq

/-- The state with nothing held in the number format it does not compute in. -/
def State.withoutOtherFormat (s : State) : State :=
  match s.cfg.num with
  | .binary32 => { s with real := ⟨⟨.zero, .zero, .zero, .zero⟩, 0, 0, 0, []⟩ }
  | .exact => { s with ladder := ⟨0, 0, 0, 0⟩, env := ⟨s.env.stage, 0, 0, 0⟩, obuf := [], nanSeq := 0 }

/-- The registers that `PROC` reads (43_frame_processor.md R167) agree but for NaN patterns: the same `STAGE` and
`NOTE`, the same word or two NaNs in every other one, and the same reals. -/
def registersAgree (s t : State) : Prop :=
  s.env.stage = t.env.stage ∧ s.params.note = t.params.note
    ∧ sameUpToNan s.params.cutoff t.params.cutoff = true ∧ sameUpToNan s.params.resonance t.params.resonance = true
    ∧ sameUpToNan s.params.modvalue t.params.modvalue = true ∧ sameUpToNan s.params.keytrack t.params.keytrack = true
    ∧ sameUpToNan s.params.decay t.params.decay = true ∧ sameUpToNan s.params.sustain t.params.sustain = true
    ∧ sameUpToNan s.params.contour t.params.contour = true
    ∧ sameUpToNan s.env.ev t.env.ev = true ∧ sameUpToNan s.env.et t.env.et = true
    ∧ sameUpToNan s.env.er t.env.er = true
    ∧ sameUpToNan s.ladder.s1 t.ladder.s1 = true ∧ sameUpToNan s.ladder.s2 t.ladder.s2 = true
    ∧ sameUpToNan s.ladder.s3 t.ladder.s3 = true ∧ sameUpToNan s.ladder.s4 t.ladder.s4 = true
    ∧ s.real.ladder = t.real.ladder ∧ s.exactEnv = t.exactEnv

/-- Two states that `PROC` cannot tell apart but for NaN patterns (R167): the same configuration, registers that agree,
and the same word or two NaNs in every word of `IBUF`. -/
def agreeUpToNan (s t : State) : Prop :=
  s.cfg = t.cfg ∧ registersAgree s t
    ∧ ∀ i < s.cfg.frameSize, sameUpToNan (s.ibuf.read i) (t.ibuf.read i) = true

/-- The state without the registers that no rule reads (10_state.md R42): `BASECUT`, `ET`, and `ER` while in
Sustain or Idle, and in the number format that the instance does not compute in. -/
def State.withoutUnread (s : State) : State :=
  { s with
    params := { s.params with basecut := 0 }
    env := { s.env with
      et := 0
      er := if s.cfg.num = .exact ∨ s.env.stage = .sustain ∨ s.env.stage = .idle then 0 else s.env.er }
    real := { s.real with
      et := 0
      er := if s.cfg.num = .binary32 ∨ s.env.stage = .sustain ∨ s.env.stage = .idle then 0 else s.real.er } }

/-- The commands of a list executed one after the other, as far as each answers a next state. -/
def execAll : List Instr → State → Host.Outcome State Fault Refusal
  | [], s => .next s
  | i :: is, s =>
    match exec i s with
    | .next t => execAll is t
    | .fault r => .fault r
    | .refused r => .refused r

/-- The commands with which a host has one frame processed (44_host_commands.md R190, R191, 43_frame_processor.md
R160): it stores the input words, executes `PROC` and reads the output words. -/
def frameCommands (frame : List Word) : List Instr :=
  frame.zipIdx.map (fun (w, i) => .stin i w) ++ [.proc] ++ (List.range frame.length).map .ldout

/-- The commands with which a host has a signal processed in frames of `size` words. -/
def signalCommands (size : Nat) (signal : List Word) : List Instr :=
  (List.range (signal.length / size)).flatMap fun j => frameCommands ((signal.drop (j * size)).take size)

/-- The commands of a session: one after the other, the commands given before a stretch of the signal, and that stretch
in frames of `size` words. -/
def sessionCommands (size : Nat) (session : List (List Instr × List Word)) : List Instr :=
  session.flatMap fun stretch => stretch.1 ++ signalCommands size stretch.2

/-- The command is a setter, `TRIG` or `REL` (43_frame_processor.md R168). -/
def isControlCommand : Instr → Bool
  | .setcut _ => true
  | .setres _ => true
  | .setmod _ => true
  | .setenv _ _ _ _ _ => true
  | .setkey _ _ _ => true
  | .trig => true
  | .rel => true
  | .proc => false
  | .getcut => false
  | .getres => false
  | .stin _ _ => false
  | .ldout _ => false

end Sys2Proof.Machine
end

