-- ==== Sys2Proof/Certificates/Slice0/Obligations.lean ====
section
/-! DEFINITION. The statements for the provers. Each docstring names the rule of spec/ it formalises, or the rules it
is derived from. -/

open Sys2Proof Sys2Proof.Machine

/-! ## Encoding (30_encoding.md) -/

/-- R85: `decode(encode(c) ++ rest) = Cmd(c, rest)` for every well-formed command. -/
def Obligations.DecodeInvertsEncode : Prop :=
  ∀ (i : Instr) (rest : List Word), i.wellFormed = true → decode (encode i ++ rest) = .cmd i rest

/-- The other direction (from R72 to R76): whatever decodes to a command is that command's encoding, and the command
is well-formed. -/
def Obligations.EncodeInvertsDecode : Prop :=
  ∀ (ws : List Word) (i : Instr) (rest : List Word), decode ws = .cmd i rest →
    i.wellFormed = true ∧ ws = encode i ++ rest

/-- R78, R213 (with R211): which header words are illegal (all but twelve), and what executing one does: the fault
latch with cause `ILLEGAL_COMMAND`, so that `FAULT` reads 1 and `FCODE` reads 1, no operand word taken, nothing else
changed. -/
def Obligations.IllegalHeadersRaiseTheirFault : Prop :=
  ∀ (w : Word) (ops : List Word),
    ((∃ rest, decode (w :: ops) = .illegal rest) ↔
      w.extractLsb 31 8 ≠ 0 ∨ w.extractLsb 7 0 = 0 ∨ 0x0D ≤ (w.extractLsb 7 0).toNat) ∧
    ((∃ rest, decode (w :: ops) = .illegal rest) ↔ ¬ (1 ≤ w.toNat ∧ w.toNat ≤ 12)) ∧
    ∀ s : State, s.accepting = true → s.rx ++ s.port = w :: ops → ¬ (1 ≤ w.toNat ∧ w.toNat ≤ 12) →
      ∃ t, step s = .next t ∧ t = { s with rx := [], port := ops, fault := true, fcode := .illegalCommand } ∧
        t.faultOut = 1 ∧ t.fcodeOut = 1

/-- R75: the opcode alone gives the number of operand words; with fewer the command is incomplete, with as many it is
taken and the words after them are left; an operand word never makes a command illegal. -/
def Obligations.OperandWordsTaken : Prop :=
  decode [] = .incomplete ∧
  ∀ (w : Word) (ops : List Word),
    (∀ rest, decode (w :: ops) = .illegal rest → rest = ops ∧ ∀ ops', decode (w :: ops') = .illegal ops') ∧
    (1 ≤ w.toNat → w.toNat ≤ 12 →
      (ops.length < [1, 1, 1, 5, 3, 0, 0, 0, 0, 0, 2, 1].getD (w.toNat - 1) 0 → decode (w :: ops) = .incomplete) ∧
      ([1, 1, 1, 5, 3, 0, 0, 0, 0, 0, 2, 1].getD (w.toNat - 1) 0 ≤ ops.length →
        ∃ i, decode (w :: ops) = .cmd i (ops.drop ([1, 1, 1, 5, 3, 0, 0, 0, 0, 0, 2, 1].getD (w.toNat - 1) 0))))

/-- R83: the worked encodings, from the assembler's text to the words, each of which decodes to its command, and the
illegal words. -/
def Obligations.WorkedEncodings : Prop :=
  assembleWords "SETCUT 0.5".toList = some [0x00000001, 0x3F000000] ∧
  assembleWords "SETENV 0.5, 0.5, 0.5, 0.5, 0.0".toList =
    some [0x00000004, 0x3F000000, 0x3F000000, 0x3F000000, 0x3F000000, 0x00000000] ∧
  assembleWords "SETKEY 0.5, 1.0, 72".toList = some [0x00000005, 0x3F000000, 0x3F800000, 0x00000048] ∧
  assembleWords "SETKEY 0.5, 1.0, -5".toList = some [0x00000005, 0x3F000000, 0x3F800000, 0xFFFFFFFB] ∧
  assembleWords "STIN 0, 1.0".toList = some [0x0000000B, 0x00000000, 0x3F800000] ∧
  assembleWords "LDOUT 7".toList = some [0x0000000C, 0x00000007] ∧
  assembleWords "TRIG".toList = some [0x00000006] ∧ assembleWords "REL".toList = some [0x00000007] ∧
  assembleWords "PROC".toList = some [0x00000008] ∧ assembleWords "GETCUT".toList = some [0x00000009] ∧
  assembleWords "GETRES".toList = some [0x0000000A] ∧
  decode [0x00000001, 0x3F000000] = .cmd (.setcut 0x3F000000) [] ∧
  decode [0x00000004, 0x3F000000, 0x3F000000, 0x3F000000, 0x3F000000, 0x00000000] =
    .cmd (.setenv 0x3F000000 0x3F000000 0x3F000000 0x3F000000 0x00000000) [] ∧
  decode [0x00000005, 0x3F000000, 0x3F800000, 0x00000048] = .cmd (.setkey 0x3F000000 0x3F800000 72) [] ∧
  decode [0x00000005, 0x3F000000, 0x3F800000, 0xFFFFFFFB] = .cmd (.setkey 0x3F000000 0x3F800000 (-5)) [] ∧
  decode [0x0000000B, 0x00000000, 0x3F800000] = .cmd (.stin 0 0x3F800000) [] ∧
  decode [0x0000000C, 0x00000007] = .cmd (.ldout 7) [] ∧
  decode [0x00000006] = .cmd .trig [] ∧ decode [0x00000007] = .cmd .rel [] ∧ decode [0x00000008] = .cmd .proc [] ∧
  decode [0x00000009] = .cmd .getcut [] ∧ decode [0x0000000A] = .cmd .getres [] ∧
  decode [0x00000108] = .illegal [] ∧ decode [0x00000000] = .illegal [] ∧ decode [0x0000000D] = .illegal []

/-- The decoder on the opcode table's bits, and the state in which the next step runs them (from R70 to R76, log entry
4): for every well-formed command, its words as one number, the first word least significant. -/
def Obligations.TableBitsRunTheirCommand : Prop :=
  ∀ i : Instr, i.wellFormed = true →
    decodeTableWord (32 * (encode i).length) ((encode i).foldr (fun w n => w.toNat + 2 ^ 32 * n) 0) = some i ∧
    ∀ s : State,
      step (s.withFetchWord (32 * (encode i).length) ((encode i).foldr (fun w n => w.toNat + 2 ^ 32 * n) 0)) =
        exec i { s with rx := [], port := [], resetIn := false, busy := false, fault := false }

/-! ## The command cycle (44_host_commands.md R180) -/

/-- The accepting half of R180 (derived): when the block accepts commands and the words received and offered start
with a whole command, the step executes that command, and the words after it are what is still offered. -/
def Obligations.StepRunsDecodedCommand : Prop :=
  ∀ (s : State) (i : Instr) (rest : List Word), s.accepting = true → decode (s.rx ++ s.port) = .cmd i rest →
    step s = exec i { s with rx := [], port := rest }

/-- R80 (derived): an incomplete command is not a fault: nothing changes but where its words are, and whatever words
come next are read on from them. That one step takes all the words offered from the port and holds them is read from
the spec by inference (DEDUCED, log entry 9). -/
def Obligations.IncompleteCommandWaits : Prop :=
  ∀ s : State, s.accepting = true → decode (s.rx ++ s.port) = .incomplete →
    step s = .next { s with rx := s.rx ++ s.port, port := [] } ∧
    ∀ more : List Word, ∀ t, step s = .next t →
      decode (t.rx ++ (t.port ++ more)) = decode (s.rx ++ (s.port ++ more))

/-! ## The setters and the read-back commands (44_host_commands.md R181 to R189) -/

/-- R181 to R185, R189: each setter answers a next state, in which exactly the registers its rule names hold its
operands bit for bit; no operand value is refused and nothing else changes. -/
def Obligations.SettersStoreRawOperands : Prop :=
  ∀ s : State,
    (∀ v, encode (.setcut v) = [0x01, v] ∧
      ∃ t, exec (.setcut v) s = .next t ∧ t.params = { s.params with cutoff := v } ∧ sameButParams s t) ∧
    (∀ v, encode (.setres v) = [0x02, v] ∧
      ∃ t, exec (.setres v) s = .next t ∧ t.params = { s.params with resonance := v } ∧ sameButParams s t) ∧
    (∀ v, encode (.setmod v) = [0x03, v] ∧
      ∃ t, exec (.setmod v) s = .next t ∧ t.params = { s.params with modvalue := v } ∧ sameButParams s t) ∧
    (∀ a d u r c, encode (.setenv a d u r c) = [0x04, a, d, u, r, c] ∧
      ∃ t, exec (.setenv a d u r c) s = .next t ∧
        t.params = { s.params with attack := a, decay := d, sustain := u, release := r, contour := c } ∧
        sameButParams s t) ∧
    (∀ b k n, encode (.setkey b k n) = [0x05, b, k, BitVec.ofInt 32 n] ∧
      ∃ t, exec (.setkey b k n) s = .next t ∧
        t.params = { s.params with basecut := b, keytrack := k, note := BitVec.ofInt 32 n } ∧
        (fitsI32 n = true → t.params.note.toInt = n) ∧ sameButParams s t)

/-- R186, R187: each getter answers a next state with one response word more, the raw register as the last setter left
it, and nothing else changed. -/
def Obligations.GettersRespondRawRegisters : Prop :=
  encode .getcut = [0x09] ∧ encode .getres = [0x0A] ∧
  ∀ s : State,
    (∃ t, exec .getcut s = .next t ∧ t.resp = s.resp ++ [s.params.cutoff] ∧ sameButResponses s t) ∧
    (∃ t, exec .getres s = .next t ∧ t.resp = s.resp ++ [s.params.resonance] ∧ sameButResponses s t) ∧
    (∀ v, ∃ t, execAll [.setcut v, .getcut] s = .next t ∧ t.resp = s.resp ++ [v]) ∧
    ∀ v, ∃ t, execAll [.setres v, .getres] s = .next t ∧ t.resp = s.resp ++ [v]

/-- R77: `GETCUT`, `GETRES` and `LDOUT` each produce exactly one word when they execute without a fault, after the
words produced before; no other command produces one. -/
def Obligations.ResponsesOnlyFromReadCommands : Prop :=
  ∀ (i : Instr) (s t : State), exec i s = .next t →
    ((i = .getcut ∨ i = .getres ∨ ∃ k, i = .ldout k ∧ k < s.cfg.frameSize) → ∃ w, t.resp = s.resp ++ [w]) ∧
    (¬ (i = .getcut ∨ i = .getres ∨ ∃ k, i = .ldout k ∧ k < s.cfg.frameSize) → t.resp = s.resp)

/-- R236 (derived): after one each of the five setters, in any order, all eleven parameter registers hold host-chosen
values, whatever they held before; nothing else has changed. -/
def Obligations.BootSequenceFixesParameters : Prop :=
  ∀ (cut res md a d u r c b k : Word) (n : Int) (l : List Instr),
    l.Perm [.setcut cut, .setres res, .setmod md, .setenv a d u r c, .setkey b k n] →
    ∀ s : State, ∃ t, execAll l s = .next t ∧
      t.params = ⟨cut, res, md, k, BitVec.ofInt 32 n, b, a, d, u, r, c⟩ ∧ sameButParams s t

/-! ## The envelope (41_envelope.md) -/

/-- R113: `TRIG` from every stage answers a next state, with what it writes in binary32. -/
def Obligations.TrigRestartsTheAttack : Prop :=
  encode .trig = [0x06] ∧
  ∀ s : State, ∃ t, exec .trig s = .next t ∧ t.env.stage = .attack ∧ sameButEnv s t ∧ sameOtherFormat s t ∧
    (s.cfg.num = .binary32 →
      t.env.ev = 0x00000000 ∧ t.env.et = 0x3F800000 ∧
      isBitsOf t.env.er (rateOfWord s.cfg s.params.attack) = true)

/-- R114: `REL` from every stage answers a next state, with what it writes in binary32; `EV` is not written. -/
def Obligations.RelEntersRelease : Prop :=
  encode .rel = [0x07] ∧
  ∀ s : State, ∃ t, exec .rel s = .next t ∧ t.env.stage = .release ∧ t.env.ev = s.env.ev ∧ t.real.ev = s.real.ev ∧
    sameButEnv s t ∧ sameOtherFormat s t ∧
    (s.cfg.num = .binary32 →
      t.env.et = 0x00000000 ∧ isBitsOf t.env.er (rateOfWord s.cfg s.params.release) = true)

/-- R113, R114 in exact arithmetic (derived: the reals as a format are R13's, their words the model's choice, log
entries 13, 21 and 23): `TRIG` and `REL` from every stage. -/
def Obligations.ExactTrigAndRel : Prop :=
  ∀ s : State, s.cfg.num = .exact → configValid s.cfg = true →
    (∃ t, exec .trig s = .next t ∧ t.exactEnv = ⟨.attack, 0, 1, exactRateOfWord s.cfg s.params.attack⟩) ∧
    ∃ t, exec .rel s = .next t ∧ t.exactEnv = ⟨.release, s.real.ev, 0, exactRateOfWord s.cfg s.params.release⟩

/-- R115 to R120: the tick in each of the five stages, in binary32; in either format it writes the envelope registers
of that format only. -/
def Obligations.TickFollowsItsStage : Prop :=
  ∀ s : State,
    sameButEnv s s.tick ∧ sameOtherFormat s s.tick ∧
    (s.cfg.num = .binary32 →
      (s.env.stage = .attack →
        if F.le oneF (F.add (f32OfBits s.env.ev) (f32OfBits s.env.er)) then
          s.tick.env.stage = .decay ∧ s.tick.env.ev = 0x3F800000 ∧
            isBitsOf s.tick.env.et (clampF (f32OfBits s.params.sustain) zeroF oneF) = true ∧
            isBitsOf s.tick.env.er (rateOfWord s.cfg s.params.decay) = true
        else
          s.tick.env.stage = .attack ∧
            isBitsOf s.tick.env.ev (F.add (f32OfBits s.env.ev) (f32OfBits s.env.er)) = true ∧
            s.tick.env.et = s.env.et ∧ s.tick.env.er = s.env.er) ∧
      (s.env.stage = .decay →
        s.tick.env.et = s.env.et ∧ s.tick.env.er = s.env.er ∧
        if F.le (F.sub (f32OfBits s.env.ev) (f32OfBits s.env.er)) (clampF (f32OfBits s.params.sustain) zeroF oneF) then
          s.tick.env.stage = .sustain ∧
            isBitsOf s.tick.env.ev (clampF (f32OfBits s.params.sustain) zeroF oneF) = true
        else
          s.tick.env.stage = .decay ∧
            isBitsOf s.tick.env.ev (F.sub (f32OfBits s.env.ev) (f32OfBits s.env.er)) = true) ∧
      (s.env.stage = .sustain → s.tick.env = s.env) ∧
      (s.env.stage = .release →
        s.tick.env.et = s.env.et ∧ s.tick.env.er = s.env.er ∧
        if F.le (F.sub (f32OfBits s.env.ev) (f32OfBits s.env.er)) zeroF then
          s.tick.env.stage = .idle ∧ s.tick.env.ev = 0x00000000
        else
          s.tick.env.stage = .release ∧
            isBitsOf s.tick.env.ev (F.sub (f32OfBits s.env.ev) (f32OfBits s.env.er)) = true) ∧
      (s.env.stage = .idle → s.tick.env = s.env))

/-- R115 to R120 in exact arithmetic (derived, the model's choice of reals and words: log entries 13, 21 and 23): the
tick in each of the five stages, and a `PROC` as `FRAME_SIZE` of them (R121). -/
def Obligations.ExactTickFollowsItsStage : Prop :=
  ∀ s : State, s.cfg.num = .exact → configValid s.cfg = true →
    (s.env.stage = .attack → s.tick.exactEnv =
      if 1 ≤ s.real.ev + s.real.er then
        ⟨.decay, 1, max 0 (min 1 (realOfBits s.params.sustain)), exactRateOfWord s.cfg s.params.decay⟩
      else ⟨.attack, s.real.ev + s.real.er, s.real.et, s.real.er⟩) ∧
    (s.env.stage = .decay → s.tick.exactEnv =
      if s.real.ev - s.real.er ≤ max 0 (min 1 (realOfBits s.params.sustain)) then
        ⟨.sustain, max 0 (min 1 (realOfBits s.params.sustain)), s.real.et, s.real.er⟩
      else ⟨.decay, s.real.ev - s.real.er, s.real.et, s.real.er⟩) ∧
    (s.env.stage = .sustain → s.tick.exactEnv = s.exactEnv) ∧
    (s.env.stage = .release → s.tick.exactEnv =
      if s.real.ev - s.real.er ≤ 0 then ⟨.idle, 0, s.real.et, s.real.er⟩
      else ⟨.release, s.real.ev - s.real.er, s.real.et, s.real.er⟩) ∧
    (s.env.stage = .idle → s.tick.exactEnv = s.exactEnv) ∧
    ∀ t, exec .proc s = .next t →
      t.exactEnv = (envTick exactNum s.exactConsts s.exactParams)^[s.cfg.frameSize] s.exactEnv

/-- The last sentences of R112 (derived; R112 leaves room for a quotient that underflows to zero, which binary32's
subnormals exclude), in binary32: under the constraint of R10 the rate of every time is finite, not a NaN and not
negative, and above zero unless the product overflowed. -/
def Obligations.RatesAreFinite : Prop :=
  ∀ (c : Config) (w : Word), c.num = .binary32 → configValid c = true →
    (rateOfWord c w).isFinite = true ∧ F.le zeroF (rateOfWord c w) = true ∧
    (F.lt zeroF (rateOfWord c w) = true ∨
      F.mul (if F.le (f32OfBits c.tEps) (f32OfBits w) then f32OfBits w else f32OfBits c.tEps)
        (f32OfBits c.sampleRate) = .inf false)

/-- R36 for every command (derived: the other half is the next statement): the invariants of the envelope state are
kept by every step, in either number format, given the constraints on the configuration. -/
def Obligations.EnvelopeInvariantKept : Prop :=
  ∀ s t : State, configValid s.cfg = true → s.envInvariant = true → step s = .next t → t.envInvariant = true

/-- R36 for reset (derived): the invariants of the envelope state hold after reset, for every configuration. -/
def Obligations.EnvelopeInvariantAtReset : Prop :=
  ∀ c : Config, (State.resetOf c).envInvariant = true

/-- R122 (derived): the tick never lowers `EV` in Attack and never raises it in Release, nor in Decay unless the
sustain level has been raised above `EV`; in binary32 and in exact arithmetic. -/
def Obligations.EnvelopeIsMonotone : Prop :=
  ∀ s : State, s.envInvariant = true →
    (s.cfg.num = .binary32 →
      (s.env.stage = .attack → F.le (f32OfBits s.env.ev) (f32OfBits s.tick.env.ev) = true) ∧
      (s.env.stage = .release → F.le (f32OfBits s.tick.env.ev) (f32OfBits s.env.ev) = true) ∧
      (s.env.stage = .decay → F.le (clampF (f32OfBits s.params.sustain) zeroF oneF) (f32OfBits s.env.ev) = true →
        F.le (f32OfBits s.tick.env.ev) (f32OfBits s.env.ev) = true)) ∧
    (s.cfg.num = .exact →
      (s.env.stage = .attack → s.real.ev ≤ s.tick.real.ev) ∧
      (s.env.stage = .release → s.tick.real.ev ≤ s.real.ev) ∧
      (s.env.stage = .decay → max 0 (min 1 (realOfBits s.params.sustain)) ≤ s.real.ev →
        s.tick.real.ev ≤ s.real.ev))

/-- R110, R111 (derived): how far `STAGE` can move within one frame; from Idle and Sustain only `TRIG` and `REL` lead
away, and only Release leads to Idle. -/
def Obligations.StageOrderWithinFrame : Prop :=
  ∀ s t : State, exec .proc s = .next t →
    (s.env.stage = .idle → t.env.stage = .idle) ∧
    (s.env.stage = .attack → t.env.stage = .attack ∨ t.env.stage = .decay ∨ t.env.stage = .sustain) ∧
    (s.env.stage = .decay → t.env.stage = .decay ∨ t.env.stage = .sustain) ∧
    (s.env.stage = .sustain → t.env.stage = .sustain) ∧
    (s.env.stage = .release → t.env.stage = .release ∨ t.env.stage = .idle)

/-- R121: a `PROC` performs exactly `FRAME_SIZE` ticks, whatever the filter does (in binary32), and no command but
`TRIG` and `REL` changes the envelope otherwise. -/
def Obligations.TicksOncePerSample : Prop :=
  (∀ s t : State, s.cfg.num = .binary32 → configValid s.cfg = true → s.envInvariant = true →
    exec .proc s = .next t →
    t.envValues = (envTick s.f32Num s.consts s.paramValues)^[s.cfg.frameSize] s.envValues) ∧
  ∀ (i : Instr) (s t : State), i ≠ .trig → i ≠ .rel → i ≠ .proc → exec i s = .next t → sameEnvelope s t

/-- R123 (derived): the lengths of the stages in exact arithmetic. R123 is over the reals; that they are the rationals
here is the model's choice (`Num.exact`, DESIGN CHOICE, log entry 13). With `N` the product of the clamped time and
the sample rate, the attack rises by `1/N` a tick and ends at tick `ceil(N)`; the decay lasts `max(1, ceil((1 - sl) *
N))` ticks; a release from `v` lasts `ceil(v * N)` ticks, one when `v` is 0. -/
def Obligations.ExactStageLengths : Prop :=
  ∀ (x : ℚ → ℚ) (c : Consts ℚ) (p : Params ℚ), 0 < c.tEps → 0 < c.sampleRate →
    (∀ (N : ℚ) (k : Nat), N = max c.tEps p.attack * c.sampleRate →
      ((k : ℚ) < N →
        (envTick (Num.exact x) c p)^[k] (envTrigger (Num.exact x) c p) = ⟨.attack, k / N, 1, 1 / N⟩) ∧
      (k = ⌈N⌉₊ →
        ((envTick (Num.exact x) c p)^[k] (envTrigger (Num.exact x) c p)).stage = .decay ∧
        ((envTick (Num.exact x) c p)^[k] (envTrigger (Num.exact x) c p)).ev = 1)) ∧
    (∀ (N sl et : ℚ) (k : Nat), N = max c.tEps p.decay * c.sampleRate → sl = max 0 (min 1 p.sustain) →
      (k < max 1 ⌈(1 - sl) * N⌉₊ →
        (envTick (Num.exact x) c p)^[k] ⟨.decay, 1, et, 1 / N⟩ = ⟨.decay, 1 - k / N, et, 1 / N⟩) ∧
      (k = max 1 ⌈(1 - sl) * N⌉₊ →
        (envTick (Num.exact x) c p)^[k] ⟨.decay, 1, et, 1 / N⟩ = ⟨.sustain, sl, et, 1 / N⟩)) ∧
    (∀ (N v et : ℚ) (k : Nat), N = max c.tEps p.release * c.sampleRate → 0 ≤ v →
      (k < max 1 ⌈v * N⌉₊ →
        (envTick (Num.exact x) c p)^[k] ⟨.release, v, et, 1 / N⟩ = ⟨.release, v - k / N, et, 1 / N⟩) ∧
      (k = max 1 ⌈v * N⌉₊ →
        (envTick (Num.exact x) c p)^[k] ⟨.release, v, et, 1 / N⟩ = ⟨.idle, 0, et, 1 / N⟩))

/-! ## The compositor (42_cutoff_compositor.md) -/

/-- R147: for every content of the registers the effective cutoff is in `[0.001, 0.999]` and not a NaN, in binary32.
-/
def Obligations.EffectiveCutoffInRange : Prop :=
  ∀ s : State,
    F.within (f32OfBits 0x3A83126F) (compose s.f32Num s.paramValues s.envValues) (f32OfBits 0x3F7FBE77) = true ∧
    (compose s.f32Num s.paramValues s.envValues).isFinite = true

/-- R147, R163 in exact arithmetic (derived, log entries 13 and 21): for every content of the registers the effective
cutoff is in `[1/1000, 999/1000]`, and with a ceiling as R11 asks the resonance operand is in `[0, RES_MAX]`. -/
def Obligations.ExactFilterOperandsInRange : Prop :=
  ∀ s : State,
    1 / 1000 ≤ (compose s.powerNum s.powerParams s.powerEnv).toReal ∧
    (compose s.powerNum s.powerParams s.powerEnv).toReal ≤ 999 / 1000 ∧
    (configValid s.cfg = true →
      0 ≤ (resonanceOperand s.powerNum s.powerConsts s.powerParams).toReal ∧
      (resonanceOperand s.powerNum s.powerConsts s.powerParams).toReal ≤ realOfBits s.cfg.resMax)

/-- R150 (derived; how words and reals correspond is log entry 21): the ranges of the compositor's factors and of the
unclamped product, in exact arithmetic, with the real `2^x` for `EXP2`; and the two words of R150, with the bounds they
give the product in binary32, where it is finite. -/
def Obligations.CompositorRanges : Prop :=
  (∀ s : State, s.cfg.exp2 = .nearest →
    (∃ x : ℚ, -5 ≤ x ∧ x ≤ 67 / 12 ∧
      s.powerNum.mul (noteOffset s.powerNum s.params.note)
        (clamp s.powerNum s.powerParams.keytrack s.powerNum.zero s.powerNum.one) = .ofRat x ∧
      (s.powerNum.exp2 (.ofRat x)).toReal = (2 : ℝ) ^ (x : ℝ) ∧
      1 / 32 ≤ (s.powerNum.exp2 (.ofRat x)).toReal ∧ (s.powerNum.exp2 (.ofRat x)).toReal ≤ 47.95) ∧
    (∃ m : ℚ, 1 / 2 ≤ m ∧ m ≤ 3 / 2 ∧ ∀ e2, composeMod s.powerNum s.powerParams e2 = e2.mul (.ofRat m)) ∧
    (0 ≤ s.real.ev → s.real.ev ≤ 1 →
      (∃ v : ℚ, 0 ≤ v ∧ v ≤ 2 ∧ (s.env.stage ≠ .idle →
        ∀ e1, composeContour s.powerNum s.powerParams s.powerEnv e1 = e1.mul (.ofRat v))) ∧
      (0 ≤ realOfBits s.params.cutoff → realOfBits s.params.cutoff ≤ 1 →
        ∀ e3, e3 = (composeMod s.powerNum s.powerParams (composeContour s.powerNum s.powerParams s.powerEnv
            (composeKey s.powerNum s.powerParams s.powerParams.cutoff))).toReal →
          0 ≤ e3 ∧ e3 ≤ 143.9))) ∧
  exp2Value .nearest (f32OfBits 0xC0A00000) = f32OfBits 0x3D000000 ∧
  exp2Value .nearest (f32OfBits 0x40B2AAAB) = f32OfBits 0x423FC888 ∧
  ∀ s : State, s.cfg.exp2 = .nearest →
    F.within zeroF (f32OfBits s.env.ev) oneF = true → F.within zeroF (f32OfBits s.params.cutoff) oneF = true →
    ∀ e3, e3 = composeMod s.f32Num s.paramValues (composeContour s.f32Num s.paramValues s.envValues
        (composeKey s.f32Num s.paramValues s.paramValues.cutoff)) →
      e3.isFinite = true ∧ 0 ≤ e3.toRat ∧ e3.toRat ≤ 143.9

/-- R152: the identity cases. With `CUTOFF = 0.5`, key tracking off and the envelope idle the effective cutoff is
`0.5` at `MODVALUE = 0.0` and `0.75` at `1.0`; at note 60 the exponent is `+0.0` and the key-tracking factor `1.0`. -/
def Obligations.CompositorIdentities : Prop :=
  ∀ s : State,
    (s.params.cutoff = 0x3F000000 → F.lt zeroF (f32OfBits s.params.keytrack) = false → s.env.stage = .idle →
      (s.params.modvalue = 0x00000000 → compose s.f32Num s.paramValues s.envValues = f32OfBits 0x3F000000) ∧
      (s.params.modvalue = 0x3F800000 → compose s.f32Num s.paramValues s.envValues = f32OfBits 0x3F400000)) ∧
    (s.params.note = 60 → F.lt zeroF (f32OfBits s.params.keytrack) = true →
      F.mul (noteOffset s.f32Num s.params.note) (clampF (f32OfBits s.params.keytrack) zeroF oneF) = zeroF ∧
      exp2Value s.cfg.exp2 zeroF = oneF)

/-- R143 (derived): with `KEYTRACK` at or above 1, a note `j` octaves from note 60 multiplies the cutoff by exactly
`2^j`, whichever `EXP2` the instance has; a conversion from an integer is exact up to `2^24`. -/
def Obligations.KeyTrackingByOctaves : Prop :=
  (∀ (s : State) (j : Int) (e0 : F), -5 ≤ j → j ≤ 5 → s.params.note = BitVec.ofInt 32 (60 + 12 * j) →
    F.le oneF (f32OfBits s.params.keytrack) = true →
    composeKey s.f32Num s.paramValues e0 = F.mul e0 (.fin false (2 ^ (149 + j).toNat))) ∧
  ∀ n : Int, n.natAbs ≤ 2 ^ 24 → F.ofInt n = .fin (decide (n < 0)) (n.natAbs * 2 ^ 149)

/-- R149 (derived): `KEYTRACK`, `NOTE`, `CONTOUR` and `MODVALUE` act as their values clamped to the ranges of the
rule, a NaN as the lower bound. -/
def Obligations.OperandsActClamped : Prop :=
  ∀ (s : State) (e : Env F),
    compose s.f32Num s.paramValues e =
      compose s.f32Num
        { s.paramValues with
          keytrack := clampF (f32OfBits s.params.keytrack) zeroF oneF
          note := BitVec.ofInt 32 (max 0 (min 127 s.params.note.toInt))
          contour := clampF (f32OfBits s.params.contour) (f32OfBits 0xBF800000) oneF
          modvalue := clampF (f32OfBits s.params.modvalue) (f32OfBits 0xBF800000) oneF } e

/-- The four named properties of R14 (derived; R14's sentence on the default's rounding is log entry 6, and the
properties of another choice are those its form was given, log entry 6): the properties of `EXP2`, for the default and
for every other choice. -/
def Obligations.Exp2NamedProperties : Prop :=
  ∀ c : Exp2Choice,
    (∀ neg, exp2Value c (.fin neg 0) = oneF) ∧
    (∀ (k : Int) (x : F), -126 ≤ k → k ≤ 127 → x.isFinite = true → x.toRat = k →
      (exp2Value c x).isFinite = true ∧ (exp2Value c x).toRat = 2 ^ k) ∧
    (∀ x : F, x.isFinite = true → F.lt zeroF (exp2Value c x) = true ∨ exp2Value c x = zeroF) ∧
    ∀ x y : F, F.le x y = true → F.le (exp2Value c x) (exp2Value c y) = true

/-- R14 in exact arithmetic (derived; that `EXP2` is evaluated at rationals only, and what values another choice can
have, is log entry 22): the four named properties at the rationals, and the default is the real power of two. -/
def Obligations.ExactExp2Properties : Prop :=
  ∀ c : Exp2Choice,
    (exp2Power c 0).toReal = 1 ∧
    (∀ k : Int, -126 ≤ k → k ≤ 127 → (exp2Power c k).toReal = 2 ^ k) ∧
    (∀ x : ℚ, 0 ≤ (exp2Power c x).toReal) ∧
    (∀ x y : ℚ, x ≤ y → (exp2Power c x).toReal ≤ (exp2Power c y).toReal) ∧
    (c = .nearest → ∀ x : ℚ, (exp2Power c x).toReal = (2 : ℝ) ^ (x : ℝ))

/-! ## The number format (00_scope.md R13, R15) -/

/-- R13 (derived): each of the four operations on finite operands is the exact result correctly rounded once, the
comparisons are those of the values, false with a NaN, and an operation on a NaN gives a NaN (R100 of
40_ladder_filter.md, R194 of 44_host_commands.md). The threshold of overflow, half a last place above the greatest
finite value, is IEEE 754's, which R13 names and does not restate (PRESUMED, log entry 14). -/
def Obligations.ArithmeticIsCorrectlyRounded : Prop :=
  ∀ v w : Word,
    ((f32OfBits v).isFinite = true → (f32OfBits w).isFinite = true →
      roundsTo ((f32OfBits v).toRat + (f32OfBits w).toRat) (F.add (f32OfBits v) (f32OfBits w)) ∧
      roundsTo ((f32OfBits v).toRat - (f32OfBits w).toRat) (F.sub (f32OfBits v) (f32OfBits w)) ∧
      roundsTo ((f32OfBits v).toRat * (f32OfBits w).toRat) (F.mul (f32OfBits v) (f32OfBits w)) ∧
      ((f32OfBits w).toRat ≠ 0 →
        roundsTo ((f32OfBits v).toRat / (f32OfBits w).toRat) (F.div (f32OfBits v) (f32OfBits w))) ∧
      (F.le (f32OfBits v) (f32OfBits w) = true ↔ (f32OfBits v).toRat ≤ (f32OfBits w).toRat) ∧
      (F.lt (f32OfBits v) (f32OfBits w) = true ↔ (f32OfBits v).toRat < (f32OfBits w).toRat)) ∧
    ((f32OfBits v).isNan = true ∨ (f32OfBits w).isNan = true →
      F.le (f32OfBits v) (f32OfBits w) = false ∧ F.lt (f32OfBits v) (f32OfBits w) = false ∧
      (F.add (f32OfBits v) (f32OfBits w)).isNan = true ∧ (F.sub (f32OfBits v) (f32OfBits w)).isNan = true ∧
      (F.mul (f32OfBits v) (f32OfBits w)).isNan = true ∧ (F.div (f32OfBits v) (f32OfBits w)).isNan = true)

/-- The end of R13 (derived, operation by operation; which reals exact arithmetic has is log entry 13): the two
formats agree where the exact result is representable, on every comparison, on whole numbers up to `2^24`, on the
powers of two at the whole numbers from -126 to 127, and on the literals that a word encodes; and the operations of
exact arithmetic are those of the real numbers, its comparisons those of the reals the rules compare. -/
def Obligations.FormatsAgreeWhenRepresentable : Prop :=
  (∀ (c : Exp2Choice) (v w u : Word),
    (f32OfBits v).isFinite = true → (f32OfBits w).isFinite = true → (f32OfBits u).isFinite = true →
    let N := Num.binary32 c
    let X := Num.power c
    (X.add (.ofRat (f32OfBits v).toRat) (.ofRat (f32OfBits w).toRat) = .ofRat (f32OfBits u).toRat →
      (N.add (f32OfBits v) (f32OfBits w)).isFinite = true ∧
      (N.add (f32OfBits v) (f32OfBits w)).toRat = (f32OfBits u).toRat) ∧
    (X.sub (.ofRat (f32OfBits v).toRat) (.ofRat (f32OfBits w).toRat) = .ofRat (f32OfBits u).toRat →
      (N.sub (f32OfBits v) (f32OfBits w)).isFinite = true ∧
      (N.sub (f32OfBits v) (f32OfBits w)).toRat = (f32OfBits u).toRat) ∧
    (X.mul (.ofRat (f32OfBits v).toRat) (.ofRat (f32OfBits w).toRat) = .ofRat (f32OfBits u).toRat →
      (N.mul (f32OfBits v) (f32OfBits w)).isFinite = true ∧
      (N.mul (f32OfBits v) (f32OfBits w)).toRat = (f32OfBits u).toRat) ∧
    ((f32OfBits w).toRat ≠ 0 →
      X.div (.ofRat (f32OfBits v).toRat) (.ofRat (f32OfBits w).toRat) = .ofRat (f32OfBits u).toRat →
      (N.div (f32OfBits v) (f32OfBits w)).isFinite = true ∧
      (N.div (f32OfBits v) (f32OfBits w)).toRat = (f32OfBits u).toRat) ∧
    N.le (f32OfBits v) (f32OfBits w) = X.le (.ofRat (f32OfBits v).toRat) (.ofRat (f32OfBits w).toRat) ∧
    N.lt (f32OfBits v) (f32OfBits w) = X.lt (.ofRat (f32OfBits v).toRat) (.ofRat (f32OfBits w).toRat) ∧
    (∀ n : Int, n.natAbs ≤ 2 ^ 24 → (N.ofInt n).isFinite = true ∧ X.ofInt n = .ofRat (N.ofInt n).toRat) ∧
    (∀ k : Int, -126 ≤ k → k ≤ 127 → (f32OfBits u).toRat = k →
      (N.exp2 (f32OfBits u)).isFinite = true ∧ (N.exp2 (f32OfBits u)).toRat = 2 ^ k ∧
      (X.exp2 (.ofRat k)).toReal = 2 ^ k) ∧
    X.zero = .ofRat N.zero.toRat ∧ X.one = .ofRat N.one.toRat ∧ X.negOne = .ofRat N.negOne.toRat ∧
    X.half = .ofRat N.half.toRat ∧ X.four = .ofRat N.four.toRat ∧ X.twelve = .ofRat N.twelve.toRat) ∧
  ∀ (c : Exp2Choice) (a b : PowerSum) (q : ℚ),
    ((Num.power c).add a b).toReal = a.toReal + b.toReal ∧ ((Num.power c).sub a b).toReal = a.toReal - b.toReal ∧
    ((Num.power c).mul a b).toReal = a.toReal * b.toReal ∧
    (q ≠ 0 → ((Num.power c).div a (.ofRat q)).toReal = a.toReal / q) ∧
    (a.single ≠ none → b.single ≠ none →
      ((Num.power c).le a b = true ↔ a.toReal ≤ b.toReal) ∧ ((Num.power c).lt a b = true ↔ a.toReal < b.toReal))

/-- R15: each decimal literal denotes the `F` value nearest to it, with the bit pattern of the rule, and the numeric
path uses it. -/
def Obligations.LiteralBitPatterns : Prop :=
  decimalWord false 116 (-2) = 0x3F947AE1 ∧ decimalWord false 15 (-2) = 0x3E19999A ∧
  decimalWord false 40 (-1) = 0x40800000 ∧ decimalWord false 5 (-1) = 0x3F000000 ∧
  decimalWord false 1 (-3) = 0x3A83126F ∧ decimalWord false 999 (-3) = 0x3F7FBE77 ∧
  decimalWord false 10 (-1) = 0x3F800000 ∧ decimalWord false 0 (-1) = 0x00000000 ∧
  decimalWord false 120 (-1) = 0x41400000 ∧
  (f32OfBits 0x3F947AE1).toRat = 9730785 / 2 ^ 23 ∧ (f32OfBits 0x3E19999A).toRat = 5033165 / 2 ^ 25 ∧
  (f32OfBits 0x3A83126F).toRat = 8589935 / 2 ^ 33 ∧ (f32OfBits 0x3F7FBE77).toRat = 16760439 / 2 ^ 24 ∧
  ∀ c : Exp2Choice,
    (Num.binary32 c).c116 = f32OfBits 0x3F947AE1 ∧ (Num.binary32 c).c015 = f32OfBits 0x3E19999A ∧
    (Num.binary32 c).four = f32OfBits 0x40800000 ∧ (Num.binary32 c).half = f32OfBits 0x3F000000 ∧
    (Num.binary32 c).cutLow = f32OfBits 0x3A83126F ∧ (Num.binary32 c).cutHigh = f32OfBits 0x3F7FBE77 ∧
    (Num.binary32 c).one = f32OfBits 0x3F800000 ∧ (Num.binary32 c).zero = f32OfBits 0x00000000 ∧
    (Num.binary32 c).twelve = f32OfBits 0x41400000

/-! ## The filter and the frame processor (40_ladder_filter.md, 43_frame_processor.md) -/

/-- R93, R141, R161, R163: one sample step in binary32, operation by operation: the tick, the five steps of the
compositor on the envelope the tick has left, the resonance clamp, the filter step on the old stage registers, the
store of the new `S4`; and, in either format, nothing else. -/
def Obligations.SampleStepRunsTheUnits : Prop :=
  ∀ (s : State) (n : Nat), Memory.wf s.cfg.frameSize s.obuf = true → n < s.cfg.frameSize →
    sameEnvelope s.tick (s.sampleStep n) ∧ (s.sampleStep n).params = s.params ∧
    (∀ i, (s.sampleStep n).ibuf.read i = s.ibuf.read i) ∧
    (∀ i, i ≠ n → (s.sampleStep n).obuf.read i = s.obuf.read i) ∧
    (∀ i, i ≠ n → (s.sampleStep n).real.obuf.read i = s.real.obuf.read i) ∧
    (s.sampleStep n).resp = s.resp ∧ sameControl s (s.sampleStep n) ∧ sameOtherFormat s (s.sampleStep n) ∧
    (s.cfg.num = .binary32 →
      ∃ e0 kt e1 e2 mv e3 ec rr x res f t1 t2 t3 fb g u1 s1 s2 s3 s4 : F,
        e0 = f32OfBits s.params.cutoff ∧
        kt = clampF (f32OfBits s.params.keytrack) zeroF oneF ∧
        e1 = (if F.lt zeroF kt then
          F.mul e0 (exp2Value s.cfg.exp2 (F.mul (F.div
            (F.ofInt (max 0 (min 127 s.params.note.toInt) - 60)) (f32OfBits 0x41400000)) kt)) else e0) ∧
        e2 = (if s.tick.env.stage = .idle then e1
          else F.mul e1 (F.add oneF (F.mul (f32OfBits s.tick.env.ev)
            (clampF (f32OfBits s.params.contour) (f32OfBits 0xBF800000) oneF)))) ∧
        mv = clampF (f32OfBits s.params.modvalue) (f32OfBits 0xBF800000) oneF ∧
        e3 = F.mul e2 (F.add oneF (F.mul mv (f32OfBits 0x3F000000))) ∧
        ec = clampF e3 (f32OfBits 0x3A83126F) (f32OfBits 0x3F7FBE77) ∧
        rr = clampF (f32OfBits s.params.resonance) zeroF (f32OfBits s.cfg.resMax) ∧
        x = f32OfBits (s.ibuf.read n) ∧
        res = F.mul rr (f32OfBits 0x40800000) ∧
        f = F.mul ec (f32OfBits 0x3F947AE1) ∧
        t1 = F.mul (f32OfBits 0x3E19999A) f ∧ t2 = F.mul t1 f ∧ t3 = F.sub oneF t2 ∧
        fb = F.mul res t3 ∧ g = F.sub oneF f ∧
        u1 = F.sub x (F.mul fb (f32OfBits s.ladder.s4)) ∧
        s1 = F.add (F.mul u1 f) (F.mul (f32OfBits s.ladder.s1) g) ∧
        s2 = F.add (F.mul s1 f) (F.mul (f32OfBits s.ladder.s2) g) ∧
        s3 = F.add (F.mul s2 f) (F.mul (f32OfBits s.ladder.s3) g) ∧
        s4 = F.add (F.mul s3 f) (F.mul (f32OfBits s.ladder.s4) g) ∧
        isBitsOf (s.sampleStep n).ladder.s1 s1 = true ∧ isBitsOf (s.sampleStep n).ladder.s2 s2 = true ∧
        isBitsOf (s.sampleStep n).ladder.s3 s3 = true ∧ isBitsOf (s.sampleStep n).ladder.s4 s4 = true ∧
        isBitsOf ((s.sampleStep n).obuf.read n) s4 = true)

/-- R93, R141, R161, R163 in exact arithmetic (derived, the model's choice of reals, words and `EXP2`: log entries 13,
21, 22 and 23): one sample step, operation by operation, on the real numbers; by default `EXP2` is the real power of
two. -/
def Obligations.ExactSampleStepRunsTheUnits : Prop :=
  ∀ (s : State) (n : Nat), s.cfg.num = .exact → configValid s.cfg = true →
    Memory.wf s.cfg.frameSize s.real.obuf = true → n < s.cfg.frameSize →
    ∃ (kt off : ℚ) (k e1 e2 e3 ec rr f fb g u1 s1 s2 s3 s4 : ℝ),
      kt = max 0 (min 1 (realOfBits s.params.keytrack)) ∧
      off = ((max 0 (min 127 s.params.note.toInt) - 60 : Int) : ℚ) / 12 ∧
      k = (exp2Power s.cfg.exp2 (off * kt)).toReal ∧
      (s.cfg.exp2 = .nearest → k = (2 : ℝ) ^ ((off : ℝ) * (kt : ℝ))) ∧
      e1 = (if 0 < kt then realOfBits s.params.cutoff * k else realOfBits s.params.cutoff) ∧
      e2 = (if s.tick.env.stage = .idle then e1
        else e1 * (1 + s.tick.real.ev * max (-1) (min 1 (realOfBits s.params.contour)))) ∧
      e3 = e2 * (1 + max (-1) (min 1 (realOfBits s.params.modvalue)) / 2) ∧
      ec = max (1 / 1000) (min (999 / 1000) e3) ∧
      rr = max 0 (min (realOfBits s.cfg.resMax) (realOfBits s.params.resonance)) ∧
      f = ec * (116 / 100) ∧ fb = 4 * rr * (1 - 15 / 100 * f ^ 2) ∧ g = 1 - f ∧
      u1 = realOfBits (s.ibuf.read n) - fb * s.real.ladder.s4.toReal ∧
      s1 = u1 * f + s.real.ladder.s1.toReal * g ∧ s2 = s1 * f + s.real.ladder.s2.toReal * g ∧
      s3 = s2 * f + s.real.ladder.s3.toReal * g ∧ s4 = s3 * f + s.real.ladder.s4.toReal * g ∧
      (s.sampleStep n).real.ladder.s1.toReal = s1 ∧ (s.sampleStep n).real.ladder.s2.toReal = s2 ∧
      (s.sampleStep n).real.ladder.s3.toReal = s3 ∧ (s.sampleStep n).real.ladder.s4.toReal = s4 ∧
      (s.sampleStep n).real.obuf.read n = (s.sampleStep n).real.ladder.s4

/-- R160 (and, of R58 and R59, what `PROC` leaves in the buffers): `PROC` answers a next state, reached by the sample
steps 0 to `FRAME_SIZE - 1` in that order; each `OBUF` word is written by its own step and by no other; everything
`PROC` does not write is unchanged. -/
def Obligations.ProcRunsEverySample : Prop :=
  encode .proc = [0x08] ∧
  ∀ s : State, ∃ (t : State) (trace : Nat → State), exec .proc s = .next t ∧
    trace 0 = { s with busy := true } ∧
    (∀ n < s.cfg.frameSize, trace (n + 1) = (trace n).sampleStep n) ∧
    t = { trace s.cfg.frameSize with busy := false } ∧
    (∀ n < s.cfg.frameSize,
      (trace n).obuf.read n = s.obuf.read n ∧ t.obuf.read n = (trace (n + 1)).obuf.read n ∧
      (trace n).real.obuf.read n = s.real.obuf.read n ∧ t.real.obuf.read n = (trace (n + 1)).real.obuf.read n) ∧
    (∀ i, s.cfg.frameSize ≤ i → t.obuf.read i = s.obuf.read i ∧ t.real.obuf.read i = s.real.obuf.read i) ∧
    sameOtherFormat s t ∧
    (∀ i, t.ibuf.read i = s.ibuf.read i) ∧
    t.cfg = s.cfg ∧ t.params = s.params ∧ t.resp = s.resp ∧ t.fault = s.fault ∧ t.fcode = s.fcode ∧ t.busy = false ∧
    t.rx = s.rx ∧ t.port = s.port ∧ t.resetIn = s.resetIn

/-- R163, R91 (derived): with a ceiling as R11 asks, the resonance operand lies in `[0.0, RES_MAX]`, for every content
of the register, and is `0.0` for a NaN, in binary32. -/
def Obligations.ResonanceOperandInRange : Prop :=
  ∀ s : State, configValid s.cfg = true →
    F.within zeroF (resonanceOperand s.f32Num s.consts s.paramValues) (f32OfBits s.cfg.resMax) = true ∧
    (resonanceOperand s.f32Num s.consts s.paramValues).isFinite = true ∧
    ((f32OfBits s.params.resonance).isNan = true → resonanceOperand s.f32Num s.consts s.paramValues = zeroF)

/-- R244: a stage register that holds an infinity or a NaN holds one after every later frame, and so do the registers
after it and every output sample; once `S4` is a NaN all four are. The parameter registers and the envelope are not
affected by what the stage registers hold. In binary32, which alone has infinities and NaNs. -/
def Obligations.NonFiniteStateIsPermanent : Prop :=
  ∀ s t : State, s.cfg.num = .binary32 → 1 ≤ s.cfg.frameSize → Memory.wf s.cfg.frameSize s.obuf = true →
    exec .proc s = .next t →
    t.params = s.params ∧
    ((f32OfBits s.ladder.s1).isFinite = false → (f32OfBits t.ladder.s1).isFinite = false) ∧
    ((f32OfBits s.ladder.s1).isFinite = false ∨ (f32OfBits s.ladder.s2).isFinite = false →
      (f32OfBits t.ladder.s2).isFinite = false) ∧
    ((f32OfBits s.ladder.s1).isFinite = false ∨ (f32OfBits s.ladder.s2).isFinite = false ∨
        (f32OfBits s.ladder.s3).isFinite = false →
      (f32OfBits t.ladder.s3).isFinite = false) ∧
    ((f32OfBits s.ladder.s1).isFinite = false ∨ (f32OfBits s.ladder.s2).isFinite = false ∨
        (f32OfBits s.ladder.s3).isFinite = false ∨ (f32OfBits s.ladder.s4).isFinite = false →
      (f32OfBits t.ladder.s4).isFinite = false ∧
      ∀ i < s.cfg.frameSize, (f32OfBits (t.obuf.read i)).isFinite = false) ∧
    ((f32OfBits s.ladder.s4).isNan = true →
      (f32OfBits t.ladder.s1).isNan = true ∧ (f32OfBits t.ladder.s2).isNan = true ∧
      (f32OfBits t.ladder.s3).isNan = true ∧ (f32OfBits t.ladder.s4).isNan = true) ∧
    ∀ l : Ladder Word, ∃ t', exec .proc { s with ladder := l } = .next t' ∧ t'.params = t.params ∧ t'.env = t.env

/-- R169: with the stage registers and the input all `+0.0`, a frame leaves the stage registers and writes every
output word `+0.0`, whatever the parameters and whatever the envelope does, in binary32. -/
def Obligations.SilenceStaysSilent : Prop :=
  ∀ s : State, s.cfg.num = .binary32 → configValid s.cfg = true → Memory.wf s.cfg.frameSize s.obuf = true →
    s.ladder = ⟨0, 0, 0, 0⟩ → (∀ i < s.cfg.frameSize, s.ibuf.read i = 0) →
    ∃ t, exec .proc s = .next t ∧ t.ladder = ⟨0, 0, 0, 0⟩ ∧ ∀ i < s.cfg.frameSize, t.obuf.read i = 0

/-- R169 in exact arithmetic (derived, log entries 13, 21 and 23): zero stage registers and zero input give zero stage
registers and output, which the host reads as the word of `+0.0`. -/
def Obligations.ExactSilenceStaysSilent : Prop :=
  ∀ s : State, s.cfg.num = .exact → Memory.wf s.cfg.frameSize s.real.obuf = true →
    s.real.ladder = ⟨.zero, .zero, .zero, .zero⟩ → (∀ i < s.cfg.frameSize, realOfBits (s.ibuf.read i) = 0) →
    ∃ t, exec .proc s = .next t ∧ t.real.ladder = ⟨.zero, .zero, .zero, .zero⟩ ∧
      ∀ i < s.cfg.frameSize, t.real.obuf.read i = .zero ∧ t.outputBits i = 0x00000000

/-- R98 (derived): at the cutoff that makes `f` exactly 1.0, without resonance, a filter step on finite values returns
its input and leaves it in all four stage registers, up to the sign of a zero. -/
def Obligations.PassthroughAtUnitCoefficient : Prop :=
  ∀ (c : Exp2Choice) (x s1 s2 s3 s4 : Word),
    (f32OfBits x).isFinite = true → (f32OfBits s1).isFinite = true → (f32OfBits s2).isFinite = true →
    (f32OfBits s3).isFinite = true → (f32OfBits s4).isFinite = true →
    filterF (Num.binary32 c) (f32OfBits 0x3F5CB08E) = oneF ∧
    ∃ l, l = ladderStep (Num.binary32 c) (f32OfBits x) (f32OfBits 0x3F5CB08E) zeroF
        (mapLadder f32OfBits ⟨s1, s2, s3, s4⟩) ∧
      l.s1.isFinite = true ∧ l.s2.isFinite = true ∧ l.s3.isFinite = true ∧ l.s4.isFinite = true ∧
      l.s1.toRat = (f32OfBits x).toRat ∧ l.s2.toRat = (f32OfBits x).toRat ∧
      l.s3.toRat = (f32OfBits x).toRat ∧ l.s4.toRat = (f32OfBits x).toRat

/-- R99 (derived): the source's stability property is false of the rules: at cutoff 0.999 and resonance 1.0 the unit
impulse from zero state gives a finite `S4` at sample index 47 and an infinity at sample index 48. -/
def Obligations.UnstableCornerDiverges : Prop :=
  ((ladderStep (Num.binary32 .nearest) zeroF (f32OfBits 0x3F7FBE77) oneF)^[47]
      (ladderStep (Num.binary32 .nearest) oneF (f32OfBits 0x3F7FBE77) oneF
        ⟨zeroF, zeroF, zeroF, zeroF⟩)).s4.isFinite = true ∧
  ∃ neg, ((ladderStep (Num.binary32 .nearest) zeroF (f32OfBits 0x3F7FBE77) oneF)^[48]
      (ladderStep (Num.binary32 .nearest) oneF (f32OfBits 0x3F7FBE77) oneF ⟨zeroF, zeroF, zeroF, zeroF⟩)).s4 = .inf neg

/-- R97 (derived; which reals exact arithmetic has, with the decimals as the literals, is the model's choice, log entry
13): in exact arithmetic the gain at zero frequency is `1 / (1 + fb)`. The state with `y` in all four stages is at rest
under the constant input `y * (1 + fb)`, with `fb = 4 r (1 - 0.15 f^2)` and `f = 1.16 c`. -/
def Obligations.ExactPassbandGain : Prop :=
  ∀ (e : Exp2Choice) (x c r y : PowerSum) (f fb : ℝ), f = 116 / 100 * c.toReal →
    fb = 4 * r.toReal * (1 - 15 / 100 * f ^ 2) → x.toReal = y.toReal * (1 + fb) →
    ∃ l, l = ladderStep (Num.power e) x c r ⟨y, y, y, y⟩ ∧
      l.s1.toReal = y.toReal ∧ l.s2.toReal = y.toReal ∧ l.s3.toReal = y.toReal ∧ l.s4.toReal = y.toReal

/-- R167 (derived): determinism of a frame up to NaN patterns: two states that agree in the configuration, the
registers and the input buffer up to NaN patterns give, whatever else they hold and whatever free values they draw,
states that agree so again, and output words that do. -/
def Obligations.ProcIsDeterministicUpToNan : Prop :=
  ∀ s s' : State, agreeUpToNan s s' → s.buffersWf = true → s'.buffersWf = true →
    ∃ t t', exec .proc s = .next t ∧ exec .proc s' = .next t' ∧ agreeUpToNan t t' ∧
      ∀ i < s.cfg.frameSize, sameUpToNan (t.outputBits i) (t'.outputBits i) = true

/-- R168 (derived, its two-frame kernel): a frame of `a + b` samples gives the same output words and the same
registers as a frame of `a` samples and then one of `b`. The words are the same even at NaNs because the second frame
draws on from the counter the first one left, which is the model's own (DESIGN CHOICE, log entry 5); the next
statement is for frames of any two sizes and any counter. -/
def Obligations.FrameSizeIndependence : Prop :=
  ∀ (s u t t1 t2 : State) (a b : Nat), s.cfg.frameSize = a + b →
    Memory.wf (a + b) s.obuf = true → Memory.wf (a + b) s.real.obuf = true →
    Memory.wf b u.obuf = true → Memory.wf b u.real.obuf = true →
    exec .proc s = .next t →
    exec .proc { s with cfg := { s.cfg with frameSize := a } } = .next t1 →
    u.cfg = { s.cfg with frameSize := b } → u.params = t1.params → sameEnvelope t1 u → sameLadder t1 u →
    u.nanSeq = t1.nanSeq → (∀ i < b, u.ibuf.read i = s.ibuf.read (a + i)) →
    exec .proc u = .next t2 →
    sameEnvelope t2 t ∧ sameLadder t2 t ∧
    (∀ i < a, t.outputBits i = t1.outputBits i) ∧ ∀ i < b, t.outputBits (a + i) = t2.outputBits i

/-- R168 (derived): a session of control commands (setters, `TRIG`, `REL`) and stretches of a signal gives the same
responses and leaves the same registers whether each stretch is processed in frames of one size or in frames of
another, up to NaN patterns (which NaN is the model's free value, log entry 5), from any two values of the counter of
free values. -/
def Obligations.FramesOfAnySizeAgree : Prop :=
  ∀ (s s' : State) (session : List (List Instr × List Word)),
    s'.cfg = { s.cfg with frameSize := s'.cfg.frameSize } → 1 ≤ s.cfg.frameSize → 1 ≤ s'.cfg.frameSize →
    s.params = s'.params → registersAgree s s' → s.buffersWf = true → s'.buffersWf = true →
    (∀ stretch ∈ session, (∀ i ∈ stretch.1, isControlCommand i = true) ∧
      s.cfg.frameSize ∣ stretch.2.length ∧ s'.cfg.frameSize ∣ stretch.2.length) →
    ∃ t t' ys ys',
      execAll (sessionCommands s.cfg.frameSize session) s = .next t ∧
      execAll (sessionCommands s'.cfg.frameSize session) s' = .next t' ∧
      t.resp = s.resp ++ ys ∧ t'.resp = s'.resp ++ ys' ∧
      ys.length = (session.flatMap Prod.snd).length ∧
      List.Forall₂ (fun y y' => sameUpToNan y y' = true) ys ys' ∧ registersAgree t t'

/-- R13, R43 (derived; that each format has registers of its own is log entry 23): a command writes the computed
registers of the instance's number format only, and what the other format's hold never influences anything. -/
def Obligations.EachFormatUsesItsOwnRegisters : Prop :=
  ∀ (i : Instr) (s t : State), exec i s = .next t →
    sameOtherFormat s t ∧
    ∀ s' : State, s'.withoutOtherFormat = s.withoutOtherFormat →
      ∃ t', exec i s' = .next t' ∧ t'.withoutOtherFormat = t.withoutOtherFormat

/-! ## The buffers (44_host_commands.md R190, R191) -/

/-- R190 (with R211, R212 and R214 for `STIN`): `STIN` writes one word of `IBUF` bit for bit and nothing else, or, at
an index that is no word of the buffer, sets the fault latch with cause `BUFFER_INDEX`, so that `FAULT` reads 1 and
`FCODE` reads 2, and nothing else. -/
def Obligations.StinWritesOneInputWord : Prop :=
  ∀ (s : State) (i : Nat) (v : Word), Memory.wf s.cfg.frameSize s.ibuf = true →
    encode (.stin i v) = [0x0B, BitVec.ofNat 32 i, v] ∧
    if i < s.cfg.frameSize then
      ∃ t, exec (.stin i v) s = .next t ∧ t.ibuf.read i = v ∧ (∀ j, j ≠ i → t.ibuf.read j = s.ibuf.read j) ∧
        (∀ j, t.obuf.read j = s.obuf.read j) ∧ t.params = s.params ∧ t.ladder = s.ladder ∧ t.env = s.env ∧
        t.real = s.real ∧ t.resp = s.resp ∧ sameControl s t ∧ t.nanSeq = s.nanSeq
    else
      ∃ t, exec (.stin i v) s = .next t ∧ t = { s with fault := true, fcode := .bufferIndex } ∧
        t.faultOut = 1 ∧ t.fcodeOut = 2

/-- R191 (with R211, R212 and R214 for `LDOUT`): `LDOUT` responds with one word of `OBUF`, in binary32 the word as it
is stored (in exact arithmetic the next statement says which) and changes nothing else, or, at an index that is no
word of the buffer, sets the fault latch with cause `BUFFER_INDEX`, so that `FAULT` reads 1 and `FCODE` reads 2, with
no response and nothing else. -/
def Obligations.LdoutRespondsOneOutputWord : Prop :=
  ∀ (s : State) (i : Nat),
    encode (.ldout i) = [0x0C, BitVec.ofNat 32 i] ∧
    if i < s.cfg.frameSize then
      ∃ t, exec (.ldout i) s = .next t ∧ t.resp = s.resp ++ [s.outputBits i] ∧
        (s.cfg.num = .binary32 → t.resp = s.resp ++ [s.obuf.read i]) ∧ sameButResponses s t
    else
      ∃ t, exec (.ldout i) s = .next t ∧ t = { s with fault := true, fcode := .bufferIndex } ∧
        t.faultOut = 1 ∧ t.fcodeOut = 2

/-- R191, R17 in exact arithmetic (derived; which word a real has is log entry 21): the response to `LDOUT` is the
word that encodes the real in `OBUF`, where one does, and every word that encodes a finite value is read as that
value. -/
def Obligations.ExactOutputWords : Prop :=
  (∀ (s : State) (i : Nat) (w : Word), s.cfg.num = .exact → i < s.cfg.frameSize →
    (f32OfBits w).isFinite = true → w ≠ 0x80000000 → s.real.obuf.read i = .ofRat (f32OfBits w).toRat →
    ∃ t, exec (.ldout i) s = .next t ∧ t.resp = s.resp ++ [w]) ∧
  ∀ w : Word, (f32OfBits w).isFinite = true → realOfBits w = (f32OfBits w).toRat

/-! ## Faults and reset (60_exceptions.md, 70_reset_and_hazards.md) -/

/-- The last sentence of R210 (derived): of the twelve commands only `STIN` and `LDOUT` can fault, and only on their
index. -/
def Obligations.OnlyBufferCommandsFault : Prop :=
  ∀ (i : Instr) (s t : State), s.fault = false → exec i s = .next t → t.fault = true →
    ((∃ k v, i = .stin k v ∧ s.cfg.frameSize ≤ k) ∨ ∃ k, i = .ldout k ∧ s.cfg.frameSize ≤ k) ∧
    t.fcode = .bufferIndex

/-- R216 (derived): while `FAULT = 1` and no reset comes, any number of steps executes nothing: every word offered is
discarded, and no register, buffer word, response or cause code changes. That one step discards all the words offered
is the model's choice (DESIGN CHOICE, log entry 15). -/
def Obligations.FaultIsTerminal : Prop :=
  ∀ (s : State) (k : Nat), s.fault = true → s.busy = false → s.resetIn = false → 1 ≤ k →
    core.run k s = .next { s with port := [] }

/-- R44, R45, R46, R47, R231: what an asserted reset leaves, from every state, faulted, busy or in the middle of a
command, in either number format. -/
def Obligations.ResetGivesTheResetState : Prop :=
  ∀ s : State, s.resetIn = true → ∃ t, step s = .next t ∧
    t.ladder.s1 = 0 ∧ t.ladder.s2 = 0 ∧ t.ladder.s3 = 0 ∧ t.ladder.s4 = 0 ∧
    t.env.ev = 0 ∧ t.env.et = 0 ∧ t.env.er = 0 ∧ t.env.stage = .idle ∧
    t.real.ladder = ⟨.zero, .zero, .zero, .zero⟩ ∧
    t.real.ev = 0 ∧ t.real.et = 0 ∧ t.real.er = 0 ∧
    t.params = s.cfg.resetParams ∧ (∀ i, t.ibuf.read i = 0) ∧ (∀ i, t.obuf.read i = 0) ∧
    (∀ i, t.real.obuf.read i = .zero) ∧
    t.faultOut = 0 ∧ t.fcodeOut = 0 ∧ t.busyOut = 0 ∧ t.resp = [] ∧ t.rx = [] ∧ t.nextCommand = decode t.port ∧
    t.cfg = s.cfg

/-- R230, R240 (derived): the words that the host still offers when a reset is asserted stay offered, the reset input
is answered, the free values drawn stay drawn, and the next step runs the command those words start with. This is the
model's choice (DESIGN CHOICE, log entries 5 and 10). -/
def Obligations.ResetKeepsOfferedWords : Prop :=
  ∀ s : State, s.resetIn = true → ∃ t, step s = .next t ∧
    t.port = s.port ∧ t.resetIn = false ∧ t.nanSeq = s.nanSeq ∧
    ∀ (i : Instr) (rest : List Word), decode s.port = .cmd i rest → step t = exec i { t with port := rest }

/-- R36 to R38, R42, R218 (derived): no step stops the machine: a fault of the spec is a state, and every state has a
next one. -/
def Obligations.EveryStepHasANextState : Prop :=
  ∀ s : State, ∃ t, step s = .next t ∧ t.cfg = s.cfg

/-- R38, R50, R80, R211 (derived): every step keeps both buffers in canonical form within `FRAME_SIZE`, the numbers of
exact arithmetic in canonical form (log entry 13), `BUSY` 0 between steps, `FCODE` non-zero exactly when `FAULT` is
set, and no whole command among the words received. -/
def Obligations.ControlInvariantKept : Prop :=
  ∀ s t : State, s.controlInvariant = true → step s = .next t → t.controlInvariant = true

/-- The same invariant holds after reset, for every configuration. -/
def Obligations.ControlInvariantAtReset : Prop :=
  ∀ c : Config, (State.resetOf c).controlInvariant = true

/-- The second half of R42 (derived): `BASECUT`, `ET`, and `ER` while in Sustain or Idle cannot influence anything:
from states that differ in them only, one step leads to states that differ in them only. -/
def Obligations.UnreadRegistersNeverMatter : Prop :=
  ∀ s s' : State, s.withoutUnread = s'.withoutUnread →
    ∃ t t', step s = .next t ∧ step s' = .next t' ∧ t.withoutUnread = t'.withoutUnread
end

