-- ==== Sys2Proof/Laws/Decode.lean ====
section
/-! SUPPORT. The decoder by its header word: which words are legal headers, and what the decoder answers at one. -/

namespace Sys2Proof

/-- The decoder's rule for a header, as a lemma. -/
theorem decode_cons (w : Word) (ops : List Word) :
    decode (w :: ops) = if w.toNat / 2 ^ 8 = 0 then decodeOpcode (w.toNat % 2 ^ 8) ops else .illegal ops := rfl

/-- A header without reserved bits is decoded by its value. -/
theorem decode_small_header {w : Word} (h : w.toNat < 256) (ops : List Word) :
    decode (w :: ops) = decodeOpcode w.toNat ops := by
  rw [decode_cons, if_pos (by omega), show w.toNat % 2 ^ 8 = w.toNat by omega]

/-- The legal opcodes (30_encoding.md R74). -/
theorem decodeOpcode_illegal {k : Nat} (h : ¬ (1 ≤ k ∧ k ≤ 12)) (ops : List Word) :
    decodeOpcode k ops = .illegal ops := by
  unfold decodeOpcode
  split <;> first | rfl | omega

/-- A legal opcode never gives an illegal header. -/
theorem decodeOpcode_ne_illegal {k : Nat} (h1 : 1 ≤ k) (h2 : k ≤ 12) (ops rest : List Word) :
    decodeOpcode k ops ≠ .illegal rest := by
  interval_cases k <;>
    simp only [decodeOpcode, formatH, formatHF, formatHF5, formatHK, formatHX, formatHXF] <;>
    (try split) <;> simp

/-- Every other header is illegal, and one word is consumed (R78, R75). -/
theorem decode_illegal_header {w : Word} (h : ¬ (1 ≤ w.toNat ∧ w.toNat ≤ 12)) (ops : List Word) :
    decode (w :: ops) = .illegal ops := by
  rw [decode_cons]
  split_ifs with hr
  · rw [show w.toNat % 2 ^ 8 = w.toNat by omega, decodeOpcode_illegal h]
  · rfl

/-- What an illegal answer says about the words. -/
theorem decode_eq_illegal {w : Word} {ops rest : List Word} (h : decode (w :: ops) = .illegal rest) :
    ¬ (1 ≤ w.toNat ∧ w.toNat ≤ 12) ∧ rest = ops := by
  by_cases hw : 1 ≤ w.toNat ∧ w.toNat ≤ 12
  · rw [decode_small_header (by omega)] at h
    exact absurd h (decodeOpcode_ne_illegal hw.1 hw.2 _ _)
  · rw [decode_illegal_header hw] at h
    cases h
    exact ⟨hw, rfl⟩

end Sys2Proof
end

