-- ==== Sys2Proof/Laws/Rounding.lean ====
section
/-! SUPPORT. What rounding to binary32 does (00_scope.md R13): it keeps what is representable, it is monotone, and
its result is representable. -/

namespace Sys2Proof.Machine

/-- A magnitude that binary32 holds, but for the bound on the exponent: 24 significant bits. -/
def Representable (u : Nat) : Prop := ∃ m k, m < 2 ^ 24 ∧ u = m * 2 ^ k

/-! ### Rounding to a whole number -/

theorem roundHalfEven_mul (q : Nat) {d : Nat} (hd : 0 < d) : roundHalfEven (q * d) d = q := by
  simp [roundHalfEven, Nat.mul_div_cancel _ hd]
  omega

theorem div_le_roundHalfEven (n d : Nat) : n / d ≤ roundHalfEven n d := by
  unfold roundHalfEven; dsimp only; split <;> omega

theorem roundHalfEven_le_div_succ (n d : Nat) : roundHalfEven n d ≤ n / d + 1 := by
  unfold roundHalfEven; dsimp only; split <;> omega

/-- Rounding to a whole number is monotone in the fraction. -/
theorem roundHalfEven_mono {n d m e : Nat} (hd : 0 < d) (he : 0 < e) (h : n * e ≤ m * d) :
    roundHalfEven n d ≤ roundHalfEven m e := by
  have hq : n / d ≤ m / e := by
    rw [Nat.le_div_iff_mul_le he]
    have h1 : n / d * d ≤ n := Nat.div_mul_le_self n d
    have h2 : n / d * e * d ≤ m * d := by nlinarith
    exact Nat.le_of_mul_le_mul_right h2 hd
  rcases Nat.lt_or_ge (n / d) (m / e) with hlt | hge
  · exact (roundHalfEven_le_div_succ n d).trans ((Nat.succ_le_of_lt hlt).trans (div_le_roundHalfEven m e))
  · have heq : n / d = m / e := le_antisymm hq hge
    have hn : d * (n / d) + n % d = n := Nat.div_add_mod n d
    have hm : e * (m / e) + m % e = m := Nat.div_add_mod m e
    have hr : n % d * e ≤ m % e * d := by
      rw [← heq] at hm
      nlinarith
    unfold roundHalfEven
    dsimp only
    rw [heq]
    split_ifs with h1 h2
    · exact le_refl _
    · exfalso
      apply h2
      rcases h1 with h1 | ⟨h1, hodd⟩
      · left
        have : d * e < 2 * (m % e) * d := by nlinarith
        exact lt_of_mul_lt_mul_right (by linarith [mul_comm d e] : e * d < 2 * (m % e) * d) (Nat.zero_le d)
      · have hge2 : e ≤ 2 * (m % e) := by
          have : e * d ≤ 2 * (m % e) * d := by nlinarith
          exact Nat.le_of_mul_le_mul_right this hd
        rcases Nat.lt_or_ge e (2 * (m % e)) with h3 | h3
        · exact .inl h3
        · exact .inr ⟨le_antisymm h3 hge2, hodd⟩
    · omega
    · exact le_refl _

/-! ### Rounding to 24 bits -/

theorem lt_two_pow_shift (q : Nat) : q < 2 ^ (q.log2 - 23 + 24) := by
  rcases Nat.eq_zero_or_pos q with rfl | hq
  · positivity
  · exact (Nat.lt_log2_self).trans_le (Nat.pow_le_pow_right (by norm_num) (by omega))

theorem two_pow_le_of_shift_pos {q : Nat} (h : 0 < q.log2 - 23) : 2 ^ (q.log2 - 23 + 23) ≤ q := by
  have hq : q ≠ 0 := by rintro rfl; simp at h
  calc 2 ^ (q.log2 - 23 + 23) = 2 ^ q.log2 := by congr 1; omega
    _ ≤ q := Nat.log2_self_le hq

/-- A fraction below a representable magnitude does not round above it. -/
theorem roundMagnitude_le {n d u : Nat} (hd : 0 < d) (hu : Representable u) (h : n ≤ u * d) :
    roundMagnitude n d ≤ u := by
  obtain ⟨m, k, hm, rfl⟩ := hu
  unfold roundMagnitude
  dsimp only
  generalize hs : (n / d).log2 - 23 = sh
  have hpow : 0 < 2 ^ sh := by positivity
  rcases Nat.lt_or_ge k sh with hk | hk
  · -- the magnitude has fewer bits than the fraction: impossible
    exfalso
    have h1 : 2 ^ (sh + 23) ≤ n / d := by
      have := two_pow_le_of_shift_pos (q := n / d) (by omega)
      rwa [hs] at this
    have h2 : n / d ≤ m * 2 ^ k := by
      calc n / d ≤ m * 2 ^ k * d / d := Nat.div_le_div_right h
        _ = m * 2 ^ k := Nat.mul_div_cancel _ hd
    have h3 : m * 2 ^ k < 2 ^ 24 * 2 ^ k := Nat.mul_lt_mul_of_pos_right hm (by positivity)
    have h4 : 2 ^ 24 * 2 ^ k ≤ 2 ^ (sh + 23) := by
      rw [← pow_add]
      exact Nat.pow_le_pow_right (by norm_num) (by omega)
    omega
  · obtain ⟨j, rfl⟩ := Nat.exists_eq_add_of_le hk
    have hD : 0 < d * 2 ^ sh := by positivity
    have h1 : roundHalfEven n (d * 2 ^ sh) ≤ m * 2 ^ j := by
      rw [← roundHalfEven_mul (m * 2 ^ j) hD]
      apply roundHalfEven_mono hD hD
      apply Nat.mul_le_mul_right
      calc n ≤ m * 2 ^ (sh + j) * d := h
        _ = m * 2 ^ j * (d * 2 ^ sh) := by rw [pow_add]; ring
    calc roundHalfEven n (d * 2 ^ sh) * 2 ^ sh ≤ m * 2 ^ j * 2 ^ sh := Nat.mul_le_mul_right _ h1
      _ = m * 2 ^ (sh + j) := by rw [pow_add]; ring

/-- A fraction above a representable magnitude does not round below it. -/
theorem le_roundMagnitude {n d u : Nat} (hd : 0 < d) (hu : Representable u) (h : u * d ≤ n) :
    u ≤ roundMagnitude n d := by
  obtain ⟨m, k, hm, rfl⟩ := hu
  unfold roundMagnitude
  dsimp only
  generalize hs : (n / d).log2 - 23 = sh
  have hD : 0 < d * 2 ^ sh := by positivity
  rcases Nat.lt_or_ge k sh with hk | hk
  · have h1 : 2 ^ (sh + 23) ≤ n / d := by
      have := two_pow_le_of_shift_pos (q := n / d) (by omega)
      rwa [hs] at this
    have h2 : 2 ^ 23 ≤ roundHalfEven n (d * 2 ^ sh) := by
      refine le_trans ?_ (div_le_roundHalfEven _ _)
      rw [← Nat.div_div_eq_div_mul, Nat.le_div_iff_mul_le (by positivity), ← pow_add, add_comm 23]
      exact h1
    calc m * 2 ^ k ≤ 2 ^ 24 * 2 ^ k := Nat.mul_le_mul_right _ hm.le
      _ = 2 ^ (24 + k) := by rw [pow_add]
      _ ≤ 2 ^ (23 + sh) := Nat.pow_le_pow_right (by norm_num) (by omega)
      _ = 2 ^ 23 * 2 ^ sh := by rw [pow_add]
      _ ≤ _ := Nat.mul_le_mul_right _ h2
  · obtain ⟨j, rfl⟩ := Nat.exists_eq_add_of_le hk
    have h1 : m * 2 ^ j ≤ roundHalfEven n (d * 2 ^ sh) := by
      refine le_trans ?_ (div_le_roundHalfEven _ _)
      rw [Nat.le_div_iff_mul_le hD]
      calc m * 2 ^ j * (d * 2 ^ sh) = m * 2 ^ (sh + j) * d := by rw [pow_add]; ring
        _ ≤ n := h
    calc m * 2 ^ (sh + j) = m * 2 ^ j * 2 ^ sh := by rw [pow_add]; ring
      _ ≤ _ := Nat.mul_le_mul_right _ h1

/-- What is representable rounds to itself. -/
theorem roundMagnitude_of_representable {u d : Nat} (hd : 0 < d) (hu : Representable u) :
    roundMagnitude (u * d) d = u :=
  le_antisymm (roundMagnitude_le hd hu le_rfl) (le_roundMagnitude hd hu le_rfl)

/-- The result of rounding is representable. -/
theorem representable_roundMagnitude {n d : Nat} (hd : 0 < d) : Representable (roundMagnitude n d) := by
  unfold roundMagnitude
  dsimp only
  generalize hs : (n / d).log2 - 23 = sh
  have hD : 0 < d * 2 ^ sh := by positivity
  have h1 : n < 2 ^ 24 * (d * 2 ^ sh) := by
    have h2 : n / d < 2 ^ (sh + 24) := by
      have := lt_two_pow_shift (n / d)
      rwa [hs] at this
    rw [Nat.div_lt_iff_lt_mul hd] at h2
    calc n < 2 ^ (sh + 24) * d := h2
      _ = 2 ^ 24 * (d * 2 ^ sh) := by rw [pow_add]; ring
  have h2 : roundHalfEven n (d * 2 ^ sh) ≤ 2 ^ 24 := by
    rw [← roundHalfEven_mul (2 ^ 24) hD]
    exact roundHalfEven_mono hD hD (Nat.mul_le_mul_right _ h1.le)
  rcases Nat.lt_or_ge (roundHalfEven n (d * 2 ^ sh)) (2 ^ 24) with h3 | h3
  · exact ⟨_, sh, h3, rfl⟩
  · refine ⟨1, 24 + sh, by norm_num, ?_⟩
    rw [le_antisymm h2 h3, pow_add, one_mul]

/-- Rounding is monotone in the fraction. -/
theorem roundMagnitude_mono {n d m e : Nat} (hd : 0 < d) (he : 0 < e) (h : n * e ≤ m * d) :
    roundMagnitude n d ≤ roundMagnitude m e := by
  have hq : n / d ≤ m / e := by
    rw [Nat.le_div_iff_mul_le he]
    have h1 : n / d * d ≤ n := Nat.div_mul_le_self n d
    have h2 : n / d * e * d ≤ m * d := by nlinarith
    exact Nat.le_of_mul_le_mul_right h2 hd
  rcases Nat.lt_trichotomy ((n / d).log2 - 23) ((m / e).log2 - 23) with hlt | heq | hgt
  · have h1 : n / d < 2 ^ ((n / d).log2 - 23 + 24) := lt_two_pow_shift _
    have h2 : 2 ^ ((m / e).log2 - 23 + 23) ≤ m / e := two_pow_le_of_shift_pos (by omega)
    have hrep : Representable (2 ^ ((m / e).log2 - 23 + 23)) := ⟨1, _, by norm_num, (one_mul _).symm⟩
    refine le_trans (roundMagnitude_le hd hrep ?_) (le_roundMagnitude he hrep ?_)
    · have h3 : n / d < 2 ^ ((m / e).log2 - 23 + 23) :=
        h1.trans_le (Nat.pow_le_pow_right (by norm_num) (by omega))
      exact ((Nat.div_lt_iff_lt_mul hd).1 h3).le
    · exact (Nat.le_div_iff_mul_le he).1 h2
  · unfold roundMagnitude
    dsimp only
    rw [heq]
    apply Nat.mul_le_mul_right
    apply roundHalfEven_mono (by positivity) (by positivity)
    calc n * (e * 2 ^ ((m / e).log2 - 23)) = n * e * 2 ^ ((m / e).log2 - 23) := by ring
      _ ≤ m * d * 2 ^ ((m / e).log2 - 23) := Nat.mul_le_mul_right _ h
      _ = m * (d * 2 ^ ((m / e).log2 - 23)) := by ring
  · exfalso
    have h1 : n / d < 2 ^ ((m / e).log2 - 23 + 24) := hq.trans_lt (lt_two_pow_shift _)
    have h2 : 2 ^ ((n / d).log2 - 23 + 23) ≤ n / d := two_pow_le_of_shift_pos (by omega)
    have h3 : 2 ^ ((m / e).log2 - 23 + 24) ≤ 2 ^ ((n / d).log2 - 23 + 23) :=
      Nat.pow_le_pow_right (by norm_num) (by omega)
    omega

@[simp] theorem roundMagnitude_zero (d : Nat) : roundMagnitude 0 d = 0 := by
  have h : roundHalfEven 0 (d * 2 ^ ((0 / d).log2 - 23)) = 0 := by
    unfold roundHalfEven
    simp
  unfold roundMagnitude
  dsimp only
  rw [h, Nat.zero_mul]

end Sys2Proof.Machine
end

