-- ==== Sys2Proof/Laws/Float.lean ====
section
/-! SUPPORT. Binary32 values (00_scope.md R13, R17): reading a word and writing it back, the place of a result in the
order, and where NaNs and infinities lead. -/

namespace Sys2Proof.Machine

/-! ### The fields of a word -/

theorem packFields_toNat {neg : Bool} {e frac : Nat} (he : e < 2 ^ 8) (hf : frac < 2 ^ 23) :
    (packFields neg e frac).toNat = (if neg then 2 ^ 31 else 0) + e * 2 ^ 23 + frac := by
  unfold packFields
  rw [BitVec.toNat_ofNat]
  apply Nat.mod_eq_of_lt
  cases neg <;> simp <;> omega

/-- Reading a word made of its fields. -/
theorem f32OfBits_packFields {neg : Bool} {e frac : Nat} (he : e < 2 ^ 8) (hf : frac < 2 ^ 23) :
    f32OfBits (packFields neg e frac) =
      if e = 255 then (if frac = 0 then .inf neg else .nan (some (packFields neg e frac)))
      else if e = 0 then .fin neg frac
      else .fin neg ((2 ^ 23 + frac) * 2 ^ (e - 1)) := by
  have h := packFields_toNat (neg := neg) he hf
  have h1 : decide (2 ^ 31 ≤ (packFields neg e frac).toNat) = neg := by
    rw [h]; cases neg <;> simp <;> omega
  have h2 : (packFields neg e frac).toNat / 2 ^ 23 % 2 ^ 8 = e := by
    rw [h]; cases neg <;> simp <;> omega
  have h3 : (packFields neg e frac).toNat % 2 ^ 23 = frac := by
    rw [h]; cases neg <;> simp <;> omega
  simp only [f32OfBits, h1, h2, h3]

/-- Every word is made of its fields. -/
theorem packFields_fields (w : Word) :
    packFields (decide (2 ^ 31 ≤ w.toNat)) (w.toNat / 2 ^ 23 % 2 ^ 8) (w.toNat % 2 ^ 23) = w := by
  apply BitVec.eq_of_toNat_eq
  have hw := w.isLt
  rw [packFields_toNat (by omega) (by omega)]
  split_ifs with h <;> simp only [decide_eq_true_eq] at h <;> omega

theorem log2_normal {frac : Nat} (hf : frac < 2 ^ 23) (k : Nat) :
    ((2 ^ 23 + frac) * 2 ^ k).log2 = 23 + k := by
  have hpos : (2 ^ 23 + frac) * 2 ^ k ≠ 0 := by positivity
  rw [Nat.log2_eq_iff hpos]
  constructor
  · rw [pow_add]; exact Nat.mul_le_mul_right _ (by omega)
  · rw [show 23 + k + 1 = 24 + k by omega, pow_add]
    exact Nat.mul_lt_mul_of_pos_right (by omega) (by positivity)

/-- Writing a normal number gives its fields. -/
theorem bitsOfF32_normal {n : Nat} {neg : Bool} {frac k : Nat} (hf : frac < 2 ^ 23) :
    bitsOfF32 n (.fin neg ((2 ^ 23 + frac) * 2 ^ k)) = packFields neg (k + 1) frac := by
  have hge : ¬ (2 ^ 23 + frac) * 2 ^ k < 2 ^ 23 := by
    have : 1 ≤ 2 ^ k := Nat.one_le_two_pow
    have := Nat.mul_le_mul_left (2 ^ 23 + frac) this
    omega
  simp only [bitsOfF32, hge, if_false, log2_normal hf]
  rw [show 23 + k - 22 = k + 1 by omega, show 23 + k - 23 = k by omega, Nat.mul_div_cancel _ (by positivity),
    Nat.add_sub_cancel_left]

/-- Writing back what was read gives the word, NaNs included. -/
@[simp] theorem bitsOfF32_f32OfBits (n : Nat) (w : Word) : bitsOfF32 n (f32OfBits w) = w := by
  have hw := packFields_fields w
  unfold f32OfBits
  dsimp only
  split_ifs with h1 h2 h3
  · simp only [bitsOfF32]
    rwa [h1, h2] at hw
  · rfl
  · simp only [bitsOfF32, Nat.mod_lt _ (show 0 < 2 ^ 23 by norm_num), if_true]
    rwa [h3] at hw
  · rw [bitsOfF32_normal (Nat.mod_lt _ (by norm_num)), Nat.sub_add_cancel (by omega)]
    exact hw

/-! ### Values that have an encoding -/

/-- A value that a register can hold: not a NaN that an operation has just made. -/
def F.Held (v : F) : Prop := ∃ w, v = f32OfBits w

theorem held_f32OfBits (w : Word) : (f32OfBits w).Held := ⟨w, rfl⟩

/-- A held value is written and read back unchanged. -/
theorem f32OfBits_bitsOfF32 {v : F} (h : v.Held) (n : Nat) : f32OfBits (bitsOfF32 n v) = v := by
  obtain ⟨w, rfl⟩ := h
  rw [bitsOfF32_f32OfBits]

theorem held_inf (neg : Bool) : (F.inf neg).Held :=
  ⟨packFields neg 255 0, by rw [f32OfBits_packFields (by norm_num) (by norm_num)]; simp⟩

/-- A representable magnitude below `2^128` is a subnormal or a normal number. -/
theorem representable_cases {u : Nat} (h : Representable u) (hlt : u < unitsOfInf) :
    u < 2 ^ 23 ∨ ∃ frac k, frac < 2 ^ 23 ∧ k < 254 ∧ u = (2 ^ 23 + frac) * 2 ^ k := by
  rcases Nat.lt_or_ge u (2 ^ 23) with h0 | h0
  · exact .inl h0
  · right
    obtain ⟨m, k, hm, rfl⟩ := h
    have hmpos : m ≠ 0 := by rintro rfl; simp at h0
    have hml : m.log2 < 24 := (Nat.log2_lt hmpos).2 hm
    have hlow : 2 ^ m.log2 ≤ m := Nat.log2_self_le hmpos
    have hhigh : m < 2 ^ (m.log2 + 1) := Nat.lt_log2_self
    -- shift `m` up to 24 bits
    have hk : 23 - m.log2 ≤ k := by
      by_contra hcon
      have hcon : k + m.log2 + 1 ≤ 23 := by omega
      have : m * 2 ^ k < 2 ^ (m.log2 + 1) * 2 ^ k := Nat.mul_lt_mul_of_pos_right hhigh (by positivity)
      rw [← pow_add] at this
      have h2 : 2 ^ (m.log2 + 1 + k) ≤ 2 ^ 23 := Nat.pow_le_pow_right (by norm_num) (by omega)
      omega
    obtain ⟨j, rfl⟩ := Nat.exists_eq_add_of_le hk
    have hlo : 2 ^ 23 ≤ m * 2 ^ (23 - m.log2) := by
      calc 2 ^ 23 = 2 ^ m.log2 * 2 ^ (23 - m.log2) := by rw [← pow_add]; congr 1; omega
        _ ≤ _ := Nat.mul_le_mul_right _ hlow
    have hhi : m * 2 ^ (23 - m.log2) < 2 ^ 24 := by
      calc _ < 2 ^ (m.log2 + 1) * 2 ^ (23 - m.log2) := Nat.mul_lt_mul_of_pos_right hhigh (by positivity)
        _ = 2 ^ 24 := by rw [← pow_add]; congr 1; omega
    have hu : m * 2 ^ (23 - m.log2 + j) = m * 2 ^ (23 - m.log2) * 2 ^ j := by rw [pow_add]; ring
    refine ⟨m * 2 ^ (23 - m.log2) - 2 ^ 23, j, by omega, ?_, ?_⟩
    · by_contra hcon
      have h1 : 2 ^ 149 * 2 ^ 128 ≤ 2 ^ 23 * 2 ^ j := by
        calc 2 ^ 149 * 2 ^ 128 = 2 ^ 23 * 2 ^ 254 := by norm_num
          _ ≤ 2 ^ 23 * 2 ^ j := Nat.mul_le_mul_left _ (Nat.pow_le_pow_right (by norm_num) (by omega))
      have h2 : 2 ^ 23 * 2 ^ j ≤ m * 2 ^ (23 - m.log2) * 2 ^ j := Nat.mul_le_mul_right _ hlo
      rw [hu] at hlt
      simp only [unitsOfInf] at hlt
      omega
    · rw [hu, Nat.add_sub_cancel' hlo]

theorem held_fin {u : Nat} (neg : Bool) (h : Representable u) (hlt : u < unitsOfInf) : (F.fin neg u).Held := by
  rcases representable_cases h hlt with h0 | ⟨frac, k, hf, hk, rfl⟩
  · exact ⟨packFields neg 0 u, by rw [f32OfBits_packFields (by norm_num) h0]; simp⟩
  · refine ⟨packFields neg (k + 1) frac, ?_⟩
    rw [f32OfBits_packFields (by omega) hf]
    simp [show k + 1 ≠ 255 by omega]

/-- A finite value that was read from a word is representable. -/
theorem representable_of_f32OfBits {w : Word} {neg : Bool} {u : Nat} (h : f32OfBits w = .fin neg u) :
    Representable u ∧ u < unitsOfInf := by
  unfold f32OfBits at h
  dsimp only at h
  have hf : w.toNat % 2 ^ 23 < 2 ^ 23 := Nat.mod_lt _ (by norm_num)
  have he : w.toNat / 2 ^ 23 % 2 ^ 8 < 2 ^ 8 := Nat.mod_lt _ (by norm_num)
  split_ifs at h with h1 h2 h3
  · obtain ⟨-, rfl⟩ := F.fin.inj h
    exact ⟨⟨w.toNat % 2 ^ 23, 0, by omega, by simp⟩, by simp only [unitsOfInf]; omega⟩
  · obtain ⟨-, rfl⟩ := F.fin.inj h
    refine ⟨⟨_, _, by omega, rfl⟩, ?_⟩
    have h4 : w.toNat / 2 ^ 23 % 2 ^ 8 - 1 ≤ 253 := by omega
    calc (2 ^ 23 + w.toNat % 2 ^ 23) * 2 ^ (w.toNat / 2 ^ 23 % 2 ^ 8 - 1)
        ≤ (2 ^ 23 + w.toNat % 2 ^ 23) * 2 ^ 253 :=
          Nat.mul_le_mul_left _ (Nat.pow_le_pow_right (by norm_num) h4)
      _ < 2 ^ 24 * 2 ^ 253 := Nat.mul_lt_mul_of_pos_right (by omega) (by positivity)
      _ = unitsOfInf := by rw [unitsOfInf, ← pow_add, ← pow_add]

theorem held_iff {v : F} : v.Held ↔
    (∃ w, v = .nan (some w) ∧ f32OfBits w = v) ∨ (∃ s, v = .inf s) ∨
      ∃ s u, v = .fin s u ∧ Representable u ∧ u < unitsOfInf := by
  constructor
  · rintro ⟨w, rfl⟩
    cases h : f32OfBits w with
    | nan o =>
      left
      cases o with
      | none => unfold f32OfBits at h; dsimp only at h; split_ifs at h; cases h
      | some w' =>
        refine ⟨w, ?_⟩
        have : w' = w := by unfold f32OfBits at h; dsimp only at h; split_ifs at h; simpa using h.symm
        rw [this] at h ⊢
        exact ⟨rfl, h⟩
    | inf s => exact .inr (.inl ⟨s, rfl⟩)
    | fin s u => exact .inr (.inr ⟨s, u, rfl, representable_of_f32OfBits h⟩)
  · rintro (⟨w, rfl, h⟩ | ⟨s, rfl⟩ | ⟨s, u, rfl, h1, h2⟩)
    · exact ⟨w, h.symm⟩
    · exact held_inf s
    · exact held_fin s h1 h2

/-- A rounded value can be held. -/
theorem held_roundUnits {neg : Bool} {n d : Nat} (hd : 0 < d) : (roundUnits neg n d).Held := by
  unfold roundUnits
  split_ifs with h
  · exact held_inf neg
  · exact held_fin neg (representable_roundMagnitude hd) (by omega)

theorem unitsOfOne_pos : 0 < unitsOfOne := by unfold unitsOfOne; positivity

/-- A value that the numeric path can be left with: a word's value, or a NaN that an operation made. -/
def F.Storable (v : F) : Prop := v = .nan none ∨ v.Held

theorem storable_f32OfBits (w : Word) : (f32OfBits w).Storable := .inr (held_f32OfBits w)

theorem held_zero (neg : Bool) : (F.fin neg 0).Held := held_fin _ ⟨0, 0, by norm_num, by simp⟩ (by simp [unitsOfInf])

theorem storable_add (a b : F) : (F.add a b).Storable := by
  unfold F.add
  split
  · split_ifs <;> first | exact .inr (held_roundUnits one_pos) | exact .inr (held_zero _)
  · split_ifs
    · exact .inr (held_inf _)
    · exact .inl rfl
  · exact .inr (held_inf _)
  · exact .inr (held_inf _)
  · exact .inl rfl
  · exact .inl rfl

theorem storable_sub (a b : F) : (F.sub a b).Storable := storable_add _ _

theorem storable_mul (a b : F) : (F.mul a b).Storable := by
  unfold F.mul
  split
  · exact .inr (held_roundUnits unitsOfOne_pos)
  · exact .inr (held_inf _)
  · split_ifs
    · exact .inl rfl
    · exact .inr (held_inf _)
  · split_ifs
    · exact .inl rfl
    · exact .inr (held_inf _)
  · exact .inl rfl
  · exact .inl rfl

theorem storable_div (a b : F) : (F.div a b).Storable := by
  unfold F.div
  split
  · split_ifs with hb ha
    · exact .inl rfl
    · exact .inr (held_inf _)
    · exact .inr (held_roundUnits (Nat.pos_of_ne_zero hb))
  · exact .inl rfl
  · exact .inr (held_inf _)
  · exact .inr (held_zero _)
  · exact .inl rfl
  · exact .inl rfl

/-- A storable value that is not a NaN can be held. -/
theorem F.Storable.held {v : F} (h : v.Storable) (hn : v.isNan = false) : v.Held := by
  rcases h with rfl | h
  · simp [F.isNan] at hn
  · exact h

/-! ### NaN patterns -/

@[simp] theorem isNan_f32OfBits_nanPattern (n : Nat) : (f32OfBits (nanPattern n)).isNan = true := by
  unfold nanPattern
  dsimp only
  rw [f32OfBits_packFields (by norm_num) (by split_ifs <;> omega)]
  split_ifs with h1 h2 <;> simp_all [F.isNan]

/-- What is stored for a storable value reads back as that value, or as a NaN if it is one. -/
theorem F.Storable.stored {v : F} (h : v.Storable) (n : Nat) :
    f32OfBits (bitsOfF32 n v) = v ∨ (v.isNan = true ∧ (f32OfBits (bitsOfF32 n v)).isNan = true) := by
  rcases h with rfl | h
  · exact .inr ⟨rfl, isNan_f32OfBits_nanPattern n⟩
  · exact .inl (f32OfBits_bitsOfF32 h n)

/-- What is stored for a value is a NaN pattern exactly when the value is a NaN. -/
theorem F.Storable.isNan_stored {v : F} (h : v.Storable) (n : Nat) : (f32OfBits (bitsOfF32 n v)).isNan = v.isNan := by
  rcases h.stored n with h | ⟨h1, h2⟩
  · rw [h]
  · rw [h1, h2]

end Sys2Proof.Machine
end

