-- ==== Sys2Proof/Laws/Exact.lean ====
section
/-! SUPPORT. Exact arithmetic (00_scope.md R13, R14, R17): what a word is read as and what the word of a real can be;
that the operations are those of the reals and keep the canonical form; that `EXP2` is monotone. -/

namespace Sys2Proof.Machine

/-- A word that encodes a finite value is read as its real. -/
theorem realOfBits_of_finite {w : Word} (h : (f32OfBits w).isFinite = true) : realOfBits w = (f32OfBits w).toRat := by
  unfold realOfBits
  cases hw : f32OfBits w with
  | nan u => rw [hw] at h; cases h
  | inf s => rw [hw] at h; cases h
  | fin s u => rfl

@[simp] theorem realOfBits_zero : realOfBits 0 = 0 := by
  rw [realOfBits_of_finite (by decide +kernel), show f32OfBits 0 = .fin false 0 by decide +kernel]
  simp [F.toRat]

/-- No NaN pattern is read as another real than any other. -/
theorem realOfBits_of_nan {w : Word} (h : (f32OfBits w).isNan = true) : realOfBits w = Config.freeReal none := by
  unfold realOfBits
  cases hw : f32OfBits w with
  | nan u => rfl
  | inf s => rw [hw] at h; cases h
  | fin s u => rw [hw] at h; cases h

/-- The value nearest to a real that binary32 has is that value; a zero is the positive one. -/
theorem nearestF32_toRat {s : Bool} {u : Nat} (hu : Representable u) (hlt : u < unitsOfInf) (h0 : u ≠ 0 ∨ s = false) :
    nearestF32 (F.toRat (.fin s u)) = .fin s u := by
  set q := F.toRat (.fin s u) with hq
  have hval : q = (if s then -(u:ℚ) else u) / 2 ^ 149 := rfl
  have habs : (q.num.natAbs : ℚ) * 2 ^ 149 = u * q.den := by
    have h1 : (q.num : ℚ) / q.den = q := Rat.num_div_den q
    have hd : (q.den : ℚ) ≠ 0 := by exact_mod_cast q.den_nz
    have h2 : (q.num : ℚ) * 2 ^ 149 = (if s then -(u:ℚ) else u) * q.den := by
      have := h1.trans hval
      field_simp at this
      linarith
    have h3 : |(q.num : ℚ) * 2 ^ 149| = |(if s then -(u:ℚ) else u) * q.den| := by rw [h2]
    rw [abs_mul, abs_mul] at h3
    have h4 : |(if s then -(u:ℚ) else u)| = u := by cases s <;> simp
    rw [h4] at h3
    rw [Nat.cast_natAbs]
    simpa using h3
  have habs' : q.num.natAbs * unitsOfOne = u * q.den := by
    unfold unitsOfOne; exact_mod_cast habs
  have hneg : decide (q < 0) = s := by
    cases s with
    | false => simp [hval]; positivity
    | true =>
      have : u ≠ 0 := by simpa using h0
      have : 0 < (u : ℚ) := by positivity
      simp only [decide_eq_true_eq, hval, if_true]
      rw [div_neg_iff]; right; constructor <;> [linarith; positivity]
  unfold nearestF32
  rw [habs', hneg]
  unfold roundUnits
  rw [roundMagnitude_of_representable q.den_pos hu, if_neg (by omega)]

/-- A rational that a finite word other than that of `-0.0` encodes has that word. -/
theorem wordOfRat_of_finite {w : Word} (h : (f32OfBits w).isFinite = true) (hz : w ≠ 0x80000000) :
    wordOfRat (f32OfBits w).toRat = some w := by
  cases hv : f32OfBits w with
  | nan o => rw [hv] at h; cases h
  | inf o => rw [hv] at h; cases h
  | fin s u =>
    have hrep := representable_of_f32OfBits hv
    have h0 : u ≠ 0 ∨ s = false := by
      by_contra hcon
      obtain ⟨rfl, h2⟩ := not_or.1 hcon |>.imp_left not_not.1
      obtain rfl : s = true := by simpa using h2
      apply hz
      rw [← bitsOfF32_f32OfBits 0 w, hv]; decide
    unfold wordOfRat
    rw [nearestF32_toRat hrep.1 hrep.2 h0, if_pos ⟨rfl, rfl⟩, ← hv, bitsOfF32_f32OfBits]

/-! ### The operations are those of the reals -/

@[simp] theorem termsReal_nil : termsReal [] = 0 := by simp [termsReal]
@[simp] theorem termsReal_cons (t : ℚ × ℚ) (l : List (ℚ × ℚ)) :
    termsReal (t :: l) = t.2 * (2 : ℝ) ^ (t.1 : ℝ) + termsReal l := by simp [termsReal]

theorem termsReal_addTerm (r c : ℚ) (l : List (ℚ × ℚ)) :
    termsReal (addTerm r c l) = c * (2 : ℝ) ^ (r : ℝ) + termsReal l := by
  induction l with
  | nil => unfold addTerm; split_ifs with h <;> simp [h]
  | cons t l ih =>
    obtain ⟨s, d⟩ := t
    unfold addTerm
    split_ifs with h1 h2 h3 h4
    · simp [h2]
    · simp
    · subst h3
      have : (d : ℝ) = -c := by have := h4; rw [eq_neg_iff_add_eq_zero, add_comm]; exact_mod_cast this
      simp [this]
    · subst h3; simp; ring
    · simp [ih]; ring

@[simp] theorem termsReal_addPower (r c : ℚ) (l : List (ℚ × ℚ)) :
    termsReal (addPower r c l) = c * (2 : ℝ) ^ (r : ℝ) + termsReal l := by
  have h : (2 : ℝ) ^ (r : ℝ) = 2 ^ ⌊r⌋ * (2 : ℝ) ^ ((r - ⌊r⌋ : ℚ) : ℝ) := by
    rw [← Real.rpow_intCast, ← Real.rpow_add (by norm_num)]
    congr 1; push_cast; ring
  rw [addPower, termsReal_addTerm, h]
  push_cast; ring

@[simp] theorem toReal_zero : PowerSum.zero.toReal = 0 := termsReal_nil
@[simp] theorem toReal_power (r c : ℚ) : (PowerSum.power r c).toReal = c * (2 : ℝ) ^ (r : ℝ) := by
  simp [PowerSum.power, PowerSum.toReal]
@[simp] theorem toReal_ofRat (q : ℚ) : (PowerSum.ofRat q).toReal = q := by simp [PowerSum.ofRat]

@[simp] theorem toReal_add (a b : PowerSum) : (a.add b).toReal = a.toReal + b.toReal := by
  have h : ∀ l m : List (ℚ × ℚ), termsReal (l.foldr (fun t l => addPower t.1 t.2 l) m) = termsReal l + termsReal m := by
    intro l m
    induction l with
    | nil => simp
    | cons t l ih => rw [List.foldr_cons, termsReal_addPower, ih, termsReal_cons]; ring
  exact h a.terms b.terms

@[simp] theorem toReal_normal (a : PowerSum) : a.normal.toReal = a.toReal := by
  have := toReal_add a .zero
  rw [toReal_zero, add_zero] at this
  exact this

@[simp] theorem toReal_neg (a : PowerSum) : a.neg.toReal = -a.toReal := by
  have h : ∀ l : List (ℚ × ℚ), termsReal (l.map fun t => (t.1, -t.2)) = -termsReal l := by
    intro l
    induction l with
    | nil => simp
    | cons t l ih => rw [List.map_cons, termsReal_cons, ih, termsReal_cons]; push_cast; ring
  exact h a.terms

@[simp] theorem toReal_mul (a b : PowerSum) : (a.mul b).toReal = a.toReal * b.toReal := by
  have h1 : ∀ (t : ℚ × ℚ) (l m : List (ℚ × ℚ)),
      termsReal (m.foldr (fun u l => addPower (t.1 + u.1) (t.2 * u.2) l) l) =
        t.2 * (2 : ℝ) ^ (t.1 : ℝ) * termsReal m + termsReal l := by
    intro t l m
    induction m with
    | nil => simp
    | cons u m ih =>
      rw [List.foldr_cons, termsReal_addPower, ih, termsReal_cons]
      push_cast
      rw [Real.rpow_add (by norm_num)]; ring
  have h2 : ∀ l m : List (ℚ × ℚ),
      termsReal (l.foldr (fun t l => m.foldr (fun u l => addPower (t.1 + u.1) (t.2 * u.2) l) l) []) =
        termsReal l * termsReal m := by
    intro l m
    induction l with
    | nil => simp
    | cons t l ih => rw [List.foldr_cons, h1, ih, termsReal_cons]; ring
  exact h2 a.terms b.terms

/-- What a number that is one power's multiple is. -/
theorem toReal_of_single {a : PowerSum} {r c : ℚ} (h : a.single = some (r, c)) :
    a.toReal = c * (2 : ℝ) ^ (r : ℝ) := by
  obtain ⟨l⟩ := a
  unfold PowerSum.toReal
  match l, h with
  | [], h => cases h; simp
  | [t], h => cases h; simp

/-- Division by one power's multiple other than zero. -/
theorem toReal_div {a b : PowerSum} {r c : ℚ} (h : b.single = some (r, c)) (hc : c ≠ 0) :
    (a.div b).toReal = a.toReal / b.toReal := by
  unfold PowerSum.div
  simp only [h, if_neg hc, toReal_mul, toReal_power, toReal_of_single h]
  have : (c : ℝ) ≠ 0 := by exact_mod_cast hc
  push_cast
  rw [Real.rpow_neg (by norm_num)]
  field_simp

theorem positivePowerLe_iff {r c s d : ℚ} (hc : 0 < c) (hd : 0 < d) :
    positivePowerLe r c s d = true ↔ (c : ℝ) * (2 : ℝ) ^ (r : ℝ) ≤ d * (2 : ℝ) ^ (s : ℝ) := by
  have hc' : (0 : ℝ) < c := by exact_mod_cast hc
  have hd' : (0 : ℝ) < d := by exact_mod_cast hd
  have hq : (r - s).den ≠ 0 := (r - s).den_nz
  have e1 : ((2 : ℝ) ^ ((r - s : ℚ) : ℝ)) ^ (r - s).den = 2 ^ (r - s).num := by
    rw [← Real.rpow_natCast, ← Real.rpow_mul (by norm_num), ← Real.rpow_intCast]
    congr 1
    exact_mod_cast Rat.mul_den_eq_num (r - s)
  have e2 : (2 : ℝ) ^ (r : ℝ) = (2 : ℝ) ^ ((r - s : ℚ) : ℝ) * (2 : ℝ) ^ (s : ℝ) := by
    rw [← Real.rpow_add (by norm_num)]; congr 1; push_cast; ring
  have hs : (0 : ℝ) < (2 : ℝ) ^ (s : ℝ) := by positivity
  rw [e2, ← mul_assoc, mul_le_mul_iff_left₀ hs, mul_comm, ← le_div_iff₀ hc',
    ← pow_le_pow_iff_left₀ (by positivity) (by positivity) hq, e1]
  unfold positivePowerLe
  rw [decide_eq_true_eq]
  rw [← Rat.cast_div, ← Rat.cast_pow, show (2 : ℝ) ^ (r - s).num = (((2 : ℚ) ^ (r - s).num : ℚ) : ℝ) by push_cast; rfl,
    Rat.cast_le]

theorem powerLe_iff (r c s d : ℚ) :
    powerLe r c s d = true ↔ (c : ℝ) * (2 : ℝ) ^ (r : ℝ) ≤ d * (2 : ℝ) ^ (s : ℝ) := by
  have hr : (0 : ℝ) < (2 : ℝ) ^ (r : ℝ) := by positivity
  have hs : (0 : ℝ) < (2 : ℝ) ^ (s : ℝ) := by positivity
  unfold powerLe
  split_ifs with h1 h2 h3
  · have hc : (c : ℝ) ≤ 0 := by exact_mod_cast h1.1
    have hd : (0 : ℝ) ≤ d := by exact_mod_cast h1.2
    simp only [true_iff]
    nlinarith [mul_nonneg hd hs.le, mul_nonneg (neg_nonneg.2 hc) hr.le]
  · have hc : (0 : ℝ) ≤ c := by exact_mod_cast h2.1
    have hd : (d : ℝ) ≤ 0 := by exact_mod_cast h2.2
    simp only [false_iff, not_le]
    rcases lt_or_eq_of_le h2.1 with h | h
    · have : (0 : ℝ) < c := by exact_mod_cast h
      nlinarith [mul_pos this hr, mul_nonneg (neg_nonneg.2 hd) hs.le]
    · have hd2 : d < 0 := lt_of_not_ge fun h' => h1 ⟨h.symm.le, h'⟩
      have : (d : ℝ) < 0 := by exact_mod_cast hd2
      nlinarith [mul_pos (neg_pos.2 this) hs, mul_nonneg hc hr.le]
  · exact positivePowerLe_iff h3 (lt_of_not_ge fun h => h2 ⟨h3.le, h⟩)
  · have hd : d < 0 := lt_of_not_ge fun h => h1 ⟨not_lt.1 h3, h⟩
    have hc : c < 0 := lt_of_not_ge fun h => h2 ⟨h, hd.le⟩
    rw [positivePowerLe_iff (by linarith) (by linarith)]
    push_cast
    constructor <;> intro h <;> linarith

/-- The order is that of the reals between one power's multiples. -/
theorem le_of_single {a b : PowerSum} {t u : ℚ × ℚ} (ha : a.single = some t) (hb : b.single = some u) :
    a.le b = true ↔ a.toReal ≤ b.toReal := by
  unfold PowerSum.le
  rw [ha, hb, toReal_of_single ha, toReal_of_single hb]
  exact powerLe_iff _ _ _ _

/-! ### One power's multiples -/

theorem terms_power (r c : ℚ) : (PowerSum.power r c).terms = if c = 0 then [] else [(r - ⌊r⌋, c * 2 ^ ⌊r⌋)] := by
  have : (2 : ℚ) ^ ⌊r⌋ ≠ 0 := zpow_ne_zero _ (by norm_num)
  simp [PowerSum.power, addPower, addTerm, this]

theorem terms_ofRat (q : ℚ) : (PowerSum.ofRat q).terms = if q = 0 then [] else [(0, q)] := by
  rw [PowerSum.ofRat, terms_power]; simp

@[simp] theorem ofRat_zero : PowerSum.ofRat 0 = .zero := by
  have := terms_ofRat 0
  cases h : PowerSum.ofRat 0
  simp_all [PowerSum.zero]

@[simp] theorem single_ofRat (q : ℚ) : (PowerSum.ofRat q).single = some (0, q) := by
  unfold PowerSum.single
  rw [terms_ofRat]
  by_cases h : q = 0 <;> simp [h]

@[simp] theorem toRat?_ofRat (q : ℚ) : (PowerSum.ofRat q).toRat? = some q := by
  simp [PowerSum.toRat?]

/-- A power's multiple is one. -/
theorem single_power (r c : ℚ) : ∃ t, (PowerSum.power r c).single = some t := by
  unfold PowerSum.single
  rw [terms_power]
  by_cases h : c = 0 <;> simp [h]

/-- The product of one power's multiples is one. -/
theorem single_mul {a b : PowerSum} (ha : ∃ t, a.single = some t) (hb : ∃ t, b.single = some t) :
    ∃ t, (a.mul b).single = some t := by
  obtain ⟨l⟩ := a
  obtain ⟨m⟩ := b
  match l, m, ha, hb with
  | [], m, _, _ => exact ⟨_, rfl⟩
  | [t], [], _, _ => exact ⟨_, rfl⟩
  | [t], [u], _, _ => exact single_power _ _
  | _ :: _ :: _, _, ha, _ => obtain ⟨_, h⟩ := ha; cases h
  | [_], _ :: _ :: _, _, hb => obtain ⟨_, h⟩ := hb; cases h

/-- Rationals are added as rationals. -/
@[simp] theorem ofRat_add (p q : ℚ) : (PowerSum.ofRat p).add (.ofRat q) = .ofRat (p + q) := by
  have h : ((PowerSum.ofRat p).add (.ofRat q)).terms = (PowerSum.ofRat (p + q)).terms := by
    unfold PowerSum.add
    simp only [terms_ofRat]
    by_cases hp : p = 0 <;> by_cases hq : q = 0 <;> simp [hp, hq, addPower, addTerm, add_comm]
  exact congrArg PowerSum.mk h

@[simp] theorem ofRat_neg (q : ℚ) : (PowerSum.ofRat q).neg = .ofRat (-q) := by
  have h : (PowerSum.ofRat q).neg.terms = (PowerSum.ofRat (-q)).terms := by
    unfold PowerSum.neg
    simp only [terms_ofRat]
    by_cases hq : q = 0 <;> simp [hq]
  exact congrArg PowerSum.mk h

/-- Rationals are multiplied as rationals. -/
@[simp] theorem ofRat_mul (p q : ℚ) : (PowerSum.ofRat p).mul (.ofRat q) = .ofRat (p * q) := by
  have h : ((PowerSum.ofRat p).mul (.ofRat q)).terms = (PowerSum.ofRat (p * q)).terms := by
    unfold PowerSum.mul
    simp only [terms_ofRat]
    by_cases hp : p = 0 <;> by_cases hq : q = 0 <;> simp [hp, hq, addPower, addTerm]
  exact congrArg PowerSum.mk h

/-- Rationals are divided as rationals. -/
theorem ofRat_div (p : ℚ) {q : ℚ} (hq : q ≠ 0) : (PowerSum.ofRat p).div (.ofRat q) = .ofRat (p / q) := by
  unfold PowerSum.div
  rw [single_ofRat]
  simp only [if_neg hq, neg_zero]
  exact (ofRat_mul _ _).trans (by rw [mul_one_div])

/-- Rationals are compared as rationals. -/
@[simp] theorem ofRat_le (p q : ℚ) : (PowerSum.ofRat p).le (.ofRat q) = decide (p ≤ q) := by
  rw [Bool.eq_iff_iff, le_of_single (single_ofRat p) (single_ofRat q)]
  simp

/-! ### The canonical form is kept -/

/-- The terms stand in canonical form. -/
def TermsWf (l : List (ℚ × ℚ)) : Prop :=
  (∀ t ∈ l, 0 ≤ t.1 ∧ t.1 < 1 ∧ t.2 ≠ 0) ∧ l.Pairwise fun t u => t.1 < u.1

theorem wf_iff (a : PowerSum) : a.wf = true ↔ TermsWf a.terms := by
  simp [PowerSum.wf, TermsWf, and_assoc]

/-- What stands in the terms after one is added. -/
theorem mem_addTerm {r c : ℚ} {l : List (ℚ × ℚ)} {u : ℚ × ℚ} (h : u ∈ addTerm r c l) : (u.1 = r ∧ u.2 ≠ 0) ∨ u ∈ l := by
  induction l with
  | nil =>
    unfold addTerm at h
    split_ifs at h with hc
    · cases h
    · rw [List.mem_singleton.1 h]; exact .inl ⟨rfl, hc⟩
  | cons t l ih =>
    obtain ⟨s, d⟩ := t
    unfold addTerm at h
    split_ifs at h with h1 h2 h3 h4
    · exact .inr h
    · rcases List.mem_cons.1 h with rfl | h
      · exact .inl ⟨rfl, h2⟩
      · exact .inr h
    · exact .inr (List.mem_cons_of_mem _ h)
    · rcases List.mem_cons.1 h with rfl | h
      · exact .inl ⟨h3.symm, h4⟩
      · exact .inr (List.mem_cons_of_mem _ h)
    · rcases List.mem_cons.1 h with rfl | h
      · exact .inr List.mem_cons_self
      · exact (ih h).imp_right (List.mem_cons_of_mem _)

theorem pairwise_addTerm {r c : ℚ} {l : List (ℚ × ℚ)} (h : l.Pairwise fun t u => t.1 < u.1) :
    (addTerm r c l).Pairwise fun t u => t.1 < u.1 := by
  induction l with
  | nil => unfold addTerm; split_ifs <;> simp
  | cons t l ih =>
    obtain ⟨s, d⟩ := t
    obtain ⟨hl, hp⟩ := List.pairwise_cons.1 h
    unfold addTerm
    split_ifs with h1 h2 h3 h4
    · exact h
    · refine List.pairwise_cons.2 ⟨fun u hu => ?_, h⟩
      rcases List.mem_cons.1 hu with rfl | hu
      · exact h1
      · exact h1.trans (hl u hu)
    · exact hp
    · exact List.pairwise_cons.2 ⟨hl, hp⟩
    · refine List.pairwise_cons.2 ⟨fun u hu => ?_, ih hp⟩
      rcases mem_addTerm hu with ⟨hu, -⟩ | hu
      · exact hu ▸ lt_of_le_of_ne (not_lt.1 h1) (Ne.symm h3)
      · exact hl u hu

theorem TermsWf.addPower (r c : ℚ) {l : List (ℚ × ℚ)} (h : TermsWf l) : TermsWf (addPower r c l) := by
  refine ⟨fun u hu => ?_, pairwise_addTerm h.2⟩
  rcases mem_addTerm hu with ⟨h1, h2⟩ | hu
  · exact ⟨by linarith [Int.floor_le r], by linarith [Int.lt_floor_add_one r], h2⟩
  · exact h.1 u hu

/-- Adding any powers keeps the canonical form. -/
theorem TermsWf.foldr {l m : List (ℚ × ℚ)} (h : TermsWf m) :
    TermsWf (l.foldr (fun t l => Machine.addPower t.1 t.2 l) m) := by
  induction l with
  | nil => exact h
  | cons t l ih => exact ih.addPower _ _

theorem termsWf_nil : TermsWf [] := ⟨by simp, by simp⟩

@[simp] theorem wf_zero : PowerSum.zero.wf = true := by decide
@[simp] theorem wf_power (r c : ℚ) : (PowerSum.power r c).wf = true := (wf_iff _).2 (termsWf_nil.addPower r c)
@[simp] theorem wf_ofRat (q : ℚ) : (PowerSum.ofRat q).wf = true := wf_power 0 q
@[simp] theorem wf_normal (a : PowerSum) : a.normal.wf = true := (wf_iff _).2 termsWf_nil.foldr
theorem wf_add (a : PowerSum) {b : PowerSum} (h : b.wf = true) : (a.add b).wf = true :=
  (wf_iff _).2 ((wf_iff _).1 h).foldr

theorem wf_neg {a : PowerSum} (h : a.wf = true) : a.neg.wf = true := by
  obtain ⟨h1, h2⟩ := (wf_iff _).1 h
  refine (wf_iff _).2 ⟨?_, List.pairwise_map.2 h2⟩
  intro t ht
  obtain ⟨u, hu, rfl⟩ := List.mem_map.1 ht
  exact ⟨(h1 u hu).1, (h1 u hu).2.1, neg_ne_zero.2 (h1 u hu).2.2⟩

@[simp] theorem wf_mul (a b : PowerSum) : (a.mul b).wf = true := by
  refine (wf_iff _).2 ?_
  show TermsWf (a.terms.foldr _ [])
  induction a.terms with
  | nil => exact termsWf_nil
  | cons t l ih =>
    rw [List.foldr_cons]
    generalize List.foldr _ [] l = m at ih ⊢
    induction b.terms with
    | nil => exact ih
    | cons u k ihk => exact ihk.addPower _ _

@[simp] theorem wf_div (a b : PowerSum) : (a.div b).wf = true := by
  unfold PowerSum.div
  split
  · split_ifs <;> simp
  · simp

/-! ### The implementation's own `EXP2` -/

/-- One power's multiple in canonical form: what a rule may compare. -/
def Comparable (a : PowerSum) : Prop := (∃ t, a.single = some t) ∧ a.wf = true

theorem comparable_power (r c : ℚ) : Comparable (.power r c) := ⟨single_power r c, wf_power r c⟩
theorem comparable_ofRat (q : ℚ) : Comparable (.ofRat q) := comparable_power 0 q
theorem comparable_zero : Comparable .zero := ⟨⟨_, rfl⟩, wf_zero⟩

theorem Comparable.le {a b : PowerSum} (ha : Comparable a) (hb : Comparable b) :
    a.le b = true ↔ a.toReal ≤ b.toReal := by
  obtain ⟨⟨_, h1⟩, -⟩ := ha
  obtain ⟨⟨_, h2⟩, -⟩ := hb
  exact le_of_single h1 h2

theorem Comparable.mul {a b : PowerSum} (ha : Comparable a) (hb : Comparable b) : Comparable (a.mul b) :=
  ⟨single_mul ha.1 hb.1, wf_mul a b⟩

theorem Comparable.max {a b : PowerSum} (ha : Comparable a) (hb : Comparable b) :
    Comparable (a.max b) ∧ (a.max b).toReal = Max.max a.toReal b.toReal := by
  have := ha.le hb
  unfold PowerSum.max
  split_ifs with h
  · exact ⟨hb, (max_eq_right (this.1 h)).symm⟩
  · exact ⟨ha, (max_eq_left (not_le.1 fun h' => h (this.2 h')).le).symm⟩

theorem Comparable.min {a b : PowerSum} (ha : Comparable a) (hb : Comparable b) :
    Comparable (a.min b) ∧ (a.min b).toReal = Min.min a.toReal b.toReal := by
  have := ha.le hb
  unfold PowerSum.min
  split_ifs with h
  · exact ⟨ha, (min_eq_left (this.1 h)).symm⟩
  · exact ⟨hb, (min_eq_right (not_le.1 fun h' => h (this.2 h')).le).symm⟩

/-- The points lie on a non-decreasing function that is not negative. -/
def Rising (g : List (ℚ × PowerSum)) : Prop :=
  (∀ p ∈ g, Comparable p.2 ∧ 0 ≤ p.2.toReal) ∧ ∀ p ∈ g, ∀ q ∈ g, p.1 ≤ q.1 → p.2.toReal ≤ q.2.toReal

/-- A squeezed value lies where a non-decreasing function through the points can be. -/
theorem squeeze_spec {g : List (ℚ × PowerSum)} (h : Rising g) (x : ℚ) {v : PowerSum} (hv : Comparable v)
    (h0 : 0 ≤ v.toReal) :
    (Comparable (squeeze g x v) ∧ 0 ≤ (squeeze g x v).toReal) ∧
    ∀ p ∈ g, (p.1 ≤ x → p.2.toReal ≤ (squeeze g x v).toReal) ∧ (x ≤ p.1 → (squeeze g x v).toReal ≤ p.2.toReal) := by
  induction g with
  | nil => exact ⟨⟨hv, h0⟩, by simp⟩
  | cons q g ih =>
    obtain ⟨⟨i1, i2⟩, i3⟩ := ih ⟨fun a ha => h.1 a (List.mem_cons_of_mem _ ha),
      fun a ha b hb => h.2 a (List.mem_cons_of_mem _ ha) b (List.mem_cons_of_mem _ hb)⟩
    obtain ⟨q1, q2⟩ := h.1 q (by simp)
    have hs : squeeze (q :: g) x v =
        if q.1 = x then q.2 else if q.1 < x then q.2.max (squeeze g x v) else q.2.min (squeeze g x v) := rfl
    have hmax := q1.max i1
    have hmin := q1.min i1
    rw [hs]
    constructor
    · split_ifs
      · exact ⟨q1, q2⟩
      · exact ⟨hmax.1, hmax.2 ▸ le_max_of_le_left q2⟩
      · exact ⟨hmin.1, hmin.2 ▸ le_min q2 i2⟩
    intro p hp
    have hq := h.2 q (by simp) p hp
    have hp' := h.2 p hp q (by simp)
    rcases List.mem_cons.1 hp with rfl | hp
    · split_ifs with h1 h2
      · exact ⟨fun _ => le_rfl, fun _ => le_rfl⟩
      · exact ⟨fun _ => hmax.2 ▸ le_max_left _ _, fun h3 => absurd h2 (not_lt.2 h3)⟩
      · exact ⟨fun h3 => absurd (lt_of_le_of_ne h3 h1) h2, fun _ => hmin.2 ▸ min_le_left _ _⟩
    · obtain ⟨j1, j2⟩ := i3 p hp
      split_ifs with h1 h2
      · exact ⟨fun h3 => hp' (by linarith), fun h3 => hq (by linarith)⟩
      · rw [hmax.2]
        exact ⟨fun h3 => (j1 h3).trans (le_max_right _ _), fun h3 => max_le (hq (by linarith)) (j2 h3)⟩
      · have h4 : x ≤ q.1 := not_lt.1 h2
        rw [hmin.2]
        exact ⟨fun h3 => le_min (hp' (by linarith)) (j1 h3), fun h3 => (min_le_right _ _).trans (j2 h3)⟩

theorem exp2Choose_spec (k : Nat) {g : List (ℚ × PowerSum)} (h : Rising g) (x : ℚ) :
    (Comparable (exp2Choose k g x) ∧ 0 ≤ (exp2Choose k g x).toReal) ∧
    ∀ p ∈ g, (p.1 ≤ x → p.2.toReal ≤ (exp2Choose k g x).toReal) ∧
      (x ≤ p.1 → (exp2Choose k g x).toReal ≤ p.2.toReal) := by
  obtain ⟨h1, h2⟩ := comparable_zero.max (comparable_power (Config.exp2Real k x).1 (Config.exp2Real k x).2)
  exact squeeze_spec h x h1 (h2 ▸ toReal_zero ▸ le_max_left _ _)

theorem exp2IntegerPoints_rising : Rising exp2IntegerPoints := by
  constructor
  · intro p hp
    obtain ⟨i, -, rfl⟩ := List.mem_map.1 hp
    refine ⟨comparable_ofRat _, ?_⟩
    rw [toReal_ofRat]
    positivity
  · intro p hp q hq h
    obtain ⟨i, -, rfl⟩ := List.mem_map.1 hp
    obtain ⟨j, -, rfl⟩ := List.mem_map.1 hq
    rw [toReal_ofRat, toReal_ofRat, Rat.cast_le]
    exact zpow_le_zpow_right₀ (by norm_num) (Int.cast_le.1 h)

theorem exp2Graph_rising (k n : Nat) : Rising (exp2Graph k n) := by
  induction n with
  | zero => exact exp2IntegerPoints_rising
  | succ n ih =>
    unfold exp2Graph
    cases Encodable.decode (α := ℚ) n with
    | none => exact ih
    | some x =>
      have hs := exp2Choose_spec k ih x
      refine ⟨fun p hp => ?_, fun p hp q hq hpq => ?_⟩
      · rcases List.mem_cons.1 hp with rfl | hp
        · exact hs.1
        · exact ih.1 p hp
      · rcases List.mem_cons.1 hp with rfl | hp <;> rcases List.mem_cons.1 hq with rfl | hq
        · exact le_rfl
        · exact (hs.2 q hq).2 hpq
        · exact (hs.2 p hp).1 hpq
        · exact ih.2 p hp q hq hpq

theorem exp2Graph_mono {k n m : Nat} (h : n ≤ m) : ∀ p ∈ exp2Graph k n, p ∈ exp2Graph k m := by
  induction h with
  | refl => exact fun p hp => hp
  | step _ ih =>
    intro p hp
    have := ih p hp
    unfold exp2Graph
    split
    · exact this
    · exact List.mem_cons_of_mem _ this

theorem exp2OtherExact_mem (k : Nat) (x : ℚ) : (x, exp2OtherExact k x) ∈ exp2Graph k (Encodable.encode x + 1) := by
  unfold exp2Graph exp2OtherExact
  rw [Encodable.encodek]
  exact List.mem_cons_self

theorem comparable_exp2Power (c : Exp2Choice) (x : ℚ) : Comparable (exp2Power c x) := by
  cases c with
  | nearest => exact comparable_power x 1
  | other k => exact ((exp2Graph_rising k _).1 _ (exp2OtherExact_mem k x)).1

/-- The default in exact arithmetic is the real power of two (R14). -/
@[simp] theorem toReal_exp2Power_nearest (x : ℚ) : (exp2Power .nearest x).toReal = (2 : ℝ) ^ (x : ℝ) := by
  simp [exp2Power]

/-- EXP2_MONO (R14) in exact arithmetic. -/
theorem exp2Power_mono (c : Exp2Choice) {x y : ℚ} (h : x ≤ y) : (exp2Power c x).toReal ≤ (exp2Power c y).toReal := by
  cases c with
  | nearest =>
    rw [toReal_exp2Power_nearest, toReal_exp2Power_nearest]
    exact Real.rpow_le_rpow_of_exponent_le (by norm_num) (by exact_mod_cast h)
  | other k =>
    exact (exp2Graph_rising k (Max.max (Encodable.encode x + 1) (Encodable.encode y + 1))).2 _
      (exp2Graph_mono (le_max_left _ _) _ (exp2OtherExact_mem k x)) _
      (exp2Graph_mono (le_max_right _ _) _ (exp2OtherExact_mem k y)) h

/-- EXP2_POS (R14) in exact arithmetic. -/
theorem exp2Power_nonneg (c : Exp2Choice) (x : ℚ) : 0 ≤ (exp2Power c x).toReal := by
  cases c with
  | nearest => rw [toReal_exp2Power_nearest]; positivity
  | other k => exact ((exp2Graph_rising k _).1 _ (exp2OtherExact_mem k x)).2

/-- EXP2_INT (R14) in exact arithmetic, and with it EXP2_ZERO. -/
theorem exp2Power_int (c : Exp2Choice) {n : Int} (h1 : -126 ≤ n) (h2 : n ≤ 127) :
    (exp2Power c n).toReal = 2 ^ n := by
  cases c with
  | nearest => rw [toReal_exp2Power_nearest, Rat.cast_intCast, Real.rpow_intCast]
  | other k =>
    have hi : ((n : ℚ), PowerSum.ofRat (2 ^ n)) ∈ exp2IntegerPoints := by
      have hr : (n + 126).toNat < 254 := by omega
      refine List.mem_map.2 ⟨_, List.mem_range.2 hr, ?_⟩
      rw [show (((n + 126).toNat : Nat) : Int) - 126 = n by omega]
    have hm := exp2Graph_mono (k := k) (Nat.zero_le (Encodable.encode (n : ℚ) + 1)) _ hi
    have hr := (exp2Graph_rising k (Encodable.encode (n : ℚ) + 1)).2
    have := le_antisymm (hr _ (exp2OtherExact_mem k n) _ hm le_rfl) (hr _ hm _ (exp2OtherExact_mem k n) le_rfl)
    rw [toReal_ofRat] at this
    push_cast at this
    exact this

/-- `EXP2` keeps the canonical form. -/
@[simp] theorem wf_exp2 (c : Exp2Choice) (a : PowerSum) : (PowerSum.exp2 c a).wf = true := by
  unfold PowerSum.exp2
  split
  · exact (comparable_exp2Power c _).2
  · exact wf_normal _

@[simp] theorem exp2_ofRat (c : Exp2Choice) (x : ℚ) : PowerSum.exp2 c (.ofRat x) = exp2Power c x := by
  simp [PowerSum.exp2]

/-! ### Exact arithmetic as a number format (R13) -/

variable (c : Exp2Choice)

@[simp] theorem power_add : (Num.power c).add = PowerSum.add := rfl
@[simp] theorem power_sub (a b : PowerSum) : (Num.power c).sub a b = a.add b.neg := rfl
@[simp] theorem power_mul : (Num.power c).mul = PowerSum.mul := rfl
@[simp] theorem power_div : (Num.power c).div = PowerSum.div := rfl
@[simp] theorem power_le : (Num.power c).le = PowerSum.le := rfl
@[simp] theorem power_lt (a b : PowerSum) : (Num.power c).lt a b = !(b.le a) := rfl
@[simp] theorem power_ofInt (n : Int) : (Num.power c).ofInt n = .ofRat n := rfl
@[simp] theorem power_exp2 : (Num.power c).exp2 = PowerSum.exp2 c := rfl
@[simp] theorem power_zero : (Num.power c).zero = .ofRat 0 := rfl
@[simp] theorem power_one : (Num.power c).one = .ofRat 1 := rfl
@[simp] theorem power_negOne : (Num.power c).negOne = .ofRat (-1) := rfl
@[simp] theorem power_half : (Num.power c).half = .ofRat (1 / 2) := rfl
@[simp] theorem power_four : (Num.power c).four = .ofRat 4 := rfl
@[simp] theorem power_twelve : (Num.power c).twelve = .ofRat 12 := rfl
@[simp] theorem power_c116 : (Num.power c).c116 = .ofRat (116 / 100) := rfl
@[simp] theorem power_c015 : (Num.power c).c015 = .ofRat (15 / 100) := rfl
@[simp] theorem power_cutLow : (Num.power c).cutLow = .ofRat (1 / 1000) := rfl
@[simp] theorem power_cutHigh : (Num.power c).cutHigh = .ofRat (999 / 1000) := rfl

/-- `clamp` (R19) between comparable numbers. -/
theorem clamp_power {x lo hi : PowerSum} (hx : Comparable x) (hlo : Comparable lo) (hhi : Comparable hi)
    (h : lo.toReal ≤ hi.toReal) :
    Comparable (clamp (Num.power c) x lo hi) ∧
    (clamp (Num.power c) x lo hi).toReal = max lo.toReal (min hi.toReal x.toReal) := by
  have h1 := hlo.le hx
  have h2 := hx.le hhi
  rw [show clamp (Num.power c) x lo hi = if lo.le x then (if x.le hi then x else hi) else lo from rfl]
  split_ifs with h3 h4
  · exact ⟨hx, by rw [min_eq_right (h2.1 h4), max_eq_right (h1.1 h3)]⟩
  · have := not_le.1 fun h' => h4 (h2.2 h')
    exact ⟨hhi, by rw [min_eq_left this.le, max_eq_right h]⟩
  · have := not_le.1 fun h' => h3 (h1.2 h')
    exact ⟨hlo, by rw [max_eq_left ((min_le_right _ _).trans this.le)]⟩

/-- `clamp` of rationals is a rational. -/
theorem clamp_ofRat (x : ℚ) {lo hi : ℚ} (h : lo ≤ hi) :
    clamp (Num.power c) (.ofRat x) (.ofRat lo) (.ofRat hi) = .ofRat (max lo (min hi x)) := by
  simp only [clamp, power_le, ofRat_le, decide_eq_true_eq]
  split_ifs with h1 h2
  · rw [min_eq_right h2, max_eq_right h1]
  · rw [min_eq_left (by linarith), max_eq_right h]
  · rw [max_eq_left (le_trans (min_le_right _ _) (by linarith))]

end Sys2Proof.Machine
end

