-- ==== Sys2Proof/Laws/Memory.lean ====
section
/-! SUPPORT. The buffers (20_memory.md R50, R55): a read after a write, the canonical form and that it is one. -/

namespace Sys2Proof.Machine

variable {α : Type} [Inhabited α]

@[simp] theorem memory_read_nil (i : Nat) : Memory.read ([] : Memory α) i = default := rfl

variable [DecidableEq α]

/-- A write leaves every other word as it was, in any buffer. -/
theorem memory_read_write_ne {m : Memory α} {i j : Nat} {w : α} (h : j ≠ i) :
    (Memory.write m i w).read j = m.read j := by
  have hins : ∀ m : Memory α, (Memory.insert i w m).read j = m.read j := by
    intro m
    unfold Memory.insert
    split_ifs
    · rfl
    · simp [Memory.read, h.symm]
  induction m with
  | nil => exact hins []
  | cons p m ih =>
    obtain ⟨a, v⟩ := p
    unfold Memory.write
    split_ifs with h1 h2
    · exact hins _
    · subst h2
      rw [hins]
      simp [Memory.read, h.symm]
    · simp only [Memory.read, ih]

theorem memory_wfFrom_cons {size lo a : Nat} {v : α} {m : Memory α} :
    Memory.wfFrom size lo ((a, v) :: m) = true ↔
      lo ≤ a ∧ a < size ∧ v ≠ default ∧ Memory.wfFrom size (a + 1) m = true := by
  simp only [Memory.wfFrom, Bool.and_eq_true, decide_eq_true_eq, and_assoc]

theorem memory_wfFrom_mono {size : Nat} {m : Memory α} {lo lo' : Nat} (hle : lo' ≤ lo)
    (h : Memory.wfFrom size lo m = true) : Memory.wfFrom size lo' m = true := by
  cases m with
  | nil => rfl
  | cons p m =>
    obtain ⟨a, v⟩ := p
    rw [memory_wfFrom_cons] at h ⊢
    exact ⟨hle.trans h.1, h.2⟩

/-- Below its lower bound a buffer in canonical form has no entry. -/
theorem memory_read_below {size : Nat} {m : Memory α} {lo i : Nat} (h : Memory.wfFrom size lo m = true) (hi : i < lo) :
    m.read i = default := by
  induction m generalizing lo with
  | nil => rfl
  | cons p m ih =>
    obtain ⟨a, v⟩ := p
    rw [memory_wfFrom_cons] at h
    simp only [Memory.read]
    rw [if_neg (by omega), ih h.2.2.2 (by omega)]

/-- Outside the buffer nothing is listed. -/
theorem memory_read_beyond {size : Nat} {m : Memory α} {lo i : Nat} (h : Memory.wfFrom size lo m = true)
    (hi : size ≤ i) : m.read i = default := by
  induction m generalizing lo with
  | nil => rfl
  | cons p m ih =>
    obtain ⟨a, v⟩ := p
    rw [memory_wfFrom_cons] at h
    simp only [Memory.read]
    rw [if_neg (by omega), ih h.2.2.2]

theorem memory_read_insert {size lo i : Nat} {w : α} {m : Memory α} (h : Memory.wfFrom size lo m = true)
    (hi : i < lo) : (Memory.insert i w m).read i = w := by
  unfold Memory.insert
  split_ifs with h1
  · rw [memory_read_below h hi, h1]
  · simp [Memory.read]

theorem memory_wfFrom_insert {size lo i : Nat} {w : α} {m : Memory α} (h : Memory.wfFrom size (i + 1) m = true)
    (hlo : lo ≤ i) (hi : i < size) : Memory.wfFrom size lo (Memory.insert i w m) = true := by
  unfold Memory.insert
  split_ifs with h1
  · exact memory_wfFrom_mono (by omega) h
  · exact memory_wfFrom_cons.2 ⟨hlo, hi, h1, h⟩

/-- A read of the word just written gives it. -/
theorem memory_read_write {size : Nat} {m : Memory α} {i : Nat} {w : α} (h : Memory.wf size m = true) :
    (Memory.write m i w).read i = w := by
  unfold Memory.wf at h
  generalize hlo : (0 : Nat) = lo at h
  clear hlo
  induction m generalizing lo with
  | nil => exact memory_read_insert (size := size) (lo := i + 1) rfl (by omega)
  | cons p m ih =>
    obtain ⟨a, v⟩ := p
    have h' := memory_wfFrom_cons.1 h
    unfold Memory.write
    split_ifs with h1 h2
    · exact memory_read_insert (memory_wfFrom_cons.2 ⟨le_rfl, h'.2⟩) h1
    · subst h2
      exact memory_read_insert h'.2.2.2 (by omega)
    · simp only [Memory.read]
      rw [if_neg (by omega)]
      exact ih _ h'.2.2.2

/-- A write keeps the canonical form. -/
theorem memory_wf_write {size : Nat} {m : Memory α} {i : Nat} (w : α) (h : Memory.wf size m = true) (hi : i < size) :
    Memory.wf size (Memory.write m i w) = true := by
  unfold Memory.wf at h ⊢
  have key : ∀ lo, lo ≤ i → Memory.wfFrom size lo m = true → Memory.wfFrom size lo (Memory.write m i w) = true := by
    clear h
    induction m with
    | nil => intro lo hlo _; exact memory_wfFrom_insert (m := []) rfl hlo hi
    | cons p m ih =>
      obtain ⟨a, v⟩ := p
      intro lo hlo h
      have h' := memory_wfFrom_cons.1 h
      unfold Memory.write
      split_ifs with h1 h2
      · exact memory_wfFrom_insert (memory_wfFrom_cons.2 ⟨by omega, h'.2⟩) hlo hi
      · subst h2
        exact memory_wfFrom_insert h'.2.2.2 hlo hi
      · exact memory_wfFrom_cons.2 ⟨h'.1, h'.2.1, h'.2.2.1, ih _ (by omega) h'.2.2.2⟩
  exact key 0 (Nat.zero_le _) h

/-- The form is canonical: buffers that read the same are the same data. -/
theorem memory_ext {size : Nat} {m m' : Memory α} (h : Memory.wf size m = true) (h' : Memory.wf size m' = true)
    (hr : ∀ i, m.read i = m'.read i) : m = m' := by
  unfold Memory.wf at h h'
  generalize (0 : Nat) = lo at h
  generalize (0 : Nat) = lo' at h'
  induction m generalizing m' lo lo' with
  | nil =>
    cases m' with
    | nil => rfl
    | cons p m' =>
      obtain ⟨a, v⟩ := p
      have := hr a
      simp [Memory.read] at this
      exact absurd this.symm (memory_wfFrom_cons.1 h').2.2.1
  | cons p m ih =>
    obtain ⟨a, v⟩ := p
    have hm := memory_wfFrom_cons.1 h
    cases m' with
    | nil =>
      have := hr a
      simp [Memory.read] at this
      exact absurd this hm.2.2.1
    | cons p' m' =>
      obtain ⟨b, u⟩ := p'
      have hm' := memory_wfFrom_cons.1 h'
      rcases Nat.lt_trichotomy a b with hlt | rfl | hgt
      · have := hr a
        rw [memory_read_below (m := (b, u) :: m') (memory_wfFrom_cons.2 ⟨le_rfl, hm'.2⟩) hlt] at this
        simp [Memory.read] at this
        exact absurd this hm.2.2.1
      · have hv : v = u := by have := hr a; simpa [Memory.read] using this
        subst hv
        congr 1
        refine ih (fun i => ?_) _ hm.2.2.2 _ hm'.2.2.2
        have hi := hr i
        simp only [Memory.read] at hi
        split_ifs at hi with hai
        · subst hai
          rw [memory_read_below hm.2.2.2 (by omega), memory_read_below hm'.2.2.2 (by omega)]
        · exact hi
      · have := hr b
        rw [memory_read_below (m := (a, v) :: m) (memory_wfFrom_cons.2 ⟨le_rfl, hm.2⟩) hgt] at this
        simp [Memory.read] at this
        exact absurd this.symm hm'.2.2.1

/-- An unlisted word reads `0x00000000` (10_state.md R46). -/
@[simp] theorem default_word : (default : Word) = 0 := rfl

/-- An unlisted real reads zero. -/
@[simp] theorem default_powerSum : (default : PowerSum) = .zero := rfl

end Sys2Proof.Machine
end

