-- ==== Sys2Proof/Laws/State.lean ====
section
/-! SUPPORT. One lemma for each field under each update of the state, and the fields of the reset state. -/

namespace Sys2Proof.Machine

variable (s : State)

/-! ### `putEnv` -/

@[simp] theorem putEnv_cfg (e : Env F) : (State.putEnv e s).cfg = s.cfg := rfl
@[simp] theorem putEnv_params (e : Env F) : (State.putEnv e s).params = s.params := rfl
@[simp] theorem putEnv_ladder (e : Env F) : (State.putEnv e s).ladder = s.ladder := rfl
@[simp] theorem putEnv_env (e : Env F) : (State.putEnv e s).env = ⟨e.stage, bitsOfF32 s.nanSeq e.ev, bitsOfF32 (s.nanSeq + 1) e.et, bitsOfF32 (s.nanSeq + 2) e.er⟩ := rfl
@[simp] theorem putEnv_fault (e : Env F) : (State.putEnv e s).fault = s.fault := rfl
@[simp] theorem putEnv_fcode (e : Env F) : (State.putEnv e s).fcode = s.fcode := rfl
@[simp] theorem putEnv_busy (e : Env F) : (State.putEnv e s).busy = s.busy := rfl
@[simp] theorem putEnv_ibuf (e : Env F) : (State.putEnv e s).ibuf = s.ibuf := rfl
@[simp] theorem putEnv_obuf (e : Env F) : (State.putEnv e s).obuf = s.obuf := rfl
@[simp] theorem putEnv_real (e : Env F) : (State.putEnv e s).real = s.real := rfl
@[simp] theorem putEnv_resp (e : Env F) : (State.putEnv e s).resp = s.resp := rfl
@[simp] theorem putEnv_rx (e : Env F) : (State.putEnv e s).rx = s.rx := rfl
@[simp] theorem putEnv_port (e : Env F) : (State.putEnv e s).port = s.port := rfl
@[simp] theorem putEnv_resetIn (e : Env F) : (State.putEnv e s).resetIn = s.resetIn := rfl
@[simp] theorem putEnv_nanSeq (e : Env F) : (State.putEnv e s).nanSeq = s.nanSeq + 3 := rfl

/-! ### `putLadder` -/

@[simp] theorem putLadder_cfg (l : Ladder F) : (State.putLadder l s).cfg = s.cfg := rfl
@[simp] theorem putLadder_params (l : Ladder F) : (State.putLadder l s).params = s.params := rfl
@[simp] theorem putLadder_ladder (l : Ladder F) : (State.putLadder l s).ladder = ⟨bitsOfF32 s.nanSeq l.s1, bitsOfF32 (s.nanSeq + 1) l.s2, bitsOfF32 (s.nanSeq + 2) l.s3, bitsOfF32 (s.nanSeq + 3) l.s4⟩ := rfl
@[simp] theorem putLadder_env (l : Ladder F) : (State.putLadder l s).env = s.env := rfl
@[simp] theorem putLadder_fault (l : Ladder F) : (State.putLadder l s).fault = s.fault := rfl
@[simp] theorem putLadder_fcode (l : Ladder F) : (State.putLadder l s).fcode = s.fcode := rfl
@[simp] theorem putLadder_busy (l : Ladder F) : (State.putLadder l s).busy = s.busy := rfl
@[simp] theorem putLadder_ibuf (l : Ladder F) : (State.putLadder l s).ibuf = s.ibuf := rfl
@[simp] theorem putLadder_obuf (l : Ladder F) : (State.putLadder l s).obuf = s.obuf := rfl
@[simp] theorem putLadder_real (l : Ladder F) : (State.putLadder l s).real = s.real := rfl
@[simp] theorem putLadder_resp (l : Ladder F) : (State.putLadder l s).resp = s.resp := rfl
@[simp] theorem putLadder_rx (l : Ladder F) : (State.putLadder l s).rx = s.rx := rfl
@[simp] theorem putLadder_port (l : Ladder F) : (State.putLadder l s).port = s.port := rfl
@[simp] theorem putLadder_resetIn (l : Ladder F) : (State.putLadder l s).resetIn = s.resetIn := rfl
@[simp] theorem putLadder_nanSeq (l : Ladder F) : (State.putLadder l s).nanSeq = s.nanSeq + 4 := rfl

/-! ### `putSample` -/

@[simp] theorem putSample_cfg (n : Nat) (y : F) : (State.putSample n y s).cfg = s.cfg := rfl
@[simp] theorem putSample_params (n : Nat) (y : F) : (State.putSample n y s).params = s.params := rfl
@[simp] theorem putSample_ladder (n : Nat) (y : F) : (State.putSample n y s).ladder = s.ladder := rfl
@[simp] theorem putSample_env (n : Nat) (y : F) : (State.putSample n y s).env = s.env := rfl
@[simp] theorem putSample_fault (n : Nat) (y : F) : (State.putSample n y s).fault = s.fault := rfl
@[simp] theorem putSample_fcode (n : Nat) (y : F) : (State.putSample n y s).fcode = s.fcode := rfl
@[simp] theorem putSample_busy (n : Nat) (y : F) : (State.putSample n y s).busy = s.busy := rfl
@[simp] theorem putSample_ibuf (n : Nat) (y : F) : (State.putSample n y s).ibuf = s.ibuf := rfl
@[simp] theorem putSample_obuf (n : Nat) (y : F) : (State.putSample n y s).obuf = s.obuf.write n (bitsOfF32 s.nanSeq y) := rfl
@[simp] theorem putSample_real (n : Nat) (y : F) : (State.putSample n y s).real = s.real := rfl
@[simp] theorem putSample_resp (n : Nat) (y : F) : (State.putSample n y s).resp = s.resp := rfl
@[simp] theorem putSample_rx (n : Nat) (y : F) : (State.putSample n y s).rx = s.rx := rfl
@[simp] theorem putSample_port (n : Nat) (y : F) : (State.putSample n y s).port = s.port := rfl
@[simp] theorem putSample_resetIn (n : Nat) (y : F) : (State.putSample n y s).resetIn = s.resetIn := rfl
@[simp] theorem putSample_nanSeq (n : Nat) (y : F) : (State.putSample n y s).nanSeq = s.nanSeq + 1 := rfl

/-! ### `putEnvExact` -/

@[simp] theorem putEnvExact_cfg (e : Env ℚ) : (State.putEnvExact e s).cfg = s.cfg := rfl
@[simp] theorem putEnvExact_params (e : Env ℚ) : (State.putEnvExact e s).params = s.params := rfl
@[simp] theorem putEnvExact_ladder (e : Env ℚ) : (State.putEnvExact e s).ladder = s.ladder := rfl
@[simp] theorem putEnvExact_env (e : Env ℚ) : (State.putEnvExact e s).env = { s.env with stage := e.stage } := rfl
@[simp] theorem putEnvExact_fault (e : Env ℚ) : (State.putEnvExact e s).fault = s.fault := rfl
@[simp] theorem putEnvExact_fcode (e : Env ℚ) : (State.putEnvExact e s).fcode = s.fcode := rfl
@[simp] theorem putEnvExact_busy (e : Env ℚ) : (State.putEnvExact e s).busy = s.busy := rfl
@[simp] theorem putEnvExact_ibuf (e : Env ℚ) : (State.putEnvExact e s).ibuf = s.ibuf := rfl
@[simp] theorem putEnvExact_obuf (e : Env ℚ) : (State.putEnvExact e s).obuf = s.obuf := rfl
@[simp] theorem putEnvExact_real (e : Env ℚ) : (State.putEnvExact e s).real = { s.real with ev := e.ev, et := e.et, er := e.er } := rfl
@[simp] theorem putEnvExact_resp (e : Env ℚ) : (State.putEnvExact e s).resp = s.resp := rfl
@[simp] theorem putEnvExact_rx (e : Env ℚ) : (State.putEnvExact e s).rx = s.rx := rfl
@[simp] theorem putEnvExact_port (e : Env ℚ) : (State.putEnvExact e s).port = s.port := rfl
@[simp] theorem putEnvExact_resetIn (e : Env ℚ) : (State.putEnvExact e s).resetIn = s.resetIn := rfl
@[simp] theorem putEnvExact_nanSeq (e : Env ℚ) : (State.putEnvExact e s).nanSeq = s.nanSeq := rfl

/-! ### `putLadderExact` -/

@[simp] theorem putLadderExact_cfg (l : Ladder PowerSum) : (State.putLadderExact l s).cfg = s.cfg := rfl
@[simp] theorem putLadderExact_params (l : Ladder PowerSum) : (State.putLadderExact l s).params = s.params := rfl
@[simp] theorem putLadderExact_ladder (l : Ladder PowerSum) : (State.putLadderExact l s).ladder = s.ladder := rfl
@[simp] theorem putLadderExact_env (l : Ladder PowerSum) : (State.putLadderExact l s).env = s.env := rfl
@[simp] theorem putLadderExact_fault (l : Ladder PowerSum) : (State.putLadderExact l s).fault = s.fault := rfl
@[simp] theorem putLadderExact_fcode (l : Ladder PowerSum) : (State.putLadderExact l s).fcode = s.fcode := rfl
@[simp] theorem putLadderExact_busy (l : Ladder PowerSum) : (State.putLadderExact l s).busy = s.busy := rfl
@[simp] theorem putLadderExact_ibuf (l : Ladder PowerSum) : (State.putLadderExact l s).ibuf = s.ibuf := rfl
@[simp] theorem putLadderExact_obuf (l : Ladder PowerSum) : (State.putLadderExact l s).obuf = s.obuf := rfl
@[simp] theorem putLadderExact_real (l : Ladder PowerSum) : (State.putLadderExact l s).real = { s.real with ladder := l } := rfl
@[simp] theorem putLadderExact_resp (l : Ladder PowerSum) : (State.putLadderExact l s).resp = s.resp := rfl
@[simp] theorem putLadderExact_rx (l : Ladder PowerSum) : (State.putLadderExact l s).rx = s.rx := rfl
@[simp] theorem putLadderExact_port (l : Ladder PowerSum) : (State.putLadderExact l s).port = s.port := rfl
@[simp] theorem putLadderExact_resetIn (l : Ladder PowerSum) : (State.putLadderExact l s).resetIn = s.resetIn := rfl
@[simp] theorem putLadderExact_nanSeq (l : Ladder PowerSum) : (State.putLadderExact l s).nanSeq = s.nanSeq := rfl

/-! ### `putSampleExact` -/

@[simp] theorem putSampleExact_cfg (n : Nat) (y : PowerSum) : (State.putSampleExact n y s).cfg = s.cfg := rfl
@[simp] theorem putSampleExact_params (n : Nat) (y : PowerSum) : (State.putSampleExact n y s).params = s.params := rfl
@[simp] theorem putSampleExact_ladder (n : Nat) (y : PowerSum) : (State.putSampleExact n y s).ladder = s.ladder := rfl
@[simp] theorem putSampleExact_env (n : Nat) (y : PowerSum) : (State.putSampleExact n y s).env = s.env := rfl
@[simp] theorem putSampleExact_fault (n : Nat) (y : PowerSum) : (State.putSampleExact n y s).fault = s.fault := rfl
@[simp] theorem putSampleExact_fcode (n : Nat) (y : PowerSum) : (State.putSampleExact n y s).fcode = s.fcode := rfl
@[simp] theorem putSampleExact_busy (n : Nat) (y : PowerSum) : (State.putSampleExact n y s).busy = s.busy := rfl
@[simp] theorem putSampleExact_ibuf (n : Nat) (y : PowerSum) : (State.putSampleExact n y s).ibuf = s.ibuf := rfl
@[simp] theorem putSampleExact_obuf (n : Nat) (y : PowerSum) : (State.putSampleExact n y s).obuf = s.obuf := rfl
@[simp] theorem putSampleExact_real (n : Nat) (y : PowerSum) : (State.putSampleExact n y s).real = { s.real with obuf := s.real.obuf.write n y } := rfl
@[simp] theorem putSampleExact_resp (n : Nat) (y : PowerSum) : (State.putSampleExact n y s).resp = s.resp := rfl
@[simp] theorem putSampleExact_rx (n : Nat) (y : PowerSum) : (State.putSampleExact n y s).rx = s.rx := rfl
@[simp] theorem putSampleExact_port (n : Nat) (y : PowerSum) : (State.putSampleExact n y s).port = s.port := rfl
@[simp] theorem putSampleExact_resetIn (n : Nat) (y : PowerSum) : (State.putSampleExact n y s).resetIn = s.resetIn := rfl
@[simp] theorem putSampleExact_nanSeq (n : Nat) (y : PowerSum) : (State.putSampleExact n y s).nanSeq = s.nanSeq := rfl

/-! ### `putInput` -/

@[simp] theorem putInput_cfg (i : Nat) (w : Word) : (State.putInput i w s).cfg = s.cfg := rfl
@[simp] theorem putInput_params (i : Nat) (w : Word) : (State.putInput i w s).params = s.params := rfl
@[simp] theorem putInput_ladder (i : Nat) (w : Word) : (State.putInput i w s).ladder = s.ladder := rfl
@[simp] theorem putInput_env (i : Nat) (w : Word) : (State.putInput i w s).env = s.env := rfl
@[simp] theorem putInput_fault (i : Nat) (w : Word) : (State.putInput i w s).fault = s.fault := rfl
@[simp] theorem putInput_fcode (i : Nat) (w : Word) : (State.putInput i w s).fcode = s.fcode := rfl
@[simp] theorem putInput_busy (i : Nat) (w : Word) : (State.putInput i w s).busy = s.busy := rfl
@[simp] theorem putInput_ibuf (i : Nat) (w : Word) : (State.putInput i w s).ibuf = s.ibuf.write i w := rfl
@[simp] theorem putInput_obuf (i : Nat) (w : Word) : (State.putInput i w s).obuf = s.obuf := rfl
@[simp] theorem putInput_real (i : Nat) (w : Word) : (State.putInput i w s).real = s.real := rfl
@[simp] theorem putInput_resp (i : Nat) (w : Word) : (State.putInput i w s).resp = s.resp := rfl
@[simp] theorem putInput_rx (i : Nat) (w : Word) : (State.putInput i w s).rx = s.rx := rfl
@[simp] theorem putInput_port (i : Nat) (w : Word) : (State.putInput i w s).port = s.port := rfl
@[simp] theorem putInput_resetIn (i : Nat) (w : Word) : (State.putInput i w s).resetIn = s.resetIn := rfl
@[simp] theorem putInput_nanSeq (i : Nat) (w : Word) : (State.putInput i w s).nanSeq = s.nanSeq := rfl

/-! ### `respond` -/

@[simp] theorem respond_cfg (w : Word) : (State.respond w s).cfg = s.cfg := rfl
@[simp] theorem respond_params (w : Word) : (State.respond w s).params = s.params := rfl
@[simp] theorem respond_ladder (w : Word) : (State.respond w s).ladder = s.ladder := rfl
@[simp] theorem respond_env (w : Word) : (State.respond w s).env = s.env := rfl
@[simp] theorem respond_fault (w : Word) : (State.respond w s).fault = s.fault := rfl
@[simp] theorem respond_fcode (w : Word) : (State.respond w s).fcode = s.fcode := rfl
@[simp] theorem respond_busy (w : Word) : (State.respond w s).busy = s.busy := rfl
@[simp] theorem respond_ibuf (w : Word) : (State.respond w s).ibuf = s.ibuf := rfl
@[simp] theorem respond_obuf (w : Word) : (State.respond w s).obuf = s.obuf := rfl
@[simp] theorem respond_real (w : Word) : (State.respond w s).real = s.real := rfl
@[simp] theorem respond_resp (w : Word) : (State.respond w s).resp = s.resp ++ [w] := rfl
@[simp] theorem respond_rx (w : Word) : (State.respond w s).rx = s.rx := rfl
@[simp] theorem respond_port (w : Word) : (State.respond w s).port = s.port := rfl
@[simp] theorem respond_resetIn (w : Word) : (State.respond w s).resetIn = s.resetIn := rfl
@[simp] theorem respond_nanSeq (w : Word) : (State.respond w s).nanSeq = s.nanSeq := rfl

/-! ### `raiseFault` -/

@[simp] theorem raiseFault_cfg (code : FaultCode) : (State.raiseFault code s).cfg = s.cfg := rfl
@[simp] theorem raiseFault_params (code : FaultCode) : (State.raiseFault code s).params = s.params := rfl
@[simp] theorem raiseFault_ladder (code : FaultCode) : (State.raiseFault code s).ladder = s.ladder := rfl
@[simp] theorem raiseFault_env (code : FaultCode) : (State.raiseFault code s).env = s.env := rfl
@[simp] theorem raiseFault_fault (code : FaultCode) : (State.raiseFault code s).fault = true := rfl
@[simp] theorem raiseFault_fcode (code : FaultCode) : (State.raiseFault code s).fcode = code := rfl
@[simp] theorem raiseFault_busy (code : FaultCode) : (State.raiseFault code s).busy = s.busy := rfl
@[simp] theorem raiseFault_ibuf (code : FaultCode) : (State.raiseFault code s).ibuf = s.ibuf := rfl
@[simp] theorem raiseFault_obuf (code : FaultCode) : (State.raiseFault code s).obuf = s.obuf := rfl
@[simp] theorem raiseFault_real (code : FaultCode) : (State.raiseFault code s).real = s.real := rfl
@[simp] theorem raiseFault_resp (code : FaultCode) : (State.raiseFault code s).resp = s.resp := rfl
@[simp] theorem raiseFault_rx (code : FaultCode) : (State.raiseFault code s).rx = s.rx := rfl
@[simp] theorem raiseFault_port (code : FaultCode) : (State.raiseFault code s).port = s.port := rfl
@[simp] theorem raiseFault_resetIn (code : FaultCode) : (State.raiseFault code s).resetIn = s.resetIn := rfl
@[simp] theorem raiseFault_nanSeq (code : FaultCode) : (State.raiseFault code s).nanSeq = s.nanSeq := rfl

/-! ### `taken` -/

@[simp] theorem taken_cfg (rest : List Word) : (State.taken rest s).cfg = s.cfg := rfl
@[simp] theorem taken_params (rest : List Word) : (State.taken rest s).params = s.params := rfl
@[simp] theorem taken_ladder (rest : List Word) : (State.taken rest s).ladder = s.ladder := rfl
@[simp] theorem taken_env (rest : List Word) : (State.taken rest s).env = s.env := rfl
@[simp] theorem taken_fault (rest : List Word) : (State.taken rest s).fault = s.fault := rfl
@[simp] theorem taken_fcode (rest : List Word) : (State.taken rest s).fcode = s.fcode := rfl
@[simp] theorem taken_busy (rest : List Word) : (State.taken rest s).busy = s.busy := rfl
@[simp] theorem taken_ibuf (rest : List Word) : (State.taken rest s).ibuf = s.ibuf := rfl
@[simp] theorem taken_obuf (rest : List Word) : (State.taken rest s).obuf = s.obuf := rfl
@[simp] theorem taken_real (rest : List Word) : (State.taken rest s).real = s.real := rfl
@[simp] theorem taken_resp (rest : List Word) : (State.taken rest s).resp = s.resp := rfl
@[simp] theorem taken_rx (rest : List Word) : (State.taken rest s).rx = [] := rfl
@[simp] theorem taken_port (rest : List Word) : (State.taken rest s).port = rest := rfl
@[simp] theorem taken_resetIn (rest : List Word) : (State.taken rest s).resetIn = s.resetIn := rfl
@[simp] theorem taken_nanSeq (rest : List Word) : (State.taken rest s).nanSeq = s.nanSeq := rfl

/-! ### `await` -/

@[simp] theorem await_cfg : (State.await s).cfg = s.cfg := rfl
@[simp] theorem await_params : (State.await s).params = s.params := rfl
@[simp] theorem await_ladder : (State.await s).ladder = s.ladder := rfl
@[simp] theorem await_env : (State.await s).env = s.env := rfl
@[simp] theorem await_fault : (State.await s).fault = s.fault := rfl
@[simp] theorem await_fcode : (State.await s).fcode = s.fcode := rfl
@[simp] theorem await_busy : (State.await s).busy = s.busy := rfl
@[simp] theorem await_ibuf : (State.await s).ibuf = s.ibuf := rfl
@[simp] theorem await_obuf : (State.await s).obuf = s.obuf := rfl
@[simp] theorem await_real : (State.await s).real = s.real := rfl
@[simp] theorem await_resp : (State.await s).resp = s.resp := rfl
@[simp] theorem await_rx : (State.await s).rx = s.rx ++ s.port := rfl
@[simp] theorem await_port : (State.await s).port = [] := rfl
@[simp] theorem await_resetIn : (State.await s).resetIn = s.resetIn := rfl
@[simp] theorem await_nanSeq : (State.await s).nanSeq = s.nanSeq := rfl

/-! ### `discard` -/

@[simp] theorem discard_cfg : (State.discard s).cfg = s.cfg := rfl
@[simp] theorem discard_params : (State.discard s).params = s.params := rfl
@[simp] theorem discard_ladder : (State.discard s).ladder = s.ladder := rfl
@[simp] theorem discard_env : (State.discard s).env = s.env := rfl
@[simp] theorem discard_fault : (State.discard s).fault = s.fault := rfl
@[simp] theorem discard_fcode : (State.discard s).fcode = s.fcode := rfl
@[simp] theorem discard_busy : (State.discard s).busy = s.busy := rfl
@[simp] theorem discard_ibuf : (State.discard s).ibuf = s.ibuf := rfl
@[simp] theorem discard_obuf : (State.discard s).obuf = s.obuf := rfl
@[simp] theorem discard_real : (State.discard s).real = s.real := rfl
@[simp] theorem discard_resp : (State.discard s).resp = s.resp := rfl
@[simp] theorem discard_rx : (State.discard s).rx = s.rx := rfl
@[simp] theorem discard_port : (State.discard s).port = [] := rfl
@[simp] theorem discard_resetIn : (State.discard s).resetIn = s.resetIn := rfl
@[simp] theorem discard_nanSeq : (State.discard s).nanSeq = s.nanSeq := rfl

/-! ### `illegalHeader` -/

@[simp] theorem illegalHeader_cfg (rest : List Word) : (State.illegalHeader rest s).cfg = s.cfg := rfl
@[simp] theorem illegalHeader_params (rest : List Word) : (State.illegalHeader rest s).params = s.params := rfl
@[simp] theorem illegalHeader_ladder (rest : List Word) : (State.illegalHeader rest s).ladder = s.ladder := rfl
@[simp] theorem illegalHeader_env (rest : List Word) : (State.illegalHeader rest s).env = s.env := rfl
@[simp] theorem illegalHeader_fault (rest : List Word) : (State.illegalHeader rest s).fault = true := rfl
@[simp] theorem illegalHeader_fcode (rest : List Word) : (State.illegalHeader rest s).fcode = .illegalCommand := rfl
@[simp] theorem illegalHeader_busy (rest : List Word) : (State.illegalHeader rest s).busy = s.busy := rfl
@[simp] theorem illegalHeader_ibuf (rest : List Word) : (State.illegalHeader rest s).ibuf = s.ibuf := rfl
@[simp] theorem illegalHeader_obuf (rest : List Word) : (State.illegalHeader rest s).obuf = s.obuf := rfl
@[simp] theorem illegalHeader_real (rest : List Word) : (State.illegalHeader rest s).real = s.real := rfl
@[simp] theorem illegalHeader_resp (rest : List Word) : (State.illegalHeader rest s).resp = s.resp := rfl
@[simp] theorem illegalHeader_rx (rest : List Word) : (State.illegalHeader rest s).rx = [] := rfl
@[simp] theorem illegalHeader_port (rest : List Word) : (State.illegalHeader rest s).port = rest := rfl
@[simp] theorem illegalHeader_resetIn (rest : List Word) : (State.illegalHeader rest s).resetIn = s.resetIn := rfl
@[simp] theorem illegalHeader_nanSeq (rest : List Word) : (State.illegalHeader rest s).nanSeq = s.nanSeq := rfl

/-! ### `offering` -/

@[simp] theorem offering_cfg (ws : List Word) : (State.offering ws s).cfg = s.cfg := rfl
@[simp] theorem offering_params (ws : List Word) : (State.offering ws s).params = s.params := rfl
@[simp] theorem offering_ladder (ws : List Word) : (State.offering ws s).ladder = s.ladder := rfl
@[simp] theorem offering_env (ws : List Word) : (State.offering ws s).env = s.env := rfl
@[simp] theorem offering_fault (ws : List Word) : (State.offering ws s).fault = false := rfl
@[simp] theorem offering_fcode (ws : List Word) : (State.offering ws s).fcode = s.fcode := rfl
@[simp] theorem offering_busy (ws : List Word) : (State.offering ws s).busy = false := rfl
@[simp] theorem offering_ibuf (ws : List Word) : (State.offering ws s).ibuf = s.ibuf := rfl
@[simp] theorem offering_obuf (ws : List Word) : (State.offering ws s).obuf = s.obuf := rfl
@[simp] theorem offering_real (ws : List Word) : (State.offering ws s).real = s.real := rfl
@[simp] theorem offering_resp (ws : List Word) : (State.offering ws s).resp = s.resp := rfl
@[simp] theorem offering_rx (ws : List Word) : (State.offering ws s).rx = [] := rfl
@[simp] theorem offering_port (ws : List Word) : (State.offering ws s).port = ws := rfl
@[simp] theorem offering_resetIn (ws : List Word) : (State.offering ws s).resetIn = false := rfl
@[simp] theorem offering_nanSeq (ws : List Word) : (State.offering ws s).nanSeq = s.nanSeq := rfl

/-! ### `resetEvent` -/

@[simp] theorem resetEvent_cfg : (State.resetEvent s).cfg = s.cfg := rfl
@[simp] theorem resetEvent_params : (State.resetEvent s).params = s.cfg.resetParams := rfl
@[simp] theorem resetEvent_ladder : (State.resetEvent s).ladder = ⟨0, 0, 0, 0⟩ := rfl
@[simp] theorem resetEvent_env : (State.resetEvent s).env = ⟨.idle, 0, 0, 0⟩ := rfl
@[simp] theorem resetEvent_fault : (State.resetEvent s).fault = false := rfl
@[simp] theorem resetEvent_fcode : (State.resetEvent s).fcode = .none := rfl
@[simp] theorem resetEvent_busy : (State.resetEvent s).busy = false := rfl
@[simp] theorem resetEvent_ibuf : (State.resetEvent s).ibuf = [] := rfl
@[simp] theorem resetEvent_obuf : (State.resetEvent s).obuf = [] := rfl
@[simp] theorem resetEvent_real : (State.resetEvent s).real = ⟨⟨.zero, .zero, .zero, .zero⟩, 0, 0, 0, []⟩ := rfl
@[simp] theorem resetEvent_resp : (State.resetEvent s).resp = [] := rfl
@[simp] theorem resetEvent_rx : (State.resetEvent s).rx = [] := rfl
@[simp] theorem resetEvent_port : (State.resetEvent s).port = s.port := rfl
@[simp] theorem resetEvent_resetIn : (State.resetEvent s).resetIn = false := rfl
@[simp] theorem resetEvent_nanSeq : (State.resetEvent s).nanSeq = s.nanSeq := rfl

/-! ### The reset state (R44 to R47, R231) -/

@[simp] theorem resetOf_cfg (c : Config) : (State.resetOf c).cfg = c := rfl
@[simp] theorem resetOf_params (c : Config) : (State.resetOf c).params = c.resetParams := rfl
@[simp] theorem resetOf_ladder (c : Config) : (State.resetOf c).ladder = ⟨0, 0, 0, 0⟩ := rfl
@[simp] theorem resetOf_env (c : Config) : (State.resetOf c).env = ⟨.idle, 0, 0, 0⟩ := rfl
@[simp] theorem resetOf_fault (c : Config) : (State.resetOf c).fault = false := rfl
@[simp] theorem resetOf_fcode (c : Config) : (State.resetOf c).fcode = .none := rfl
@[simp] theorem resetOf_busy (c : Config) : (State.resetOf c).busy = false := rfl
@[simp] theorem resetOf_ibuf (c : Config) : (State.resetOf c).ibuf = [] := rfl
@[simp] theorem resetOf_obuf (c : Config) : (State.resetOf c).obuf = [] := rfl
@[simp] theorem resetOf_real (c : Config) : (State.resetOf c).real = ⟨⟨.zero, .zero, .zero, .zero⟩, 0, 0, 0, []⟩ := rfl
@[simp] theorem resetOf_resp (c : Config) : (State.resetOf c).resp = [] := rfl
@[simp] theorem resetOf_rx (c : Config) : (State.resetOf c).rx = [] := rfl
@[simp] theorem resetOf_port (c : Config) : (State.resetOf c).port = [] := rfl
@[simp] theorem resetOf_resetIn (c : Config) : (State.resetOf c).resetIn = false := rfl
@[simp] theorem resetOf_nanSeq (c : Config) : (State.resetOf c).nanSeq = 0 := rfl

/-! ### What binary32 reads under its updates -/

@[simp] theorem putEnv_f32Num (e : Env F) : (State.putEnv e s).f32Num = s.f32Num := rfl
@[simp] theorem putEnv_consts (e : Env F) : (State.putEnv e s).consts = s.consts := rfl
@[simp] theorem putEnv_paramValues (e : Env F) : (State.putEnv e s).paramValues = s.paramValues := rfl
@[simp] theorem putEnv_ladderValues (e : Env F) : (State.putEnv e s).ladderValues = s.ladderValues := rfl
@[simp] theorem putLadder_f32Num (l : Ladder F) : (State.putLadder l s).f32Num = s.f32Num := rfl
@[simp] theorem putLadder_consts (l : Ladder F) : (State.putLadder l s).consts = s.consts := rfl
@[simp] theorem putLadder_paramValues (l : Ladder F) : (State.putLadder l s).paramValues = s.paramValues := rfl
@[simp] theorem putLadder_envValues (l : Ladder F) : (State.putLadder l s).envValues = s.envValues := rfl
@[simp] theorem putSample_f32Num (n : Nat) (y : F) : (State.putSample n y s).f32Num = s.f32Num := rfl
@[simp] theorem putSample_consts (n : Nat) (y : F) : (State.putSample n y s).consts = s.consts := rfl
@[simp] theorem putSample_paramValues (n : Nat) (y : F) : (State.putSample n y s).paramValues = s.paramValues := rfl
@[simp] theorem putSample_envValues (n : Nat) (y : F) : (State.putSample n y s).envValues = s.envValues := rfl
@[simp] theorem putSample_ladderValues (n : Nat) (y : F) : (State.putSample n y s).ladderValues = s.ladderValues := rfl

/-! ### What exact arithmetic reads under its updates -/

@[simp] theorem putEnvExact_exactConsts (e : Env ℚ) : (State.putEnvExact e s).exactConsts = s.exactConsts := rfl
@[simp] theorem putEnvExact_exactParams (e : Env ℚ) : (State.putEnvExact e s).exactParams = s.exactParams := rfl
@[simp] theorem putEnvExact_exactEnv (e : Env ℚ) : (State.putEnvExact e s).exactEnv = e := rfl
@[simp] theorem putEnvExact_powerNum (e : Env ℚ) : (State.putEnvExact e s).powerNum = s.powerNum := rfl
@[simp] theorem putEnvExact_powerConsts (e : Env ℚ) : (State.putEnvExact e s).powerConsts = s.powerConsts := rfl
@[simp] theorem putEnvExact_powerParams (e : Env ℚ) : (State.putEnvExact e s).powerParams = s.powerParams := rfl
@[simp] theorem putEnvExact_powerEnv (e : Env ℚ) : (State.putEnvExact e s).powerEnv = mapEnv .ofRat e := rfl
@[simp] theorem putLadderExact_exactConsts (l : Ladder PowerSum) : (State.putLadderExact l s).exactConsts = s.exactConsts := rfl
@[simp] theorem putLadderExact_exactParams (l : Ladder PowerSum) : (State.putLadderExact l s).exactParams = s.exactParams := rfl
@[simp] theorem putLadderExact_exactEnv (l : Ladder PowerSum) : (State.putLadderExact l s).exactEnv = s.exactEnv := rfl
@[simp] theorem putLadderExact_powerNum (l : Ladder PowerSum) : (State.putLadderExact l s).powerNum = s.powerNum := rfl
@[simp] theorem putLadderExact_powerConsts (l : Ladder PowerSum) : (State.putLadderExact l s).powerConsts = s.powerConsts := rfl
@[simp] theorem putLadderExact_powerParams (l : Ladder PowerSum) : (State.putLadderExact l s).powerParams = s.powerParams := rfl
@[simp] theorem putLadderExact_powerEnv (l : Ladder PowerSum) : (State.putLadderExact l s).powerEnv = s.powerEnv := rfl
@[simp] theorem putSampleExact_exactConsts (n : Nat) (y : PowerSum) : (State.putSampleExact n y s).exactConsts = s.exactConsts := rfl
@[simp] theorem putSampleExact_exactParams (n : Nat) (y : PowerSum) : (State.putSampleExact n y s).exactParams = s.exactParams := rfl
@[simp] theorem putSampleExact_exactEnv (n : Nat) (y : PowerSum) : (State.putSampleExact n y s).exactEnv = s.exactEnv := rfl
@[simp] theorem putSampleExact_powerNum (n : Nat) (y : PowerSum) : (State.putSampleExact n y s).powerNum = s.powerNum := rfl
@[simp] theorem putSampleExact_powerConsts (n : Nat) (y : PowerSum) : (State.putSampleExact n y s).powerConsts = s.powerConsts := rfl
@[simp] theorem putSampleExact_powerParams (n : Nat) (y : PowerSum) : (State.putSampleExact n y s).powerParams = s.powerParams := rfl
@[simp] theorem putSampleExact_powerEnv (n : Nat) (y : PowerSum) : (State.putSampleExact n y s).powerEnv = s.powerEnv := rfl

end Sys2Proof.Machine
end

