-- ==== Sys2Proof/Laws/Frame.lean ====
section
/-! SUPPORT. The tick, the sample step and the loop of `PROC`: one lemma for each field they leave alone, and the
laws of the loop. -/

namespace Sys2Proof.Machine

variable (s : State) (n : Nat)

/-! ### The tick -/

/-- The tick in binary32: one store of the envelope registers. -/
theorem tick_binary32 {s : State} (h : s.cfg.num = .binary32) :
    s.tick = s.putEnv (envTick s.f32Num s.consts s.paramValues s.envValues) := by
  simp only [State.tick, h]

/-- The tick in exact arithmetic: one store of the envelope registers. -/
theorem tick_exact {s : State} (h : s.cfg.num = .exact) :
    s.tick = s.putEnvExact (envTick exactNum s.exactConsts s.exactParams s.exactEnv) := by
  simp only [State.tick, h]

@[simp] theorem tick_cfg : s.tick.cfg = s.cfg := by unfold State.tick; split <;> rfl
@[simp] theorem tick_params : s.tick.params = s.params := by unfold State.tick; split <;> rfl
@[simp] theorem tick_ladder : s.tick.ladder = s.ladder := by unfold State.tick; split <;> rfl
@[simp] theorem tick_ibuf : s.tick.ibuf = s.ibuf := by unfold State.tick; split <;> rfl
@[simp] theorem tick_obuf : s.tick.obuf = s.obuf := by unfold State.tick; split <;> rfl
@[simp] theorem tick_fault : s.tick.fault = s.fault := by unfold State.tick; split <;> rfl
@[simp] theorem tick_fcode : s.tick.fcode = s.fcode := by unfold State.tick; split <;> rfl
@[simp] theorem tick_busy : s.tick.busy = s.busy := by unfold State.tick; split <;> rfl
@[simp] theorem tick_resp : s.tick.resp = s.resp := by unfold State.tick; split <;> rfl
@[simp] theorem tick_rx : s.tick.rx = s.rx := by unfold State.tick; split <;> rfl
@[simp] theorem tick_port : s.tick.port = s.port := by unfold State.tick; split <;> rfl
@[simp] theorem tick_resetIn : s.tick.resetIn = s.resetIn := by unfold State.tick; split <;> rfl
@[simp] theorem tick_real_ladder : s.tick.real.ladder = s.real.ladder := by unfold State.tick; split <;> rfl
@[simp] theorem tick_real_obuf : s.tick.real.obuf = s.real.obuf := by unfold State.tick; split <;> rfl
@[simp] theorem tick_f32Num : s.tick.f32Num = s.f32Num := by unfold State.tick; split <;> rfl
@[simp] theorem tick_consts : s.tick.consts = s.consts := by unfold State.tick; split <;> rfl
@[simp] theorem tick_paramValues : s.tick.paramValues = s.paramValues := by unfold State.tick; split <;> rfl
@[simp] theorem tick_ladderValues : s.tick.ladderValues = s.ladderValues := by unfold State.tick; split <;> rfl
@[simp] theorem tick_exactConsts : s.tick.exactConsts = s.exactConsts := by unfold State.tick; split <;> rfl
@[simp] theorem tick_exactParams : s.tick.exactParams = s.exactParams := by unfold State.tick; split <;> rfl
@[simp] theorem tick_powerNum : s.tick.powerNum = s.powerNum := by unfold State.tick; split <;> rfl
@[simp] theorem tick_powerConsts : s.tick.powerConsts = s.powerConsts := by unfold State.tick; split <;> rfl
@[simp] theorem tick_powerParams : s.tick.powerParams = s.powerParams := by unfold State.tick; split <;> rfl

/-! ### One sample step -/

/-- The end of a sample step in binary32: the filter step's results stored, `S4` in the output buffer too. -/
theorem filterSample_binary32 {s : State} (h : s.cfg.num = .binary32) :
    s.filterSample n = (s.putLadder (s.filterStep (s.ibuf.read n))).putSample n (s.filterStep (s.ibuf.read n)).s4 := by
  simp only [State.filterSample, h]

/-- The end of a sample step in exact arithmetic. -/
theorem filterSample_exact {s : State} (h : s.cfg.num = .exact) :
    s.filterSample n =
      (s.putLadderExact (s.filterStepExact (s.ibuf.read n))).putSampleExact n
        (s.filterStepExact (s.ibuf.read n)).s4 := by
  simp only [State.filterSample, h]

@[simp] theorem filterSample_cfg : (s.filterSample n).cfg = s.cfg := by unfold State.filterSample; split <;> rfl
@[simp] theorem filterSample_params : (s.filterSample n).params = s.params := by unfold State.filterSample; split <;> rfl
@[simp] theorem filterSample_ibuf : (s.filterSample n).ibuf = s.ibuf := by unfold State.filterSample; split <;> rfl
@[simp] theorem filterSample_fault : (s.filterSample n).fault = s.fault := by unfold State.filterSample; split <;> rfl
@[simp] theorem filterSample_fcode : (s.filterSample n).fcode = s.fcode := by unfold State.filterSample; split <;> rfl
@[simp] theorem filterSample_busy : (s.filterSample n).busy = s.busy := by unfold State.filterSample; split <;> rfl
@[simp] theorem filterSample_resp : (s.filterSample n).resp = s.resp := by unfold State.filterSample; split <;> rfl
@[simp] theorem filterSample_rx : (s.filterSample n).rx = s.rx := by unfold State.filterSample; split <;> rfl
@[simp] theorem filterSample_port : (s.filterSample n).port = s.port := by unfold State.filterSample; split <;> rfl
@[simp] theorem filterSample_resetIn : (s.filterSample n).resetIn = s.resetIn := by unfold State.filterSample; split <;> rfl
@[simp] theorem filterSample_env : (s.filterSample n).env = s.env := by unfold State.filterSample; split <;> rfl
@[simp] theorem sampleStep_cfg : (s.sampleStep n).cfg = s.cfg := by simp [State.sampleStep]
@[simp] theorem sampleStep_params : (s.sampleStep n).params = s.params := by simp [State.sampleStep]
@[simp] theorem sampleStep_ibuf : (s.sampleStep n).ibuf = s.ibuf := by simp [State.sampleStep]
@[simp] theorem sampleStep_fault : (s.sampleStep n).fault = s.fault := by simp [State.sampleStep]
@[simp] theorem sampleStep_fcode : (s.sampleStep n).fcode = s.fcode := by simp [State.sampleStep]
@[simp] theorem sampleStep_busy : (s.sampleStep n).busy = s.busy := by simp [State.sampleStep]
@[simp] theorem sampleStep_resp : (s.sampleStep n).resp = s.resp := by simp [State.sampleStep]
@[simp] theorem sampleStep_rx : (s.sampleStep n).rx = s.rx := by simp [State.sampleStep]
@[simp] theorem sampleStep_port : (s.sampleStep n).port = s.port := by simp [State.sampleStep]
@[simp] theorem sampleStep_resetIn : (s.sampleStep n).resetIn = s.resetIn := by simp [State.sampleStep]
@[simp] theorem sampleStep_env : (s.sampleStep n).env = s.tick.env := by simp [State.sampleStep]

/-- The sample step in binary32: the tick's store, the filter step's, and one output word. -/
theorem sampleStep_binary32 {s : State} (h : s.cfg.num = .binary32) :
    s.sampleStep n =
      (s.tick.putLadder (s.tick.filterStep (s.ibuf.read n))).putSample n (s.tick.filterStep (s.ibuf.read n)).s4 := by
  rw [State.sampleStep, filterSample_binary32 n (by simpa using h), tick_ibuf]

/-- The sample step in exact arithmetic. -/
theorem sampleStep_exact {s : State} (h : s.cfg.num = .exact) :
    s.sampleStep n =
      (s.tick.putLadderExact (s.tick.filterStepExact (s.ibuf.read n))).putSampleExact n
        (s.tick.filterStepExact (s.ibuf.read n)).s4 := by
  rw [State.sampleStep, filterSample_exact n (by simpa using h), tick_ibuf]

theorem sampleStep_nanSeq {s : State} (h : s.cfg.num = .binary32) : (s.sampleStep n).nanSeq = s.nanSeq + 8 := by
  rw [sampleStep_binary32 n h, tick_binary32 h]; rfl

/-- The stage registers after a sample step in binary32: the filter step's results, stored. -/
theorem sampleStep_ladder {s : State} (h : s.cfg.num = .binary32) :
    (s.sampleStep n).ladder =
      ⟨bitsOfF32 (s.nanSeq + 3) (s.tick.filterStep (s.ibuf.read n)).s1,
        bitsOfF32 (s.nanSeq + 4) (s.tick.filterStep (s.ibuf.read n)).s2,
        bitsOfF32 (s.nanSeq + 5) (s.tick.filterStep (s.ibuf.read n)).s3,
        bitsOfF32 (s.nanSeq + 6) (s.tick.filterStep (s.ibuf.read n)).s4⟩ := by
  rw [sampleStep_binary32 n h, tick_binary32 h]; rfl

/-- The output buffer after a sample step in binary32: one word written. -/
theorem sampleStep_obuf {s : State} (h : s.cfg.num = .binary32) :
    (s.sampleStep n).obuf =
      s.obuf.write n (bitsOfF32 (s.nanSeq + 7) (s.tick.filterStep (s.ibuf.read n)).s4) := by
  rw [sampleStep_binary32 n h, tick_binary32 h]; rfl

/-- Binary32 leaves the reals, sample by sample. -/
theorem sampleStep_real_of_binary32 {s : State} (h : s.cfg.num = .binary32) : (s.sampleStep n).real = s.real := by
  rw [sampleStep_binary32 n h, tick_binary32 h]; rfl

/-- The reals after a sample step in exact arithmetic: the tick's registers, the filter step's, one output. -/
theorem sampleStep_real {s : State} (h : s.cfg.num = .exact) :
    (s.sampleStep n).real =
      { s.tick.real with
        ladder := s.tick.filterStepExact (s.ibuf.read n)
        obuf := s.real.obuf.write n (s.tick.filterStepExact (s.ibuf.read n)).s4 } := by
  rw [sampleStep_exact n h]
  simp

/-- Exact arithmetic leaves the words of the filter registers and of the output buffer, and draws no free value. -/
theorem sampleStep_words_of_exact {s : State} (h : s.cfg.num = .exact) :
    (s.sampleStep n).ladder = s.ladder ∧ (s.sampleStep n).obuf = s.obuf ∧ (s.sampleStep n).nanSeq = s.nanSeq := by
  rw [sampleStep_exact n h, tick_exact h]
  exact ⟨rfl, rfl, rfl⟩

/-- A sample step writes no other output word, in either format. -/
theorem sampleStep_obuf_other {i : Nat} (h : i ≠ n) :
    (s.sampleStep n).obuf.read i = s.obuf.read i ∧ (s.sampleStep n).real.obuf.read i = s.real.obuf.read i := by
  cases hn : s.cfg.num
  · rw [sampleStep_obuf n hn, sampleStep_real_of_binary32 n hn, memory_read_write_ne h]
    exact ⟨rfl, rfl⟩
  · rw [(sampleStep_words_of_exact n hn).2.1, sampleStep_real n hn, memory_read_write_ne h]
    exact ⟨rfl, rfl⟩

/-- A sample step of an index within the frame keeps the output buffer's canonical form, in either format. -/
theorem sampleStep_obuf_wf {size : Nat} (hi : n < size)
    (h : Memory.wf size s.obuf = true ∧ Memory.wf size s.real.obuf = true) :
    Memory.wf size (s.sampleStep n).obuf = true ∧ Memory.wf size (s.sampleStep n).real.obuf = true := by
  cases hn : s.cfg.num
  · rw [sampleStep_obuf n hn, sampleStep_real_of_binary32 n hn]
    exact ⟨memory_wf_write _ h.1 hi, h.2⟩
  · rw [(sampleStep_words_of_exact n hn).2.1, sampleStep_real n hn]
    exact ⟨h.1, memory_wf_write _ h.2 hi⟩

/-! ### The loop -/

@[simp] theorem sampleSteps_zero : State.sampleSteps 0 n s = s := rfl

theorem sampleSteps_succ (k : Nat) : State.sampleSteps (k + 1) n s = State.sampleSteps k (n + 1) (s.sampleStep n) := rfl

/-- The loop's last sample step, split off. -/
theorem sampleSteps_succ_last (k : Nat) :
    State.sampleSteps (k + 1) n s = (State.sampleSteps k n s).sampleStep (n + k) := by
  induction k generalizing n s with
  | zero => rfl
  | succ k ih =>
    rw [sampleSteps_succ, ih, sampleSteps_succ]
    congr 1; omega

/-- The loop in two parts. -/
theorem sampleSteps_add (j k : Nat) :
    State.sampleSteps (j + k) n s = State.sampleSteps k (n + j) (State.sampleSteps j n s) := by
  induction k with
  | zero => rfl
  | succ k ih =>
    rw [← Nat.add_assoc, sampleSteps_succ_last, ih, sampleSteps_succ_last]
    congr 1; omega

/-- What every sample step keeps, the loop keeps. -/
theorem sampleSteps_keeps {P : State → Prop} (hstep : ∀ s n, P s → P (s.sampleStep n)) {s : State} (h : P s)
    (k n : Nat) : P (State.sampleSteps k n s) := by
  induction k with
  | zero => exact h
  | succ k ih => rw [sampleSteps_succ_last]; exact hstep _ _ ih

/-- What every sample step of an index within the frame keeps, the loop over those indices keeps. -/
theorem sampleSteps_keeps_below {P : State → Prop} {size : Nat} (hstep : ∀ s n, n < size → P s → P (s.sampleStep n))
    {s : State} (h : P s) (k n : Nat) (hk : n + k ≤ size) : P (State.sampleSteps k n s) := by
  induction k with
  | zero => exact h
  | succ k ih => rw [sampleSteps_succ_last]; exact hstep _ _ (by omega) (ih (by omega))

variable (k : Nat)

@[simp] theorem sampleSteps_cfg : (State.sampleSteps k n s).cfg = s.cfg :=
  sampleSteps_keeps (P := fun t => t.cfg = s.cfg) (fun _ _ h => by simpa using h) rfl k n
@[simp] theorem sampleSteps_params : (State.sampleSteps k n s).params = s.params :=
  sampleSteps_keeps (P := fun t => t.params = s.params) (fun _ _ h => by simpa using h) rfl k n
@[simp] theorem sampleSteps_ibuf : (State.sampleSteps k n s).ibuf = s.ibuf :=
  sampleSteps_keeps (P := fun t => t.ibuf = s.ibuf) (fun _ _ h => by simpa using h) rfl k n
@[simp] theorem sampleSteps_fault : (State.sampleSteps k n s).fault = s.fault :=
  sampleSteps_keeps (P := fun t => t.fault = s.fault) (fun _ _ h => by simpa using h) rfl k n
@[simp] theorem sampleSteps_fcode : (State.sampleSteps k n s).fcode = s.fcode :=
  sampleSteps_keeps (P := fun t => t.fcode = s.fcode) (fun _ _ h => by simpa using h) rfl k n
@[simp] theorem sampleSteps_busy : (State.sampleSteps k n s).busy = s.busy :=
  sampleSteps_keeps (P := fun t => t.busy = s.busy) (fun _ _ h => by simpa using h) rfl k n
@[simp] theorem sampleSteps_resp : (State.sampleSteps k n s).resp = s.resp :=
  sampleSteps_keeps (P := fun t => t.resp = s.resp) (fun _ _ h => by simpa using h) rfl k n
@[simp] theorem sampleSteps_rx : (State.sampleSteps k n s).rx = s.rx :=
  sampleSteps_keeps (P := fun t => t.rx = s.rx) (fun _ _ h => by simpa using h) rfl k n
@[simp] theorem sampleSteps_port : (State.sampleSteps k n s).port = s.port :=
  sampleSteps_keeps (P := fun t => t.port = s.port) (fun _ _ h => by simpa using h) rfl k n
@[simp] theorem sampleSteps_resetIn : (State.sampleSteps k n s).resetIn = s.resetIn :=
  sampleSteps_keeps (P := fun t => t.resetIn = s.resetIn) (fun _ _ h => by simpa using h) rfl k n

theorem sampleSteps_nanSeq {s : State} (h : s.cfg.num = .binary32) :
    (State.sampleSteps k n s).nanSeq = s.nanSeq + 8 * k := by
  induction k with
  | zero => rfl
  | succ k ih => rw [sampleSteps_succ_last, sampleStep_nanSeq _ (by simpa using h), ih]; omega

/-- The loop leaves what its number format does not compute in. -/
theorem sampleSteps_real_of_binary32 {s : State} (h : s.cfg.num = .binary32) :
    (State.sampleSteps k n s).real = s.real :=
  (sampleSteps_keeps (P := fun t => t.cfg.num = .binary32 ∧ t.real = s.real)
    (fun t m ht => ⟨by simpa using ht.1, (sampleStep_real_of_binary32 m ht.1).trans ht.2⟩) ⟨h, rfl⟩ k n).2

/-- The loop over the indices from `n` to `n + k - 1` leaves every other output word, in either format. -/
theorem sampleSteps_obuf_other (i : Nat) (h : i < n ∨ n + k ≤ i) :
    (State.sampleSteps k n s).obuf.read i = s.obuf.read i ∧
      (State.sampleSteps k n s).real.obuf.read i = s.real.obuf.read i := by
  induction k with
  | zero => exact ⟨rfl, rfl⟩
  | succ k ih =>
    rw [sampleSteps_succ_last]
    have hk := sampleStep_obuf_other (State.sampleSteps k n s) (n + k) (i := i) (by omega)
    have := ih (by omega)
    exact ⟨hk.1.trans this.1, hk.2.trans this.2⟩

/-- The loop over indices within the buffer keeps its canonical form, in either format. -/
theorem sampleSteps_obuf_wf {size : Nat} (h : Memory.wf size s.obuf = true ∧ Memory.wf size s.real.obuf = true)
    (hk : n + k ≤ size) :
    Memory.wf size (State.sampleSteps k n s).obuf = true ∧ Memory.wf size (State.sampleSteps k n s).real.obuf = true :=
  sampleSteps_keeps_below (P := fun t => Memory.wf size t.obuf = true ∧ Memory.wf size t.real.obuf = true)
    (fun t _ hi ht => sampleStep_obuf_wf t _ hi ht) h k n hk

end Sys2Proof.Machine
end

