-- ==== Sys2Proof/Laws/Num.lean ====
section
/-! SUPPORT. Binary32 as a number format (00_scope.md R13, R15): what each operation and literal of the record is,
and where the literals lie. -/

namespace Sys2Proof.Machine

variable (c : Exp2Choice)

@[simp] theorem binary32_add : (Num.binary32 c).add = F.add := rfl
@[simp] theorem binary32_sub : (Num.binary32 c).sub = F.sub := rfl
@[simp] theorem binary32_mul : (Num.binary32 c).mul = F.mul := rfl
@[simp] theorem binary32_div : (Num.binary32 c).div = F.div := rfl
@[simp] theorem binary32_le : (Num.binary32 c).le = F.le := rfl
@[simp] theorem binary32_lt : (Num.binary32 c).lt = F.lt := rfl
@[simp] theorem binary32_ofInt : (Num.binary32 c).ofInt = F.ofInt := rfl
@[simp] theorem binary32_exp2 : (Num.binary32 c).exp2 = exp2Value c := rfl
@[simp] theorem binary32_zero : (Num.binary32 c).zero = f32OfBits 0x00000000 := rfl
@[simp] theorem binary32_one : (Num.binary32 c).one = f32OfBits 0x3F800000 := rfl
@[simp] theorem binary32_negOne : (Num.binary32 c).negOne = f32OfBits 0xBF800000 := rfl
@[simp] theorem binary32_half : (Num.binary32 c).half = f32OfBits 0x3F000000 := rfl
@[simp] theorem binary32_four : (Num.binary32 c).four = f32OfBits 0x40800000 := rfl
@[simp] theorem binary32_twelve : (Num.binary32 c).twelve = f32OfBits 0x41400000 := rfl
@[simp] theorem binary32_c116 : (Num.binary32 c).c116 = f32OfBits 0x3F947AE1 := rfl
@[simp] theorem binary32_c015 : (Num.binary32 c).c015 = f32OfBits 0x3E19999A := rfl
@[simp] theorem binary32_cutLow : (Num.binary32 c).cutLow = f32OfBits 0x3A83126F := rfl
@[simp] theorem binary32_cutHigh : (Num.binary32 c).cutHigh = f32OfBits 0x3F7FBE77 := rfl

/-- `clamp` on binary32 (R19). -/
theorem clamp_binary32 (x lo hi : F) :
    clamp (Num.binary32 c) x lo hi = if F.le lo x then (if F.le x hi then x else hi) else lo := rfl

/-- `clamp_lo` on binary32 (R19). -/
theorem clampLo_binary32 (x lo : F) : clampLo (Num.binary32 c) x lo = if F.le lo x then x else lo := rfl

/-! ### The literals as values (R15) -/

theorem f32_zero : f32OfBits 0x00000000 = .fin false 0 := by decide +kernel
theorem f32_one : f32OfBits 0x3F800000 = .fin false (8388608 * 2 ^ 126) := by decide +kernel
theorem f32_negOne : f32OfBits 0xBF800000 = .fin true (8388608 * 2 ^ 126) := by decide +kernel
theorem f32_half : f32OfBits 0x3F000000 = .fin false (8388608 * 2 ^ 125) := by decide +kernel
theorem f32_four : f32OfBits 0x40800000 = .fin false (8388608 * 2 ^ 128) := by decide +kernel
theorem f32_twelve : f32OfBits 0x41400000 = .fin false (12582912 * 2 ^ 129) := by decide +kernel
theorem f32_c116 : f32OfBits 0x3F947AE1 = .fin false (9730785 * 2 ^ 126) := by decide +kernel
theorem f32_c015 : f32OfBits 0x3E19999A = .fin false (10066330 * 2 ^ 123) := by decide +kernel
theorem f32_cutLow : f32OfBits 0x3A83126F = .fin false (8589935 * 2 ^ 116) := by decide +kernel
theorem f32_cutHigh : f32OfBits 0x3F7FBE77 = .fin false (16760439 * 2 ^ 125) := by decide +kernel

/-! ### Exact arithmetic as a number format (R13) -/

variable (e : ℚ → ℚ)

@[simp] theorem exact_add (a b : ℚ) : (Num.exact e).add a b = a + b := rfl
@[simp] theorem exact_sub (a b : ℚ) : (Num.exact e).sub a b = a - b := rfl
@[simp] theorem exact_mul (a b : ℚ) : (Num.exact e).mul a b = a * b := rfl
@[simp] theorem exact_le (a b : ℚ) : (Num.exact e).le a b = decide (a ≤ b) := rfl
@[simp] theorem exact_lt (a b : ℚ) : (Num.exact e).lt a b = decide (a < b) := rfl
@[simp] theorem exact_ofInt (n : Int) : (Num.exact e).ofInt n = n := rfl
@[simp] theorem exact_exp2 : (Num.exact e).exp2 = e := rfl
@[simp] theorem exact_zero : (Num.exact e).zero = 0 := rfl
@[simp] theorem exact_one : (Num.exact e).one = 1 := rfl
@[simp] theorem exact_negOne : (Num.exact e).negOne = -1 := rfl
@[simp] theorem exact_half : (Num.exact e).half = 1 / 2 := rfl
@[simp] theorem exact_four : (Num.exact e).four = 4 := rfl
@[simp] theorem exact_twelve : (Num.exact e).twelve = 12 := rfl
@[simp] theorem exact_c116 : (Num.exact e).c116 = 116 / 100 := rfl
@[simp] theorem exact_c015 : (Num.exact e).c015 = 15 / 100 := rfl
@[simp] theorem exact_cutLow : (Num.exact e).cutLow = 1 / 1000 := rfl
@[simp] theorem exact_cutHigh : (Num.exact e).cutHigh = 999 / 1000 := rfl

/-- A quotient by anything but zero is the quotient. -/
theorem exact_div (a : ℚ) {b : ℚ} (h : b ≠ 0) : (Num.exact e).div a b = a / b := if_neg h

/-- `clamp` in exact arithmetic (R19). -/
theorem clamp_exact (x : ℚ) {lo hi : ℚ} (h : lo ≤ hi) : clamp (Num.exact e) x lo hi = max lo (min hi x) := by
  simp only [clamp, exact_le, decide_eq_true_eq]
  split_ifs with h1 h2
  · rw [min_eq_right h2, max_eq_right h1]
  · rw [min_eq_left (by linarith), max_eq_right h]
  · rw [max_eq_left (le_trans (min_le_right _ _) (by linarith))]

/-- `clamp_lo` in exact arithmetic (R19). -/
theorem clampLo_exact (x lo : ℚ) : clampLo (Num.exact e) x lo = max lo x := by
  simp only [clampLo, exact_le, decide_eq_true_eq]
  split_ifs with h
  · rw [max_eq_right h]
  · rw [max_eq_left (by linarith)]

end Sys2Proof.Machine
end

