-- ==== Sys2Proof/Laws/Order.lean ====
section
/-! SUPPORT. Where the result of an operation lies in the order of binary32 (00_scope.md R13, R19): each operation is
the exact one followed by one monotone rounding, and the clamp lands between its bounds. -/

namespace Sys2Proof.Machine

/-- `z / d` units rounded to binary32, as a place in the order. -/
def roundFrac (z : Int) (d : Nat) : Int :=
  if z < 0 then -(min (roundMagnitude z.natAbs d) unitsOfInf : Nat) else (min (roundMagnitude z.natAbs d) unitsOfInf : Nat)

/-- The place in the order of a finite value. -/
def signedUnits (neg : Bool) (u : Nat) : Int := if neg then -(u : Int) else u

@[simp] theorem ord_fin (neg : Bool) (u : Nat) : (F.fin neg u).ord = some (signedUnits neg u) := by
  cases neg <;> rfl

@[simp] theorem ord_inf_pos : (F.inf false).ord = some (unitsOfInf : Int) := rfl
@[simp] theorem ord_inf_neg : (F.inf true).ord = some (-(unitsOfInf : Int)) := rfl
@[simp] theorem ord_nan (o : Option Word) : (F.nan o).ord = none := rfl
@[simp] theorem signedUnits_natAbs (neg : Bool) (u : Nat) : (signedUnits neg u).natAbs = u := by
  cases neg <;> simp [signedUnits]
@[simp] theorem signedUnits_zero (neg : Bool) : signedUnits neg 0 = 0 := by cases neg <;> rfl

theorem ord_eq_none_iff {v : F} : v.ord = none ↔ v.isNan = true := by
  cases v <;> simp [F.ord, F.isNan]

theorem isNan_of_ord {v : F} {x : Int} (h : v.ord = some x) : v.isNan = false := by
  cases v <;> simp_all [F.ord, F.isNan]

/-! ### Comparisons -/

theorem le_iff {a b : F} : F.le a b = true ↔ ∃ x y, a.ord = some x ∧ b.ord = some y ∧ x ≤ y := by
  unfold F.le
  cases ha : a.ord <;> cases hb : b.ord <;> simp

theorem lt_iff {a b : F} : F.lt a b = true ↔ ∃ x y, a.ord = some x ∧ b.ord = some y ∧ x < y := by
  unfold F.lt
  cases ha : a.ord <;> cases hb : b.ord <;> simp

theorem le_of_ord {a b : F} {x y : Int} (ha : a.ord = some x) (hb : b.ord = some y) :
    F.le a b = decide (x ≤ y) := by simp [F.le, ha, hb]

theorem lt_of_ord {a b : F} {x y : Int} (ha : a.ord = some x) (hb : b.ord = some y) :
    F.lt a b = decide (x < y) := by simp [F.lt, ha, hb]

theorem le_refl_of_ord {a : F} {x : Int} (ha : a.ord = some x) : F.le a a = true := by simp [F.le, ha]

theorem le_trans_F {a b c : F} (h1 : F.le a b = true) (h2 : F.le b c = true) : F.le a c = true := by
  obtain ⟨x, y, ha, hb, hxy⟩ := le_iff.1 h1
  obtain ⟨y', z, hb', hc, hyz⟩ := le_iff.1 h2
  rw [hb] at hb'
  obtain rfl := Option.some.inj hb'
  exact le_iff.2 ⟨x, z, ha, hc, hxy.trans hyz⟩

/-! ### Rounding in the order -/

theorem roundFrac_of_nonneg {z : Int} (h : 0 ≤ z) (d : Nat) :
    roundFrac z d = (min (roundMagnitude z.natAbs d) unitsOfInf : Nat) := by
  simp [roundFrac, not_lt.2 h]

theorem roundFrac_nonneg {z : Int} (h : 0 ≤ z) (d : Nat) : 0 ≤ roundFrac z d := by
  rw [roundFrac_of_nonneg h]; exact Int.natCast_nonneg _

theorem roundFrac_nonpos {z : Int} (h : z ≤ 0) (d : Nat) : roundFrac z d ≤ 0 := by
  rcases h.lt_or_eq with h | rfl
  · simp [roundFrac, h]
  · simp [roundFrac]

@[simp] theorem roundFrac_zero (d : Nat) : roundFrac 0 d = 0 := by simp [roundFrac]

/-- Rounding is monotone. -/
theorem roundFrac_mono {y z : Int} {d e : Nat} (hd : 0 < d) (he : 0 < e) (h : y * e ≤ z * d) :
    roundFrac y d ≤ roundFrac z e := by
  have hd' : (0 : Int) < d := by exact_mod_cast hd
  have he' : (0 : Int) < e := by exact_mod_cast he
  rcases le_or_gt 0 y with hy | hy
  · have hz : 0 ≤ z := by
      by_contra hz
      push Not at hz
      nlinarith
    rw [roundFrac_of_nonneg hy, roundFrac_of_nonneg hz]
    have h' : y.natAbs * e ≤ z.natAbs * d := by
      zify
      rw [abs_of_nonneg hy, abs_of_nonneg hz]
      exact h
    exact_mod_cast min_le_min_right _ (roundMagnitude_mono hd he h')
  · rcases le_or_gt 0 z with hz | hz
    · exact (roundFrac_nonpos hy.le d).trans (roundFrac_nonneg hz e)
    · simp only [roundFrac, hy, hz, if_true, neg_le_neg_iff]
      have h' : z.natAbs * d ≤ y.natAbs * e := by
        zify
        rw [abs_of_neg hy, abs_of_neg hz]
        nlinarith
      exact_mod_cast min_le_min_right _ (roundMagnitude_mono he hd h')

theorem roundFrac_one_mono {y z : Int} (h : y ≤ z) : roundFrac y 1 ≤ roundFrac z 1 :=
  roundFrac_mono one_pos one_pos (by simpa using h)

/-- A place that binary32 has is its own rounding. -/
theorem roundFrac_of_representable {z : Int} {d : Nat} (hd : 0 < d) (h : Representable z.natAbs)
    (hlt : z.natAbs ≤ unitsOfInf) : roundFrac (z * d) d = z := by
  have habs : (z * d).natAbs = z.natAbs * d := by simp [Int.natAbs_mul]
  have hd' : (0 : Int) < d := by exact_mod_cast hd
  unfold roundFrac
  rw [habs, roundMagnitude_of_representable hd h, min_eq_left hlt]
  rcases lt_or_ge z 0 with hz | hz
  · rw [if_pos (by nlinarith)]; omega
  · rw [if_neg (by push Not; positivity)]; omega

theorem ord_roundUnits (neg : Bool) (n d : Nat) :
    (roundUnits neg n d).ord = some (signedUnits neg (min (roundMagnitude n d) unitsOfInf)) := by
  unfold roundUnits
  split_ifs with h
  · rw [min_eq_right h]; cases neg <;> simp [signedUnits]
  · rw [min_eq_left (by omega), ord_fin]

theorem signedUnits_round {neg : Bool} {n d : Nat} {z : Int} (hz : z = signedUnits neg n) :
    signedUnits neg (min (roundMagnitude n d) unitsOfInf) = roundFrac z d := by
  subst hz
  cases neg
  · simp [signedUnits, roundFrac]
  · rcases Nat.eq_zero_or_pos n with rfl | hn
    · simp [signedUnits, roundFrac]
    · simp [signedUnits, roundFrac, hn]

/-- A sum of finite values lies at the rounding of the exact sum. -/
theorem ord_add {s t : Bool} {a b : Nat} :
    (F.add (.fin s a) (.fin t b)).ord = some (roundFrac (signedUnits s a + signedUnits t b) 1) := by
  unfold F.add
  dsimp only
  split_ifs with h1 h2 h3
  · subst h1
    rw [ord_roundUnits, signedUnits_round (z := signedUnits s a + signedUnits s b)]
    cases s
    · simp [signedUnits]
    · simp [signedUnits]; omega
  · subst h2
    have : signedUnits s a + signedUnits t a = 0 := by cases s <;> cases t <;> simp_all [signedUnits]
    rw [this]; simp [signedUnits]
  · rw [ord_roundUnits, signedUnits_round (z := signedUnits s a + signedUnits t b)]
    cases s <;> cases t <;> simp_all [signedUnits] <;> omega
  · rw [ord_roundUnits, signedUnits_round (z := signedUnits s a + signedUnits t b)]
    cases s <;> cases t <;> simp_all [signedUnits] <;> omega

/-- A difference of finite values lies at the rounding of the exact difference. -/
theorem ord_sub {s t : Bool} {a b : Nat} :
    (F.sub (.fin s a) (.fin t b)).ord = some (roundFrac (signedUnits s a - signedUnits t b) 1) := by
  have h : signedUnits s a - signedUnits t b = signedUnits s a + signedUnits (!t) b := by
    cases t
    · simp [signedUnits]; omega
    · simp [signedUnits]
  rw [h]
  exact ord_add

/-- A product of finite values lies at the rounding of the exact product. -/
theorem ord_mul {s t : Bool} {a b : Nat} :
    (F.mul (.fin s a) (.fin t b)).ord = some (roundFrac (signedUnits s a * signedUnits t b) unitsOfOne) := by
  unfold F.mul
  dsimp only
  rw [ord_roundUnits, signedUnits_round (z := signedUnits s a * signedUnits t b)]
  cases s <;> cases t <;> simp [signedUnits]

/-- A quotient by a value above zero lies at the rounding of the exact quotient. -/
theorem ord_div {s : Bool} {a b : Nat} (hb : 0 < b) :
    (F.div (.fin s a) (.fin false b)).ord = some (roundFrac (signedUnits s a * unitsOfOne) b) := by
  unfold F.div
  dsimp only
  rw [if_neg hb.ne', ord_roundUnits, signedUnits_round (z := signedUnits s a * unitsOfOne)]
  cases s <;> simp [signedUnits]

/-- A finite value read from a word lies strictly between the infinities, and where it lies is representable. -/
theorem ord_held {v : F} (h : v.Held) (hf : v.isFinite = true) :
    ∃ s u, v = .fin s u ∧ Representable u ∧ u < unitsOfInf := by
  rcases held_iff.1 h with ⟨w, rfl, -⟩ | ⟨s, rfl⟩ | h
  · simp [F.isFinite] at hf
  · simp [F.isFinite] at hf
  · exact h

/-! ### The clamps (R19) -/

/-- The clamp answers its argument or one of its bounds, and lies between them. -/
theorem clamp_spec (c : Exp2Choice) (x : F) {lo hi : F} {l h : Int} (hlo : lo.ord = some l) (hhi : hi.ord = some h)
    (hle : l ≤ h) :
    ∃ y, (clamp (Num.binary32 c) x lo hi).ord = some y ∧ l ≤ y ∧ y ≤ h ∧
      (clamp (Num.binary32 c) x lo hi = x ∨ clamp (Num.binary32 c) x lo hi = lo ∨
        clamp (Num.binary32 c) x lo hi = hi) := by
  rw [clamp_binary32]
  cases hx : x.ord with
  | none => simp [F.le, hlo, hx, hle]
  | some y =>
    rw [le_of_ord hlo hx, le_of_ord hx hhi]
    by_cases h1 : l ≤ y
    · by_cases h2 : y ≤ h
      · simp [h1, h2, hx]
      · simp only [h1, h2, decide_true, decide_false, if_true]
        exact ⟨h, hhi, hle, le_rfl, .inr (.inr rfl)⟩
    · simp only [h1, decide_false]
      exact ⟨l, hlo, le_rfl, hle, .inr (.inl rfl)⟩

/-- A value within the bounds is its own clamp. -/
theorem clamp_of_within (c : Exp2Choice) {x lo hi : F} (h1 : F.le lo x = true) (h2 : F.le x hi = true) :
    clamp (Num.binary32 c) x lo hi = x := by
  simp [clamp_binary32, h1, h2]

/-- A NaN is clamped to the lower bound. -/
theorem clamp_nan (c : Exp2Choice) {x : F} (lo hi : F) (h : x.isNan = true) :
    clamp (Num.binary32 c) x lo hi = lo := by
  have : F.le lo x = false := by
    rw [← ord_eq_none_iff] at h
    simp [F.le, h]
  simp [clamp_binary32, this]

/-- The lower clamp lies at its bound or above. -/
theorem clampLo_spec (c : Exp2Choice) (x : F) {lo : F} {l : Int} (hlo : lo.ord = some l) :
    ∃ y, (clampLo (Num.binary32 c) x lo).ord = some y ∧ l ≤ y ∧
      (clampLo (Num.binary32 c) x lo = x ∨ clampLo (Num.binary32 c) x lo = lo) := by
  rw [clampLo_binary32]
  cases hx : x.ord with
  | none => simp [F.le, hlo, hx]
  | some y =>
    rw [le_of_ord hlo hx]
    by_cases h1 : l ≤ y
    · simp [h1, hx]
    · simp [h1, hlo]

end Sys2Proof.Machine
end

