-- ==== Sys2Proof/Laws/PerInstr.lean ====
section
/-! SUPPORT. What holds of every command as syntax, one lemma per constructor. -/

/-! Every encoding is a header with a legal opcode (30_encoding.md R71, R74) and at most five operand words (R73). -/

/-- The encoding of `i` is a legal header, no reserved bit set, and at most five operand words. -/
def Sys2Proof.Laws.LegalHeader.Statement (i : Sys2Proof.Instr) : Prop :=
  ∃ (w : Sys2Proof.Word) (ops : List Sys2Proof.Word), Sys2Proof.encode i = w :: ops ∧
    1 ≤ w.toNat ∧ w.toNat ≤ 12 ∧ Sys2Proof.headerReserved w = 0 ∧ ops.length + 1 ≤ Sys2Proof.longestCommand

namespace Sys2Proof.Laws.LegalHeader

theorem setcut (v : Word) : Statement (.setcut v) := ⟨_, _, rfl, by decide, by decide, by decide, by simp [longestCommand]⟩
theorem setres (v : Word) : Statement (.setres v) := ⟨_, _, rfl, by decide, by decide, by decide, by simp [longestCommand]⟩
theorem setmod (v : Word) : Statement (.setmod v) := ⟨_, _, rfl, by decide, by decide, by decide, by simp [longestCommand]⟩
theorem setenv (a d s r c : Word) : Statement (.setenv a d s r c) :=
  ⟨_, _, rfl, by decide, by decide, by decide, by simp [longestCommand]⟩
theorem setkey (b k : Word) (n : Int) : Statement (.setkey b k n) :=
  ⟨_, _, rfl, by decide, by decide, by decide, by simp [longestCommand]⟩
theorem trig : Statement .trig := ⟨_, _, rfl, by decide, by decide, by decide, by simp [longestCommand]⟩
theorem rel : Statement .rel := ⟨_, _, rfl, by decide, by decide, by decide, by simp [longestCommand]⟩
theorem proc : Statement .proc := ⟨_, _, rfl, by decide, by decide, by decide, by simp [longestCommand]⟩
theorem getcut : Statement .getcut := ⟨_, _, rfl, by decide, by decide, by decide, by simp [longestCommand]⟩
theorem getres : Statement .getres := ⟨_, _, rfl, by decide, by decide, by decide, by simp [longestCommand]⟩
theorem stin (i : Nat) (v : Word) : Statement (.stin i v) :=
  ⟨_, _, rfl, by decide, by decide, by decide, by simp [longestCommand]⟩
theorem ldout (i : Nat) : Statement (.ldout i) := ⟨_, _, rfl, by decide, by decide, by decide, by simp [longestCommand]⟩

end Sys2Proof.Laws.LegalHeader
end

