-- ==== Sys2Proof/Laws/Step.lean ====
section
/-! SUPPORT. What a step can do and what each command does, said once: the inversion lemmas that later proofs cite
in place of unfolding `step` and `exec`. -/

namespace Sys2Proof.Machine

/-! ### The commands -/

@[simp] theorem exec_setcut (v : Word) (s : State) :
    exec (.setcut v) s = .next { s with params := { s.params with cutoff := v } } := rfl
@[simp] theorem exec_setres (v : Word) (s : State) :
    exec (.setres v) s = .next { s with params := { s.params with resonance := v } } := rfl
@[simp] theorem exec_setmod (v : Word) (s : State) :
    exec (.setmod v) s = .next { s with params := { s.params with modvalue := v } } := rfl
@[simp] theorem exec_setenv (a d u r c : Word) (s : State) :
    exec (.setenv a d u r c) s =
      .next { s with params := { s.params with attack := a, decay := d, sustain := u, release := r, contour := c } } := rfl
@[simp] theorem exec_setkey (b k : Word) (n : Int) (s : State) :
    exec (.setkey b k n) s =
      .next { s with params := { s.params with basecut := b, keytrack := k, note := BitVec.ofInt 32 n } } := rfl
theorem exec_trig_binary32 {s : State} (h : s.cfg.num = .binary32) :
    exec .trig s = .next (s.putEnv (envTrigger s.f32Num s.consts s.paramValues)) := by
  simp only [exec, execTrig, h]
theorem exec_trig_exact {s : State} (h : s.cfg.num = .exact) :
    exec .trig s = .next (s.putEnvExact (envTrigger exactNum s.exactConsts s.exactParams)) := by
  simp only [exec, execTrig, h]
theorem exec_rel_binary32 {s : State} (h : s.cfg.num = .binary32) :
    exec .rel s = .next (s.putEnv (envRelease s.f32Num s.consts s.paramValues s.envValues)) := by
  simp only [exec, execRel, h]
theorem exec_rel_exact {s : State} (h : s.cfg.num = .exact) :
    exec .rel s = .next (s.putEnvExact (envRelease exactNum s.exactConsts s.exactParams s.exactEnv)) := by
  simp only [exec, execRel, h]
@[simp] theorem exec_proc (s : State) :
    exec .proc s = .next { State.sampleSteps s.cfg.frameSize 0 { s with busy := true } with busy := false } := rfl
@[simp] theorem exec_getcut (s : State) : exec .getcut s = .next (s.respond s.params.cutoff) := rfl
@[simp] theorem exec_getres (s : State) : exec .getres s = .next (s.respond s.params.resonance) := rfl
@[simp] theorem exec_stin (i : Nat) (v : Word) (s : State) :
    exec (.stin i v) s = .next (if i < s.cfg.frameSize then s.putInput i v else s.raiseFault .bufferIndex) := by
  simp [exec, execStin, State.legalIndex]
@[simp] theorem exec_ldout (i : Nat) (s : State) :
    exec (.ldout i) s =
      .next (if i < s.cfg.frameSize then s.respond (s.outputBits i) else s.raiseFault .bufferIndex) := by
  simp [exec, execLdout, State.legalIndex]

/-- The output word read in binary32. -/
theorem outputBits_binary32 {s : State} (h : s.cfg.num = .binary32) (i : Nat) : s.outputBits i = s.obuf.read i := by
  simp only [State.outputBits, h]

/-- The output word read in exact arithmetic. -/
theorem outputBits_exact {s : State} (h : s.cfg.num = .exact) (i : Nat) :
    s.outputBits i = bitsOfReal (s.real.obuf.read i) := by
  simp only [State.outputBits, h]

/-- Every command answers a next state: a fault of the spec is a state (60_exceptions.md R218). -/
theorem exec_next (i : Instr) (s : State) : ∃ t, exec i s = .next t := by
  cases i <;> exact ⟨_, rfl⟩

/-! ### The step -/

/-- The step under an asserted reset (70_reset_and_hazards.md R230). -/
theorem step_of_reset {s : State} (h : s.resetIn = true) : step s = .next s.resetEvent := by simp [step, h]

/-- The step of a busy block (R240). -/
theorem step_of_busy {s : State} (h : s.resetIn = false) (hb : s.busy = true) : step s = .next s := by
  simp [step, h, hb]

/-- The step of a faulted block (60_exceptions.md R216). -/
theorem step_of_fault {s : State} (h : s.resetIn = false) (hb : s.busy = false) (hf : s.fault = true) :
    step s = .next s.discard := by simp [step, h, hb, hf]

/-- The step of a block that accepts commands (44_host_commands.md R180). -/
theorem step_of_ready {s : State} (h : s.resetIn = false) (hb : s.busy = false) (hf : s.fault = false) :
    step s = match s.nextCommand with
      | .cmd i rest => exec i (s.taken rest)
      | .illegal rest => .next (s.illegalHeader rest)
      | .incomplete => .next s.await := by
  unfold step
  rw [h, hb, hf]
  cases s.nextCommand <;> rfl

/-- Everything a step can do. -/
theorem step_cases {s t : State} (h : step s = .next t) :
    (s.resetIn = true ∧ t = s.resetEvent) ∨
    (s.resetIn = false ∧ s.busy = true ∧ t = s) ∨
    (s.resetIn = false ∧ s.busy = false ∧ s.fault = true ∧ t = s.discard) ∨
    (s.resetIn = false ∧ s.busy = false ∧ s.fault = false ∧
      ((∃ i rest, decode (s.rx ++ s.port) = .cmd i rest ∧ exec i (s.taken rest) = .next t) ∨
       (∃ rest, decode (s.rx ++ s.port) = .illegal rest ∧ t = s.illegalHeader rest) ∨
       (decode (s.rx ++ s.port) = .incomplete ∧ t = s.await))) := by
  cases hr : s.resetIn
  · cases hb : s.busy
    · cases hf : s.fault
      · rw [step_of_ready hr hb hf, State.nextCommand] at h
        cases hd : decode (s.rx ++ s.port) with
        | cmd i rest => rw [hd] at h; simp_all
        | illegal rest => rw [hd] at h; cases h; simp
        | incomplete => rw [hd] at h; cases h; simp
      · rw [step_of_fault hr hb hf] at h; cases h; simp
    · rw [step_of_busy hr hb] at h; cases h; simp
  · rw [step_of_reset hr] at h; cases h; simp

end Sys2Proof.Machine
end

