-- ==== Sys2Proof/Laws/Values.lean ====
section
/-! SUPPORT. The terms of Safety.lean on the values the numeric path is left with. -/

namespace Sys2Proof.Machine

theorem zeroF_eq : zeroF = .fin false 0 := f32_zero
theorem oneF_eq : oneF = .fin false (8388608 * 2 ^ 126) := f32_one
@[simp] theorem ord_zeroF : zeroF.ord = some 0 := by rw [zeroF_eq]; rfl
theorem ord_oneF : oneF.ord = some (8388608 * 2 ^ 126) := by rw [oneF_eq]; rfl

/-- The word stored for a storable value is that value's word. -/
theorem F.Storable.isBitsOf {v : F} (h : v.Storable) (n : Nat) : isBitsOf (bitsOfF32 n v) v = true := by
  unfold Sys2Proof.Machine.isBitsOf
  split_ifs with hn
  · rw [h.isNan_stored n, hn]
  · obtain ⟨w, rfl⟩ := h.held (by simpa using hn)
    simp

/-- A word that is a value's word reads as that value, or both are NaNs. -/
theorem isBitsOf_cases {w : Word} {v : F} (h : isBitsOf w v = true) (hv : v.Storable) :
    f32OfBits w = v ∨ ((f32OfBits w).isNan = true ∧ v.isNan = true) := by
  unfold isBitsOf at h
  split_ifs at h with hn
  · exact .inr ⟨h, hn⟩
  · obtain ⟨u, rfl⟩ := hv.held (by simpa using hn)
    simp at h
    rw [h]; exact .inl rfl

theorem clampF_eq (c : Exp2Choice) (x lo hi : F) : clamp (Num.binary32 c) x lo hi = clampF x lo hi := rfl

/-- A clamped word's value is a word's value when the bounds are. -/
theorem storable_clampF {x lo hi : F} (hx : x.Storable) (hlo : lo.Storable) (hhi : hi.Storable) :
    (clampF x lo hi).Storable := by
  unfold clampF
  split_ifs
  · exact hx
  · exact hhi
  · exact hlo

/-- The rate of every time register is storable (41_envelope.md R112). -/
theorem storable_rateOfWord (c : Config) (w : Word) : (rateOfWord c w).Storable := storable_div _ _

/-- `rate_of` of a time register is `rateOfWord` of its word. -/
theorem rateOf_word (s : State) (w : Word) : rateOf s.f32Num s.consts (f32OfBits w) = rateOfWord s.cfg w := rfl

end Sys2Proof.Machine
end

