-- ==== Sys2Proof/Tests/Slice0.lean ====
section
/-! SUPPORT. The model's own tests. The expected values are the spec's: its encoding rules (30_encoding.md), its vectors
(95_test_vectors.md, by their names V…), its rules by hand. At the end, for each statement with hypotheses, a
concrete case that meets them. -/

namespace Sys2Proof.Tests

/- One theorem after the other: their kernel evaluations all at once ask for more threads than memory allows. -/
set_option Elab.async false

open Sys2Proof Sys2Proof.Machine

/-! ### Decoding: headers written out from R71 and R74 (24 reserved bits, 8 bits of opcode), operands from R73 -/

theorem test_decode_setcut : decode [0b000000000000000000000000_00000001, 0x3F000000, 0x8] = .cmd (.setcut 0x3F000000) [0x8] := by
  decide
theorem test_decode_setres : decode [0b000000000000000000000000_00000010, 0xBF000000] = .cmd (.setres 0xBF000000) [] := by
  decide
theorem test_decode_setmod : decode [0b000000000000000000000000_00000011, 0x7F800000] = .cmd (.setmod 0x7F800000) [] := by
  decide
theorem test_decode_setenv :
    decode [0b000000000000000000000000_00000100, 0x3E800000, 0x3F800000, 0x3E800001, 0x3F800001, 0xBF800000] =
      .cmd (.setenv 0x3E800000 0x3F800000 0x3E800001 0x3F800001 0xBF800000) [] := by decide
theorem test_decode_setkey :
    decode [0b000000000000000000000000_00000101, 0x3F000000, 0x3F800000, 0xFFFFFFFB] =
      .cmd (.setkey 0x3F000000 0x3F800000 (-5)) [] := by decide
theorem test_decode_trig : decode [0b000000000000000000000000_00000110] = .cmd .trig [] := by decide
theorem test_decode_rel : decode [0b000000000000000000000000_00000111] = .cmd .rel [] := by decide
theorem test_decode_proc : decode [0b000000000000000000000000_00001000] = .cmd .proc [] := by decide
theorem test_decode_getcut : decode [0b000000000000000000000000_00001001] = .cmd .getcut [] := by decide
theorem test_decode_getres : decode [0b000000000000000000000000_00001010] = .cmd .getres [] := by decide
theorem test_decode_stin :
    decode [0b000000000000000000000000_00001011, 0xFFFFFFFF, 0x3F800000] = .cmd (.stin 4294967295 0x3F800000) [] := by
  decide
theorem test_decode_ldout : decode [0b000000000000000000000000_00001100, 0x7] = .cmd (.ldout 7) [] := by decide

/-- V2.4 to V2.7: illegal headers, one word consumed. -/
theorem test_decode_illegal :
    decode [0x108, 0x3F000000] = .illegal [0x3F000000] ∧ decode [0x0] = .illegal [] ∧ decode [0xD] = .illegal [] ∧
    decode [0xFF] = .illegal [] ∧ decode [0xFFFFFFFF] = .illegal [] ∧ decode [0x80000001] = .illegal [] := by decide

/-- V2.2, V2.3: incomplete commands. -/
theorem test_decode_incomplete :
    decode [0x4, 0x3F000000, 0x3F000000] = .incomplete ∧ decode [] = .incomplete := by decide

/-- The bits of the opcode table's row for `SETKEY` with its operand words. -/
theorem test_decode_table_word :
    decodeTableWord 128 0xFFFFFFFB3F8000003F00000000000005 = some (.setkey 0x3F000000 0x3F800000 (-5)) := by decide

/-! ### WellFormed refuses each operand out of its range (R81) -/

theorem test_wellformed_refuses_note_above : (Instr.setkey 0 0 (2 ^ 31)).wellFormed = false := by decide
theorem test_wellformed_refuses_note_below : (Instr.setkey 0 0 (-2 ^ 31 - 1)).wellFormed = false := by decide
theorem test_wellformed_refuses_stin_index : (Instr.stin (2 ^ 32) 0).wellFormed = false := by decide
theorem test_wellformed_refuses_ldout_index : (Instr.ldout (2 ^ 32)).wellFormed = false := by decide
theorem test_wellformed_accepts_bounds :
    (Instr.setkey 0 0 (-2 ^ 31)).wellFormed = true ∧ (Instr.setkey 0 0 (2 ^ 31 - 1)).wellFormed = true ∧
    (Instr.stin (2 ^ 32 - 1) 0).wellFormed = true ∧ (Instr.ldout (2 ^ 32 - 1)).wellFormed = true := by decide

/-! ### A small instance -/

/-- The configuration of the spec's vectors: the defaults with the given `FRAME_SIZE`, `SAMPLE_RATE` 8.0. -/
def benchConfig (frame : Nat) : Config := { Config.default with frameSize := frame, sampleRate := 0x41000000 }

/-- That instance after reset, with parameter values that pass a unit signal: `CUTOFF` 0.5, times 0.5, `SUSTAIN`
0.5, `NOTE` 60. -/
def bench (frame : Nat) : State :=
  { State.resetOf (benchConfig frame) with
    params := ⟨0x3F000000, 0, 0, 0, 60, 0x3F000000, 0x3F000000, 0x3F000000, 0x3F000000, 0x3F000000, 0⟩ }

/-- The same instance with exact arithmetic as `NUM`. -/
def exactBench (frame : Nat) : State := { bench frame with cfg := { benchConfig frame with num := .exact } }

/-- The state a command leaves, for reading its fields. -/
def after (i : Instr) (s : State) : State :=
  match exec i s with
  | .next t => t
  | .fault _ => s
  | .refused _ => s

/-- The state a step leaves. -/
def stepped (s : State) : State :=
  match step s with
  | .next t => t
  | .fault _ => s
  | .refused _ => s

/-! ### The commands -/

/-- V6.1: the raw word is stored and read back. -/
theorem test_setcut_getcut_raw :
    (after .getcut (after (.setcut 0x7FC00001) (bench 8))).resp = [0x7FC00001] := by decide +kernel
theorem test_setres_getres_raw : (after .getres (after (.setres 0xBF000000) (bench 8))).resp = [0xBF000000] := by
  decide +kernel
theorem test_setmod : (after (.setmod 0xC0400000) (bench 8)).params.modvalue = 0xC0400000 := by decide +kernel
/-- R184: the order of `SETENV`'s operands. -/
theorem test_setenv_order :
    (after (.setenv 1 2 3 4 5) (bench 8)).params = ⟨0x3F000000, 0, 0, 0, 60, 0x3F000000, 1, 2, 3, 4, 5⟩ := by
  decide +kernel
/-- R185, V6.2: `SETKEY` leaves `CUTOFF`. -/
theorem test_setkey_order :
    (after (.setkey 0x3E800000 0x3F800000 (-5)) (bench 8)).params =
      ⟨0x3F000000, 0, 0, 0x3F800000, 0xFFFFFFFB, 0x3E800000, 0x3F000000, 0x3F000000, 0x3F000000, 0x3F000000, 0⟩ := by
  decide +kernel
/-- V4.11: `TRIG` from Sustain. -/
theorem test_trig :
    (after .trig { bench 8 with env := ⟨.sustain, 0x3F000000, 0x3F000000, 0⟩ }).env =
      ⟨.attack, 0x00000000, 0x3F800000, 0x3E800000⟩ := by decide +kernel
/-- V4.12: `REL` leaves `EV`. -/
theorem test_rel :
    (after .rel { bench 8 with
      env := ⟨.release, 0x3E800000, 0, 0x3E800000⟩
      params := { (bench 8).params with release := 0x3F800000 } }).env =
      ⟨.release, 0x3E800000, 0x00000000, 0x3E000000⟩ := by decide +kernel
/-- V3.9: the impulse response of program P1, its eight output words. -/
theorem test_proc_impulse :
    (after .proc (after (.stin 0 0x3F800000) (bench 8))).obuf.map Prod.snd =
      [0x3DE7C305, 0x3E42AE10, 0x3E4C69F8, 0x3E2BB52D, 0x3DFC690C, 0x3DA99EA8, 0x3D55B88C, 0x3D003B88] := by
  decide +kernel
/-- V4.13: the envelope through Attack and Decay to Sustain in six ticks. -/
theorem test_proc_envelope :
    (after .proc (after .trig (bench 6))).env = ⟨.sustain, 0x3F000000, 0x3F000000, 0x3E800000⟩ := by decide +kernel
/-- V6.9: the last word of the buffer, and the first index that is none. -/
theorem test_stin_bounds :
    (after (.stin 7 0x3F800000) (bench 8)).ibuf = [(7, 0x3F800000)] ∧
    (after (.stin 8 0x3F800000) (bench 8)).fcodeOut = 2 ∧ (after (.stin 8 0x3F800000) (bench 8)).ibuf = [] := by
  decide +kernel
theorem test_ldout_bounds :
    (after (.ldout 7) { bench 8 with obuf := [(7, 0x3D003B88)] }).resp = [0x3D003B88] ∧
    (after (.ldout 8) (bench 8)).faultOut = 1 ∧ (after (.ldout 8) (bench 8)).resp = [] := by decide +kernel

/-! ### The numeric path -/

/-- V3.6: feedback with a state that is not zero. -/
theorem test_ladder_feedback :
    ladderStep (Num.binary32 .nearest) (f32OfBits 0) (f32OfBits 0x3F000000) (f32OfBits 0x3F000000)
      (mapLadder f32OfBits ⟨0x3F000000, 0x3E800000, 0xBE000000, 0x3F800000⟩) =
      mapLadder f32OfBits ⟨0xBF643724, 0xBED2F848, 0xBE953E15, 0x3E807AB7⟩ := by decide +kernel
/-- V3.12: a signed zero through a negative `g`. -/
theorem test_ladder_signed_zero :
    ladderStep (Num.binary32 .nearest) (f32OfBits 0x80000000) (f32OfBits 0x3F7FBE77) (f32OfBits 0)
      (mapLadder f32OfBits ⟨0, 0, 0, 0⟩) =
      mapLadder f32OfBits ⟨0x80000000, 0x80000000, 0x80000000, 0x80000000⟩ := by decide +kernel
/-- V4.10, V4.6, V4.3: rates of a long time, of one whose product overflows, of a NaN. -/
theorem test_rate_of :
    let c := { Config.default with sampleRate := 0x473B8000 }
    rateOfWord c 0x442F0000 = f32OfBits 0x32FFA71F ∧ rateOfWord c 0x7F800000 = f32OfBits 0 ∧
    rateOfWord c 0x7FC00000 = f32OfBits 0x3CAAAAAA := by decide +kernel
/-- V5.10: a non-integer power of two, by the default `EXP2`. -/
theorem test_compose_key :
    compose (bench 8).f32Num { (bench 8).paramValues with keytrack := f32OfBits 0x3F000000, note := 67 }
      (bench 8).envValues = f32OfBits 0x3F1CADC9 := by decide +kernel
/-- V5.33: contour and modulation together. -/
theorem test_compose_contour_mod :
    compose (bench 8).f32Num
      { (bench 8).paramValues with
        cutoff := f32OfBits 0x3E99999A, contour := f32OfBits 0x3F000000, modvalue := f32OfBits 0x3E800000 }
      ⟨.decay, f32OfBits 0x3F19999A, f32OfBits 0, f32OfBits 0⟩ = f32OfBits 0x3EE0A3D8 := by decide +kernel
/-- V5.30: `Inf * 0.0` is a NaN and clamps to the lower bound. -/
theorem test_compose_nan :
    compose (bench 8).f32Num
      { (bench 8).paramValues with cutoff := f32OfBits 0x7F800000, contour := f32OfBits 0xBF800000 }
      ⟨.attack, f32OfBits 0x3F800000, f32OfBits 0, f32OfBits 0⟩ = f32OfBits 0x3A83126F := by decide +kernel

/-! ### Exact arithmetic (R13); the expected values by hand -/

/-- R113 with `ATTACK` 0.5 and `SAMPLE_RATE` 8: the rate is 1/4; the words of the binary32 registers stay. -/
theorem test_exact_trig :
    (after .trig (exactBench 8)).exactEnv = ⟨.attack, 0, 1, 1 / 4⟩ ∧
    (after .trig (exactBench 8)).env = ⟨.attack, 0, 0, 0⟩ := by decide +kernel
/-- R93 with `f` = 0.5 * 1.16 on a unit impulse: the powers of `f`. -/
theorem test_exact_proc :
    (after .proc (after (.stin 0 0x3F800000) (exactBench 1))).real.ladder =
      ⟨.ofRat (58 / 100), .ofRat (58 ^ 2 / 100 ^ 2),
        .ofRat (58 ^ 3 / 100 ^ 3), .ofRat (58 ^ 4 / 100 ^ 4)⟩ := by decide +kernel
/-- R17: words of reals and reals of words, the least subnormal and a negative value among them. -/
theorem test_exact_words :
    bitsOfReal (.ofRat (1 / 4)) = 0x3E800000 ∧ bitsOfReal (.ofRat (-5 / 2)) = 0xC0200000 ∧
    bitsOfReal (.ofRat (1 / 2 ^ 149)) = 0x00000001 ∧ bitsOfReal .zero = 0x00000000 ∧
    realOfBits 0xC0200000 = -5 / 2 ∧ realOfBits 0x00000001 = 1 / 2 ^ 149 := by
  decide +kernel
/-- R14: powers at whole numbers, and `2^(7/12) * 2^(5/12) = 2`. -/
theorem test_exact_exp2 :
    exp2Power .nearest (-5) = .ofRat (1 / 32) ∧ exp2Power .nearest 0 = .ofRat 1 ∧
    (exp2Power .nearest (7 / 12)).mul (exp2Power .nearest (5 / 12)) = .ofRat 2 := by decide +kernel
/-- R143: a semitone up multiplies 0.5 by the twelfth root of two. -/
theorem test_exact_compose_key :
    compose (exactBench 8).powerNum { (exactBench 8).powerParams with keytrack := .ofRat 1, note := 61 }
      (exactBench 8).powerEnv = ⟨[(1 / 12, 1 / 2)]⟩ := by decide +kernel
/-- R13: the order of the reals, `1.4 < 2^(1/2) < 3/2` and `-3/2 < -2^(1/2)`. -/
theorem test_exact_order :
    (PowerSum.ofRat (14 / 10)).le (.power (1 / 2) 1) = true ∧ (PowerSum.power (1 / 2) 1).le (.ofRat (3 / 2)) = true ∧
    (PowerSum.ofRat (3 / 2)).le (.power (1 / 2) 1) = false ∧
    (PowerSum.ofRat (-3 / 2)).le (.power (1 / 2) (-1)) = true := by decide +kernel

/-! ### The step -/

/-- R80: the words of an incomplete command wait; the rest of it completes it. -/
theorem test_step_incomplete :
    (stepped { bench 8 with port := [0x1] }).rx = [0x1] ∧
    (stepped { stepped { bench 8 with port := [0x1] } with port := [0x40F00000, 0x9] }).params.cutoff = 0x40F00000 ∧
    (stepped { stepped { bench 8 with port := [0x1] } with port := [0x40F00000, 0x9] }).port = [0x9] := by decide +kernel
/-- V6.11: after a fault the words offered are discarded and the first cause stays. -/
theorem test_step_first_fault_wins :
    (stepped (stepped { bench 8 with port := [0x0, 0xB, 0x63, 0x3F800000] })).fcodeOut = 1 ∧
    (stepped (stepped { bench 8 with port := [0x0, 0xB, 0x63, 0x3F800000] })).port = [] := by decide +kernel
/-- R230: reset out of a fault. -/
theorem test_step_reset :
    (stepped { bench 8 with fault := true, fcode := .bufferIndex, resetIn := true, ibuf := [(0, 1)] }) =
      State.resetOf (benchConfig 8) := by decide +kernel

/-! ### The hypotheses of the statements can be met -/

theorem test_witness_DecodeInvertsEncode : (Instr.setkey 1 2 (-2 ^ 31)).wellFormed = true := by decide
theorem test_witness_EncodeInvertsDecode : decode [0xB, 0xFFFFFFFF, 1, 9] = .cmd (.stin (2 ^ 32 - 1) 1) [9] := by decide
/-- The illegal words next to the legal ones, 0 and 13, and one with a reserved bit. -/
theorem test_witness_IllegalHeadersRaiseTheirFault :
    ({ bench 8 with rx := [], port := [0, 6] } : State).accepting = true ∧
    ¬ (1 ≤ (0 : Word).toNat ∧ (0 : Word).toNat ≤ 12) ∧ ¬ (1 ≤ (13 : Word).toNat ∧ (13 : Word).toNat ≤ 12) ∧
    ¬ (1 ≤ (0x101 : Word).toNat ∧ (0x101 : Word).toNat ≤ 12) := by decide +kernel
/-- The first and the last legal opcode, with one word too few and with just enough. -/
theorem test_witness_OperandWordsTaken :
    decode ((1 : Word) :: []) = .incomplete ∧ decode ((1 : Word) :: [7]) = .cmd (.setcut 7) [] ∧
    decode ((12 : Word) :: []) = .incomplete ∧ decode ((12 : Word) :: [7]) = .cmd (.ldout 7) [] ∧
    decode ((13 : Word) :: [7]) = .illegal [7] := by decide
theorem test_witness_TableBitsRunTheirCommand :
    (Instr.ldout (2 ^ 32 - 1)).wellFormed = true ∧ (Instr.setkey 0 0 (2 ^ 31 - 1)).wellFormed = true := by decide
theorem test_witness_StepRunsDecodedCommand :
    ({ bench 8 with rx := [0x1], port := [0x3F000000, 0x8] } : State).accepting = true ∧
    decode ([0x1] ++ [0x3F000000, 0x8]) = .cmd (.setcut 0x3F000000) [0x8] := by decide +kernel
theorem test_witness_IncompleteCommandWaits :
    ({ bench 8 with rx := [0x4], port := [1, 2, 3, 4] } : State).accepting = true ∧
    decode ([0x4] ++ [1, 2, 3, 4]) = .incomplete ∧ decode ([] ++ []) = .incomplete := by decide +kernel
theorem test_witness_SettersStoreRawOperands : fitsI32 (-2 ^ 31) = true ∧ fitsI32 (2 ^ 31 - 1) = true := by decide
theorem test_witness_ResponsesOnlyFromReadCommands :
    (∃ t, exec (.ldout 7) (bench 8) = .next t) ∧ 7 < (bench 8).cfg.frameSize ∧
    (∃ t, exec (.ldout 8) (bench 8) = .next t) ∧ ¬ 8 < (bench 8).cfg.frameSize := ⟨⟨_, rfl⟩, by decide, ⟨_, rfl⟩, by decide⟩
theorem test_witness_BootSequenceFixesParameters :
    [Instr.setkey 9 8 7, .setenv 1 2 3 4 5, .setmod 6, .setres 7, .setcut 8].Perm
      [.setcut 8, .setres 7, .setmod 6, .setenv 1 2 3 4 5, .setkey 9 8 7] := by decide
/-- An instance with exact arithmetic in the given stage, with the given `EV` and an `ER` of 1/4. -/
def inExactStage (st : Stage) (ev : ℚ) : State :=
  { exactBench 1 with env := ⟨st, 0, 0, 0⟩, real := ⟨⟨.zero, .zero, .zero, .zero⟩, ev, 1 / 2, 1 / 4, []⟩ }

/-- The five stages; Attack with a sum that is exactly 1.0 and one just below, Decay at the sustain level exactly,
Release at 0.0 exactly. -/
theorem test_witness_TickFollowsItsStage :
    (bench 8).cfg.num = .binary32 ∧
    ({ bench 8 with env := ⟨.attack, 0x3F400000, 0, 0x3E800000⟩ } : State).tick.env.stage = .decay ∧
    ({ bench 8 with env := ⟨.attack, 0x3F3FFFFF, 0, 0x3E800000⟩ } : State).tick.env.stage = .attack ∧
    ({ bench 8 with env := ⟨.decay, 0x3F400000, 0, 0x3E800000⟩ } : State).tick.env.stage = .sustain ∧
    ({ bench 8 with env := ⟨.decay, 0x3F400001, 0, 0x3E800000⟩ } : State).tick.env.stage = .decay ∧
    ({ bench 8 with env := ⟨.sustain, 0x3F400000, 0, 0x3E800000⟩ } : State).tick.env.stage = .sustain ∧
    ({ bench 8 with env := ⟨.release, 0x3E800000, 0, 0x3E800000⟩ } : State).tick.env.stage = .idle ∧
    ({ bench 8 with env := ⟨.release, 0x3E800001, 0, 0x3E800000⟩ } : State).tick.env.stage = .release ∧
    ({ bench 8 with env := ⟨.idle, 0, 0, 0x3E800000⟩ } : State).tick.env.stage = .idle := by decide +kernel
/-- The same instance in binary32 and in exact arithmetic. -/
theorem test_witness_TrigRestartsTheAttack :
    (bench 1).cfg.num = .binary32 ∧ (exactBench 1).cfg.num = .exact ∧ configValid (exactBench 1).cfg = true := by
  decide +kernel
theorem test_witness_RelEntersRelease : (bench 1).cfg.num = .binary32 ∧ (exactBench 1).cfg.num = .exact := by decide
theorem test_witness_ExactTrigAndRel :
    (exactBench 1).cfg.num = .exact ∧ configValid (exactBench 1).cfg = true := by decide +kernel
/-- Exact arithmetic: a valid instance in Attack with a sum that is exactly 1 and one below, in Decay at the sustain
level and above it, in Sustain, in Release at 0 and above, and in Idle. -/
theorem test_witness_ExactTickFollowsItsStage :
    configValid (exactBench 1).cfg = true ∧ (∃ t, exec .proc (exactBench 1) = .next t) ∧
    (inExactStage .attack (3 / 4)).tick.env.stage = .decay ∧ (inExactStage .attack (2 / 3)).tick.env.stage = .attack ∧
    (inExactStage .decay (3 / 4)).tick.env.stage = .sustain ∧ (inExactStage .decay (4 / 5)).tick.env.stage = .decay ∧
    (inExactStage .sustain (3 / 4)).tick.env.stage = .sustain ∧
    (inExactStage .release (1 / 4)).tick.env.stage = .idle ∧
    (inExactStage .release (1 / 3)).tick.env.stage = .release ∧
    (inExactStage .idle 0).tick.env.stage = .idle :=
  ⟨by decide +kernel, ⟨_, rfl⟩, by decide +kernel, by decide +kernel, by decide +kernel, by decide +kernel,
    by decide +kernel, by decide +kernel, by decide +kernel, by decide +kernel⟩
/-- The default configuration, a rate that is not zero and one whose product has overflowed. -/
theorem test_witness_RatesAreFinite :
    Config.default.num = .binary32 ∧ configValid Config.default = true ∧ F.lt zeroF (rateOfWord Config.default 0x3F800000) = true ∧
    rateOfWord Config.default 0x7F800000 = zeroF := by decide +kernel
theorem test_witness_EnvelopeInvariantKept :
    ∃ t, configValid ({ bench 1 with env := ⟨.attack, 0x3F400000, 0x3F800000, 0x3E800000⟩, port := [0x8] } : State).cfg = true ∧
      ({ bench 1 with env := ⟨.attack, 0x3F400000, 0x3F800000, 0x3E800000⟩, port := [0x8] } : State).envInvariant = true ∧
      step { bench 1 with env := ⟨.attack, 0x3F400000, 0x3F800000, 0x3E800000⟩, port := [0x8] } = .next t ∧
      configValid (exactBench 1).cfg = true ∧ (inExactStage .attack (3 / 4)).envInvariant = true :=
  ⟨_, by decide +kernel, by decide +kernel, rfl, by decide +kernel, by decide +kernel⟩
theorem test_witness_EnvelopeIsMonotone :
    (∀ st ∈ [Stage.attack, .release, .decay],
      ({ bench 1 with env := ⟨st, 0x3F000000, 0x3F800000, 0x3E800000⟩ } : State).envInvariant = true) ∧
    F.le (clampF (f32OfBits (bench 1).params.sustain) zeroF oneF) (f32OfBits 0x3F000000) = true ∧
    (bench 1).cfg.num = .binary32 ∧ (inExactStage .decay (1 / 2)).cfg.num = .exact ∧
    (inExactStage .attack (1 / 2)).envInvariant = true ∧ (inExactStage .release (1 / 2)).envInvariant = true ∧
    (inExactStage .decay (1 / 2)).envInvariant = true ∧
    max 0 (min 1 (realOfBits (inExactStage .decay (1 / 2)).params.sustain)) ≤ (inExactStage .decay (1 / 2)).real.ev := by
  decide +kernel
theorem test_witness_StageOrderWithinFrame :
    ∀ st ∈ [Stage.idle, .attack, .decay, .sustain, .release],
      ∃ t, exec .proc { bench 2 with env := ⟨st, 0, 0, 0⟩ } = .next t := fun _ _ => ⟨_, rfl⟩
theorem test_witness_TicksOncePerSample :
    ∃ t, (bench 2).cfg.num = .binary32 ∧ configValid (bench 2).cfg = true ∧ (bench 2).envInvariant = true ∧
      exec .proc (bench 2) = .next t ∧ exec .getcut (bench 2) = .next (after .getcut (bench 2)) :=
  ⟨_, rfl, by decide +kernel, by decide +kernel, rfl, rfl⟩
/-- With a time of 5/8 and a rate of 4, `N` is 5/2: the tick before the end, and the last tick, of each stage; a
sustain level above 1 makes the Decay one tick long, and a release from 0 lasts one. -/
theorem test_witness_ExactStageLengths :
    (0 : ℚ) < 1 / 1000 ∧ (0 : ℚ) < 4 ∧ max (1 / 1000 : ℚ) (5 / 8) * 4 = 5 / 2 ∧ ((2 : Nat) : ℚ) < 5 / 2 ∧
    (3 : Nat) = ⌈(5 / 2 : ℚ)⌉₊ ∧ max 0 (min 1 (3 / 10) : ℚ) = 3 / 10 ∧
    max 1 ⌈(1 - 3 / 10) * (5 / 2 : ℚ)⌉₊ = 2 ∧ max 1 ⌈(1 - 1) * (5 / 2 : ℚ)⌉₊ = 1 ∧ max 1 ⌈(0 : ℚ) * (5 / 2)⌉₊ = 1 := by
  have h1 : ⌈(5 / 2 : ℚ)⌉₊ = 3 := by rw [Nat.ceil_eq_iff (by norm_num)]; norm_num
  have h2 : ⌈(1 - 3 / 10) * (5 / 2 : ℚ)⌉₊ = 2 := by rw [Nat.ceil_eq_iff (by norm_num)]; norm_num
  rw [h1, h2]
  norm_num
theorem test_witness_CompositorIdentities :
    (bench 1).params.cutoff = 0x3F000000 ∧ F.lt zeroF (f32OfBits (bench 1).params.keytrack) = false ∧
    (bench 1).env.stage = .idle ∧ (bench 1).params.modvalue = 0x00000000 ∧
    (after (.setmod 0x3F800000) (bench 1)).params.modvalue = 0x3F800000 ∧
    (bench 1).params.note = 60 ∧ F.lt zeroF (f32OfBits 0x00000001) = true := by decide +kernel
theorem test_witness_KeyTrackingByOctaves :
    (0 : Word) = BitVec.ofInt 32 (60 + 12 * -5) ∧ (120 : Word) = BitVec.ofInt 32 (60 + 12 * 5) ∧
    F.le oneF (f32OfBits 0x3F800000) = true ∧ (-(2 ^ 24) : Int).natAbs ≤ 2 ^ 24 := by decide +kernel
/-- The arguments -126, 127 and -0.0, two finite ones in order, and the two infinities. -/
theorem test_witness_Exp2NamedProperties :
    (f32OfBits 0xC2FC0000).toRat = (-126 : Int) ∧ (f32OfBits 0x42FE0000).toRat = (127 : Int) ∧
    (f32OfBits 0xC2FC0000).isFinite = true ∧ (f32OfBits 0x42FE0000).isFinite = true ∧
    F.le (f32OfBits 0xC2FC0000) (f32OfBits 0x42FE0000) = true ∧
    F.le (f32OfBits 0xFF800000) (f32OfBits 0x7F800000) = true := by
  refine ⟨?_, ?_, by decide +kernel, by decide +kernel, by decide +kernel, by decide +kernel⟩
  · rw [show f32OfBits 0xC2FC0000 = .fin true (126 * 2 ^ 149) by decide +kernel]; norm_num [F.toRat]
  · rw [show f32OfBits 0x42FE0000 = .fin false (127 * 2 ^ 149) by decide +kernel]; norm_num [F.toRat]
/-- Finite operands (the greatest value and the least subnormal), a divisor that is not zero, and a NaN. -/
theorem test_witness_ArithmeticIsCorrectlyRounded :
    (f32OfBits 0x7F7FFFFF).isFinite = true ∧ (f32OfBits 0x00000001).isFinite = true ∧
    (f32OfBits 0x00000001).toRat ≠ 0 ∧ (f32OfBits 0x7FC00000).isNan = true := by
  refine ⟨by decide +kernel, by decide +kernel, ?_, by decide +kernel⟩
  rw [show f32OfBits 0x00000001 = .fin false 1 by decide +kernel]; norm_num [F.toRat]
/-- The default `EXP2`; `EV` and `CUTOFF` at the ends of their ranges, in both formats, outside Idle; notes and key
tracking that put the exponent at the ends of its range. -/
theorem test_witness_CompositorRanges :
    (bench 1).cfg.exp2 = .nearest ∧
    (∀ ev ∈ [(0 : ℚ), 1], 0 ≤ (inExactStage .decay ev).real.ev ∧ (inExactStage .decay ev).real.ev ≤ 1) ∧
    (inExactStage .decay 1).env.stage ≠ .idle ∧ realOfBits 0x00000000 = 0 ∧ realOfBits 0x3F800000 = 1 ∧
    F.within zeroF (f32OfBits 0x00000000) oneF = true ∧ F.within zeroF (f32OfBits 0x3F800000) oneF = true ∧
    noteOffset (bench 1).powerNum 0 = .ofRat (-5) ∧ noteOffset (bench 1).powerNum 127 = .ofRat (67 / 12) := by
  decide +kernel
/-- Whole numbers at both ends, and two rationals between two of them. -/
theorem test_witness_ExactExp2Properties :
    (-126 : Int) ≤ -126 ∧ (127 : Int) ≤ 127 ∧ ((1 : ℚ) / 3 ≤ 1 / 2) := by norm_num
theorem test_witness_ExactFilterOperandsInRange : configValid (exactBench 1).cfg = true := by decide +kernel
/-- 1/4 and 1/2 and the results of the four operations on them, which words encode; a whole number at the bound, and
the exponents -126 and 127. -/
theorem test_witness_FormatsAgreeWhenRepresentable :
    (f32OfBits 0x3E800000).isFinite = true ∧
    (f32OfBits 0x3F000000).isFinite = true ∧
    (f32OfBits 0x3F400000).isFinite = true ∧
    (f32OfBits 0xBE800000).isFinite = true ∧
    (f32OfBits 0x3E000000).isFinite = true ∧
    (f32OfBits 0xC2FC0000).isFinite = true ∧
    (f32OfBits 0x42FE0000).isFinite = true ∧
    (let X := Num.power .nearest;
      X.add (.ofRat (f32OfBits 0x3E800000).toRat) (.ofRat (f32OfBits 0x3F000000).toRat) =
        .ofRat (f32OfBits 0x3F400000).toRat ∧
      X.sub (.ofRat (f32OfBits 0x3E800000).toRat) (.ofRat (f32OfBits 0x3F000000).toRat) =
        .ofRat (f32OfBits 0xBE800000).toRat ∧
      X.mul (.ofRat (f32OfBits 0x3E800000).toRat) (.ofRat (f32OfBits 0x3F000000).toRat) =
        .ofRat (f32OfBits 0x3E000000).toRat ∧
      X.div (.ofRat (f32OfBits 0x3E800000).toRat) (.ofRat (f32OfBits 0x3F000000).toRat) =
        .ofRat (f32OfBits 0x3F000000).toRat) ∧
    (PowerSum.power (1 / 2) 1).single ≠ none ∧ PowerSum.zero.single ≠ none ∧
    (f32OfBits 0x3F000000).toRat ≠ 0 ∧ (-(2 ^ 24) : Int).natAbs ≤ 2 ^ 24 ∧
    (f32OfBits 0xC2FC0000).toRat = (-126 : Int) ∧ (f32OfBits 0x42FE0000).toRat = (127 : Int) := by decide +kernel
theorem test_witness_SampleStepRunsTheUnits :
    Memory.wf (bench 2).cfg.frameSize (bench 2).obuf = true ∧ 1 < (bench 2).cfg.frameSize ∧
    (bench 2).cfg.num = .binary32 := by decide +kernel
theorem test_witness_ExactSampleStepRunsTheUnits :
    (exactBench 2).cfg.num = .exact ∧ configValid (exactBench 2).cfg = true ∧
    Memory.wf (exactBench 2).cfg.frameSize (exactBench 2).real.obuf = true ∧ 1 < (exactBench 2).cfg.frameSize := by
  decide +kernel
theorem test_witness_ResonanceOperandInRange :
    configValid (bench 1).cfg = true ∧ (f32OfBits (after (.setres 0x7FC00000) (bench 1)).params.resonance).isNan = true := by
  decide +kernel
/-- An infinity in each stage register, and a NaN in `S4`. -/
theorem test_witness_NonFiniteStateIsPermanent :
    (bench 1).cfg.num = .binary32 ∧ 1 ≤ (bench 1).cfg.frameSize ∧
    Memory.wf (bench 1).cfg.frameSize (bench 1).obuf = true ∧
    (∀ l ∈ [(⟨0x7F800000, 0, 0, 0⟩ : Ladder Word), ⟨0, 0x7F800000, 0, 0⟩, ⟨0, 0, 0x7F800000, 0⟩, ⟨0, 0, 0, 0x7F800000⟩],
      (f32OfBits l.s1).isFinite = false ∨ (f32OfBits l.s2).isFinite = false ∨ (f32OfBits l.s3).isFinite = false ∨
        (f32OfBits l.s4).isFinite = false) ∧
    (f32OfBits 0x7FC00000).isNan = true ∧
    ∃ t, exec .proc { bench 1 with ladder := ⟨0, 0, 0, 0x7FC00000⟩ } = .next t := by
  refine ⟨rfl, by decide, by decide, by decide +kernel, by decide +kernel, _, rfl⟩
theorem test_witness_SilenceStaysSilent :
    (bench 2).cfg.num = .binary32 ∧ configValid (bench 2).cfg = true ∧
    Memory.wf (bench 2).cfg.frameSize (bench 2).obuf = true ∧
    (bench 2).ladder = ⟨0, 0, 0, 0⟩ ∧ ∀ i < (bench 2).cfg.frameSize, (bench 2).ibuf.read i = 0 := by
  refine ⟨rfl, by decide +kernel, by decide, rfl, fun _ _ => rfl⟩
theorem test_witness_ExactSilenceStaysSilent :
    (exactBench 2).cfg.num = .exact ∧ Memory.wf (exactBench 2).cfg.frameSize (exactBench 2).real.obuf = true ∧
    (exactBench 2).real.ladder = ⟨.zero, .zero, .zero, .zero⟩ ∧
    ∀ i < (exactBench 2).cfg.frameSize, realOfBits ((exactBench 2).ibuf.read i) = 0 := by
  refine ⟨rfl, by decide, rfl, fun _ _ => ?_⟩
  exact (by decide +kernel : realOfBits 0 = 0)
theorem test_witness_PassthroughAtUnitCoefficient :
    (f32OfBits 0xFF7FFFFF).isFinite = true ∧ (f32OfBits 0x80000000).isFinite = true ∧
    (f32OfBits 0x00000001).isFinite = true := by decide +kernel
/-- Two states that differ in a NaN's pattern, in `ATTACK` and in what is already in `OBUF`. -/
theorem test_witness_ProcIsDeterministicUpToNan :
    agreeUpToNan { bench 1 with ladder := ⟨0x7FC00000, 0, 0, 0⟩ }
      { bench 1 with
        ladder := ⟨0xFFC00001, 0, 0, 0⟩, params := { (bench 1).params with attack := 1 }, obuf := [(0, 5)] } ∧
    (bench 1).buffersWf = true ∧ ({ bench 1 with obuf := [(0, 5)] } : State).buffersWf = true := by
  refine ⟨⟨rfl, ⟨rfl, rfl, ?_, ?_, ?_, ?_, ?_, ?_, ?_, ?_, ?_, ?_, ?_, ?_, ?_, ?_, rfl, rfl⟩, fun i _ => ?_⟩, by decide,
    by decide⟩
  all_goals first | decide +kernel | exact (by decide +kernel : sameUpToNan 0 0 = true)
/-- The state of the second instance, of one sample, after the first one of the same size has run its frame. -/
def secondHalf (t : State) : State :=
  { bench 1 with env := t.env, ladder := t.ladder, real := { t.real with obuf := [] }, nanSeq := t.nanSeq }

/-- An instance of two samples against one of one sample twice. -/
theorem test_witness_FrameSizeIndependence :
    ∃ t t1 t2 u, (bench 2).cfg.frameSize = 1 + 1 ∧ Memory.wf (1 + 1) (bench 2).obuf = true ∧
      Memory.wf (1 + 1) (bench 2).real.obuf = true ∧ Memory.wf 1 (u : State).obuf = true ∧
      Memory.wf 1 u.real.obuf = true ∧ exec .proc (bench 2) = .next t ∧
      exec .proc { bench 2 with cfg := { (bench 2).cfg with frameSize := 1 } } = .next t1 ∧
      u.cfg = { (bench 2).cfg with frameSize := 1 } ∧ u.params = t1.params ∧ sameEnvelope t1 u ∧ sameLadder t1 u ∧
      u.nanSeq = t1.nanSeq ∧ (∀ i < 1, u.ibuf.read i = (bench 2).ibuf.read (1 + i)) ∧ exec .proc u = .next t2 := by
  obtain ⟨t1, h1⟩ := exec_next .proc { bench 2 with cfg := { (bench 2).cfg with frameSize := 1 } }
  obtain ⟨t, h⟩ := exec_next .proc (bench 2)
  obtain ⟨t2, h2⟩ := exec_next .proc (secondHalf t1)
  refine ⟨t, t1, t2, secondHalf t1, rfl, rfl, rfl, rfl, rfl, h, h1, rfl, ?_, ⟨rfl, rfl⟩, ⟨rfl, rfl⟩, rfl,
    fun _ _ => rfl, h2⟩
  rw [exec_proc] at h1
  cases h1
  simp [secondHalf, bench]

/-- A session with `TRIG` before two samples, in one frame of two and in two frames of one, with different counters of
free values. -/
theorem test_witness_FramesOfAnySizeAgree :
    ({ bench 1 with nanSeq := 7 } : State).cfg = { (bench 2).cfg with frameSize := 1 } ∧ 1 ≤ (bench 2).cfg.frameSize ∧
    (bench 2).params = (bench 1).params ∧ registersAgree (bench 2) { bench 1 with nanSeq := 7 } ∧
    (bench 2).buffersWf = true ∧ ({ bench 1 with nanSeq := 7 } : State).buffersWf = true ∧
    ∀ stretch ∈ [([Instr.trig], [(0x3F800000 : Word), 0x7FC00000])],
      (∀ i ∈ stretch.1, isControlCommand i = true) ∧ 2 ∣ stretch.2.length ∧ 1 ∣ stretch.2.length := by
  refine ⟨rfl, by decide, rfl, ⟨rfl, rfl, ?_, ?_, ?_, ?_, ?_, ?_, ?_, ?_, ?_, ?_, ?_, ?_, ?_, ?_, rfl, rfl⟩, by decide,
    by decide, by decide⟩
  all_goals decide +kernel

/-- States that differ in what the other format's registers hold. -/
theorem test_witness_EachFormatUsesItsOwnRegisters :
    ({ bench 1 with real := ⟨⟨.ofRat 1, .zero, .zero, .ofRat 4⟩, 5, 6, 7, [(0, .ofRat 8)]⟩ } : State).withoutOtherFormat =
      (bench 1).withoutOtherFormat ∧
    ({ exactBench 1 with ladder := ⟨1, 2, 3, 4⟩, env := ⟨.idle, 5, 6, 7⟩, obuf := [(0, 8)], nanSeq := 9 } :
      State).withoutOtherFormat = (exactBench 1).withoutOtherFormat ∧
    (∃ t, exec .proc (bench 1) = .next t) ∧ ∃ t, exec .proc (exactBench 1) = .next t :=
  ⟨rfl, rfl, ⟨_, rfl⟩, ⟨_, rfl⟩⟩

/-- Both sides of the bound. -/
theorem test_witness_StinWritesOneInputWord :
    Memory.wf (bench 8).cfg.frameSize (bench 8).ibuf = true ∧ 7 < (bench 8).cfg.frameSize ∧
    ¬ 8 < (bench 8).cfg.frameSize := by decide
theorem test_witness_LdoutRespondsOneOutputWord :
    7 < (bench 8).cfg.frameSize ∧ ¬ 8 < (bench 8).cfg.frameSize ∧ (bench 8).cfg.num = .binary32 := by decide
/-- The least subnormal in the last word of the buffer. -/
theorem test_witness_ExactOutputWords :
    ({ exactBench 8 with real := ⟨⟨.zero, .zero, .zero, .zero⟩, 0, 0, 0, [(7, .ofRat (1 / 2 ^ 149))]⟩ } :
      State).real.obuf.read 7 = .ofRat (f32OfBits 0x00000001).toRat ∧
    7 < (exactBench 8).cfg.frameSize ∧ (f32OfBits 0x00000001).isFinite = true ∧
    (0x00000001 : Word) ≠ 0x80000000 ∧ (exactBench 8).cfg.num = .exact := by decide +kernel
theorem test_witness_OnlyBufferCommandsFault :
    (bench 8).fault = false ∧
    (∃ t, exec (.stin 8 1) (bench 8) = .next t ∧ t.fault = true) ∧
    ∃ t, exec (.ldout 8) (bench 8) = .next t ∧ t.fault = true := ⟨rfl, ⟨_, rfl, by decide⟩, _, rfl, by decide⟩
theorem test_witness_FaultIsTerminal :
    ({ bench 8 with fault := true, fcode := .bufferIndex, port := [0x8] } : State).fault = true ∧
    (bench 8).busy = false ∧ (bench 8).resetIn = false ∧ 1 ≤ 3 := by decide
theorem test_witness_ResetGivesTheResetState :
    ({ bench 8 with resetIn := true, fault := true, rx := [0x4] } : State).resetIn = true := by decide
theorem test_witness_ResetKeepsOfferedWords :
    ({ bench 8 with resetIn := true, fault := true, port := [0x6] } : State).resetIn = true ∧
    decode [0x6] = .cmd .trig [] := by decide
theorem test_witness_ControlInvariantKept :
    ∃ t, ({ bench 8 with port := [0xB, 0x8, 0x1] } : State).controlInvariant = true ∧
      step { bench 8 with port := [0xB, 0x8, 0x1] } = .next t := ⟨_, by decide +kernel, rfl⟩
theorem test_witness_UnreadRegistersNeverMatter :
    ({ bench 8 with
        params := { (bench 8).params with basecut := 1 }, env := ⟨.idle, 0, 2, 3⟩
        real := ⟨⟨.zero, .zero, .zero, .zero⟩, 0, 2, 3, []⟩ } : State).withoutUnread =
      ({ bench 8 with
        params := { (bench 8).params with basecut := 4 }, env := ⟨.idle, 0, 5, 6⟩
        real := ⟨⟨.zero, .zero, .zero, .zero⟩, 0, 5, 6, []⟩ } : State).withoutUnread := by
  decide +kernel

end Sys2Proof.Tests
end

/-! The literals (00_scope.md R15) and `EXP2` in exact arithmetic (R14) -/

namespace Sys2Proof.Machine

/-- Settles O32: each property is the law of the exact `EXP2` of that name. -/
theorem exactExp2Properties : Obligations.ExactExp2Properties := by
  unfold Obligations.ExactExp2Properties
  refine fun c => ⟨?zero, fun k => exp2Power_int c, exp2Power_nonneg c, fun x y => exp2Power_mono c, ?nearest⟩
  case zero => simpa using exp2Power_int c (n := 0) (by norm_num) (by norm_num)
  case nearest => rintro rfl x; exact toReal_exp2Power_nearest x

/-- Settles O35: the nine decimals are rounded and encoded, and the fractions are read back, by evaluation. -/
theorem literalBitPatterns : Obligations.LiteralBitPatterns := by
  unfold Obligations.LiteralBitPatterns
  refine ⟨by decide +kernel, by decide +kernel, by decide +kernel, by decide +kernel, by decide +kernel,
    by decide +kernel, by decide +kernel, by decide +kernel, by decide +kernel, ?_, ?_, ?_, ?_, fun c => ?_⟩
  · rw [f32_c116]; norm_num [F.toRat]
  · rw [f32_c015]; norm_num [F.toRat]
  · rw [f32_cutLow]; norm_num [F.toRat]
  · rw [f32_cutHigh]; norm_num [F.toRat]
  · exact ⟨rfl, rfl, rfl, rfl, rfl, rfl, rfl, rfl, rfl⟩

end Sys2Proof.Machine

/-! The two homes of the computed registers (00_scope.md R13, 10_state.md R43): a command writes those of
the number format it computes in only, and commutes with erasing the others. -/

namespace Sys2Proof.Machine

/-! ### What the number format of an instance does not compute in (log entry 23) -/

theorem sameOtherFormat_binary32 {s t : State} (h : s.cfg.num = .binary32) :
    sameOtherFormat s t ↔ t.real = s.real := by
  simp only [sameOtherFormat, h]

theorem sameOtherFormat_exact {s t : State} (h : s.cfg.num = .exact) :
    sameOtherFormat s t ↔
      t.ladder = s.ladder ∧ t.env.ev = s.env.ev ∧ t.env.et = s.env.et ∧ t.env.er = s.env.er ∧ t.obuf = s.obuf
        ∧ t.nanSeq = s.nanSeq := by
  simp only [sameOtherFormat, h]

/-- A state with the computed registers of both formats unchanged has in particular those of the other format. -/
theorem sameOtherFormat_of_registers {s t : State} (hreal : t.real = s.real) (hladder : t.ladder = s.ladder)
    (henv : t.env = s.env) (hobuf : t.obuf = s.obuf) (hseq : t.nanSeq = s.nanSeq) : sameOtherFormat s t := by
  cases h : s.cfg.num
  case binary32 => exact (sameOtherFormat_binary32 h).2 hreal
  case exact => exact (sameOtherFormat_exact h).2 ⟨hladder, by rw [henv], by rw [henv], by rw [henv], hobuf, hseq⟩

@[simp] theorem sameOtherFormat_refl (s : State) : sameOtherFormat s s :=
  sameOtherFormat_of_registers rfl rfl rfl rfl rfl

theorem sameOtherFormat_trans {s t u : State} (hcfg : t.cfg = s.cfg) (h1 : sameOtherFormat s t)
    (h2 : sameOtherFormat t u) : sameOtherFormat s u := by
  cases h : s.cfg.num
  case binary32 =>
    rw [sameOtherFormat_binary32 (by simpa [hcfg] using h)] at h1 h2 ⊢
    exact h2.trans h1
  case exact =>
    rw [sameOtherFormat_exact (by simpa [hcfg] using h)] at h1 h2 ⊢
    obtain ⟨l1, v1, t1, r1, o1, q1⟩ := h1
    obtain ⟨l2, v2, t2, r2, o2, q2⟩ := h2
    exact ⟨l2.trans l1, v2.trans v1, t2.trans t1, r2.trans r1, o2.trans o1, q2.trans q1⟩

theorem putEnv_sameOtherFormat {s : State} (h : s.cfg.num = .binary32) (e : Env F) :
    sameOtherFormat s (s.putEnv e) :=
  (sameOtherFormat_binary32 h).2 rfl

theorem putEnvExact_sameOtherFormat {s : State} (h : s.cfg.num = .exact) (e : Env ℚ) :
    sameOtherFormat s (s.putEnvExact e) :=
  (sameOtherFormat_exact h).2 ⟨rfl, rfl, rfl, rfl, rfl, rfl⟩

theorem sampleStep_sameOtherFormat (s : State) (n : Nat) : sameOtherFormat s (s.sampleStep n) := by
  cases h : s.cfg.num
  case binary32 => exact (sameOtherFormat_binary32 h).2 (sampleStep_real_of_binary32 n h)
  case exact =>
    obtain ⟨hladder, hobuf, hseq⟩ := sampleStep_words_of_exact n h
    rw [sameOtherFormat_exact h, sampleStep_env, tick_exact h]
    exact ⟨hladder, rfl, rfl, rfl, hobuf, hseq⟩

theorem sampleSteps_sameOtherFormat (s : State) (k n : Nat) : sameOtherFormat s (State.sampleSteps k n s) :=
  (sampleSteps_keeps (P := fun t => t.cfg = s.cfg ∧ sameOtherFormat s t)
    (fun t m ⟨hcfg, h⟩ => ⟨by simpa using hcfg, sameOtherFormat_trans hcfg h (sampleStep_sameOtherFormat t m)⟩)
    ⟨rfl, sameOtherFormat_refl s⟩ k n).2

/-- No command writes a computed register of the other format. -/
theorem exec_sameOtherFormat {i : Instr} {s t : State} (h : exec i s = .next t) : sameOtherFormat s t := by
  cases i with
  | setcut | setres | setmod | setenv | setkey | getcut | getres =>
    cases h
    exact sameOtherFormat_of_registers rfl rfl rfl rfl rfl
  | trig =>
    cases hn : s.cfg.num
    case binary32 =>
      rw [exec_trig_binary32 hn] at h
      cases h
      exact putEnv_sameOtherFormat hn _
    case exact =>
      rw [exec_trig_exact hn] at h
      cases h
      exact putEnvExact_sameOtherFormat hn _
  | rel =>
    cases hn : s.cfg.num
    case binary32 =>
      rw [exec_rel_binary32 hn] at h
      cases h
      exact putEnv_sameOtherFormat hn _
    case exact =>
      rw [exec_rel_exact hn] at h
      cases h
      exact putEnvExact_sameOtherFormat hn _
  | proc =>
    rw [exec_proc] at h
    cases h
    have hsteps := sampleSteps_sameOtherFormat { s with busy := true } s.cfg.frameSize 0
    exact hsteps
  | stin i v =>
    rw [exec_stin] at h
    cases h
    split_ifs <;> exact sameOtherFormat_of_registers rfl rfl rfl rfl rfl
  | ldout i =>
    rw [exec_ldout] at h
    cases h
    split_ifs <;> exact sameOtherFormat_of_registers rfl rfl rfl rfl rfl

theorem withoutOtherFormat_binary32 {s : State} (h : s.cfg.num = .binary32) :
    s.withoutOtherFormat = { s with real := ⟨⟨.zero, .zero, .zero, .zero⟩, 0, 0, 0, []⟩ } := by
  simp only [State.withoutOtherFormat, h]

theorem withoutOtherFormat_exact {s : State} (h : s.cfg.num = .exact) :
    s.withoutOtherFormat =
      { s with ladder := ⟨0, 0, 0, 0⟩, env := ⟨s.env.stage, 0, 0, 0⟩, obuf := [], nanSeq := 0 } := by
  simp only [State.withoutOtherFormat, h]

@[simp] theorem withoutOtherFormat_cfg (s : State) : s.withoutOtherFormat.cfg = s.cfg := by
  unfold State.withoutOtherFormat; split <;> rfl

@[simp] theorem withoutOtherFormat_params (s : State) : s.withoutOtherFormat.params = s.params := by
  unfold State.withoutOtherFormat; split <;> rfl

@[simp] theorem withoutOtherFormat_f32Num (s : State) : s.withoutOtherFormat.f32Num = s.f32Num := by
  simp [State.f32Num]

@[simp] theorem withoutOtherFormat_consts (s : State) : s.withoutOtherFormat.consts = s.consts := by
  simp [State.consts]

@[simp] theorem withoutOtherFormat_paramValues (s : State) : s.withoutOtherFormat.paramValues = s.paramValues := by
  simp [State.paramValues]

@[simp] theorem withoutOtherFormat_exactConsts (s : State) : s.withoutOtherFormat.exactConsts = s.exactConsts := by
  simp [State.exactConsts]

@[simp] theorem withoutOtherFormat_exactParams (s : State) : s.withoutOtherFormat.exactParams = s.exactParams := by
  simp [State.exactParams]

theorem withoutOtherFormat_envValues {s : State} (h : s.cfg.num = .binary32) :
    s.withoutOtherFormat.envValues = s.envValues := by
  rw [withoutOtherFormat_binary32 h]; rfl

theorem withoutOtherFormat_exactEnv {s : State} (h : s.cfg.num = .exact) :
    s.withoutOtherFormat.exactEnv = s.exactEnv := by
  rw [withoutOtherFormat_exact h]; rfl

theorem withoutOtherFormat_putEnv {s : State} (h : s.cfg.num = .binary32) (e : Env F) :
    s.withoutOtherFormat.putEnv e = (s.putEnv e).withoutOtherFormat := by
  rw [withoutOtherFormat_binary32 h, withoutOtherFormat_binary32 (s := s.putEnv e) h]; rfl

theorem withoutOtherFormat_putEnvExact {s : State} (h : s.cfg.num = .exact) (e : Env ℚ) :
    s.withoutOtherFormat.putEnvExact e = (s.putEnvExact e).withoutOtherFormat := by
  rw [withoutOtherFormat_exact h, withoutOtherFormat_exact (s := s.putEnvExact e) h]; rfl

theorem withoutOtherFormat_tick (s : State) : s.withoutOtherFormat.tick = s.tick.withoutOtherFormat := by
  cases h : s.cfg.num
  case binary32 =>
    rw [tick_binary32 (by simpa using h), tick_binary32 h, withoutOtherFormat_putEnv h, withoutOtherFormat_envValues h]
    simp
  case exact =>
    rw [tick_exact (by simpa using h), tick_exact h, withoutOtherFormat_putEnvExact h, withoutOtherFormat_exactEnv h]
    simp

theorem withoutOtherFormat_filterSample (s : State) (n : Nat) :
    s.withoutOtherFormat.filterSample n = (s.filterSample n).withoutOtherFormat := by
  cases h : s.cfg.num
  case binary32 =>
    rw [filterSample_binary32 (s := s.withoutOtherFormat) n (by simpa using h), withoutOtherFormat_binary32 h,
      withoutOtherFormat_binary32 (by simpa using h), filterSample_binary32 n h]
    rfl
  case exact =>
    rw [filterSample_exact (s := s.withoutOtherFormat) n (by simpa using h), withoutOtherFormat_exact h,
      withoutOtherFormat_exact (by simpa using h), filterSample_exact n h]
    rfl

theorem withoutOtherFormat_sampleStep (s : State) (n : Nat) :
    s.withoutOtherFormat.sampleStep n = (s.sampleStep n).withoutOtherFormat := by
  rw [State.sampleStep, withoutOtherFormat_tick, withoutOtherFormat_filterSample, ← State.sampleStep]

theorem withoutOtherFormat_sampleSteps (s : State) (k n : Nat) :
    State.sampleSteps k n s.withoutOtherFormat = (State.sampleSteps k n s).withoutOtherFormat := by
  induction k with
  | zero => rfl
  | succ k ih => rw [sampleSteps_succ_last, ih, withoutOtherFormat_sampleStep, ← sampleSteps_succ_last]

theorem withoutOtherFormat_setBusy (s : State) (b : Bool) :
    { s.withoutOtherFormat with busy := b } = ({ s with busy := b } : State).withoutOtherFormat := by
  unfold State.withoutOtherFormat; dsimp only; split <;> rfl

theorem withoutOtherFormat_outputBits (s : State) (i : Nat) :
    s.withoutOtherFormat.outputBits i = s.outputBits i := by
  cases h : s.cfg.num
  case binary32 =>
    rw [outputBits_binary32 (by simpa using h), outputBits_binary32 h, withoutOtherFormat_binary32 h]
  case exact => rw [outputBits_exact (by simpa using h), outputBits_exact h, withoutOtherFormat_exact h]

theorem withoutOtherFormat_putInput (s : State) (i : Nat) (w : Word) :
    s.withoutOtherFormat.putInput i w = (s.putInput i w).withoutOtherFormat := by
  unfold State.withoutOtherFormat State.putInput; dsimp only; split <;> rfl

theorem withoutOtherFormat_respond (s : State) (w : Word) :
    s.withoutOtherFormat.respond w = (s.respond w).withoutOtherFormat := by
  unfold State.withoutOtherFormat State.respond; dsimp only; split <;> rfl

theorem withoutOtherFormat_raiseFault (s : State) (code : FaultCode) :
    s.withoutOtherFormat.raiseFault code = (s.raiseFault code).withoutOtherFormat := by
  unfold State.withoutOtherFormat State.raiseFault; dsimp only; split <;> rfl

theorem withoutOtherFormat_setParams (s : State) (p : Params Word) :
    { s.withoutOtherFormat with params := p } = ({ s with params := p } : State).withoutOtherFormat := by
  unfold State.withoutOtherFormat; dsimp only; split <;> rfl

/-- What the other format's registers hold has no part in what a command does: erased before it or after it, the
same state remains. -/
theorem exec_withoutOtherFormat {i : Instr} {s t : State} (h : exec i s = .next t) :
    exec i s.withoutOtherFormat = .next t.withoutOtherFormat := by
  cases i with
  | setcut | setres | setmod | setenv | setkey =>
    cases h
    simp only [exec_setcut, exec_setres, exec_setmod, exec_setenv, exec_setkey, withoutOtherFormat_params,
      withoutOtherFormat_setParams]
  | getcut | getres =>
    cases h
    simp only [exec_getcut, exec_getres, withoutOtherFormat_params, withoutOtherFormat_respond]
  | trig =>
    cases hn : s.cfg.num
    case binary32 =>
      rw [exec_trig_binary32 hn] at h
      cases h
      rw [exec_trig_binary32 (by simpa using hn), withoutOtherFormat_putEnv hn]
      simp
    case exact =>
      rw [exec_trig_exact hn] at h
      cases h
      rw [exec_trig_exact (by simpa using hn), withoutOtherFormat_putEnvExact hn]
      simp
  | rel =>
    cases hn : s.cfg.num
    case binary32 =>
      rw [exec_rel_binary32 hn] at h
      cases h
      rw [exec_rel_binary32 (by simpa using hn), withoutOtherFormat_putEnv hn, withoutOtherFormat_envValues hn]
      simp
    case exact =>
      rw [exec_rel_exact hn] at h
      cases h
      rw [exec_rel_exact (by simpa using hn), withoutOtherFormat_putEnvExact hn, withoutOtherFormat_exactEnv hn]
      simp
  | proc =>
    cases h
    rw [exec_proc, withoutOtherFormat_setBusy, withoutOtherFormat_sampleSteps, withoutOtherFormat_setBusy,
      withoutOtherFormat_cfg]
  | stin i v =>
    rw [exec_stin] at h ⊢
    cases h
    rw [withoutOtherFormat_cfg, withoutOtherFormat_putInput, withoutOtherFormat_raiseFault]
    split_ifs <;> rfl
  | ldout i =>
    rw [exec_ldout] at h ⊢
    cases h
    rw [withoutOtherFormat_cfg, withoutOtherFormat_outputBits, withoutOtherFormat_respond,
      withoutOtherFormat_raiseFault]
    split_ifs <;> rfl

/-- Settles O49: the frame is `exec_sameOtherFormat`; two states that agree once the other format's registers are
erased lead to states that agree so, because a command and the erasure commute. -/
theorem eachFormatUsesItsOwnRegisters : Obligations.EachFormatUsesItsOwnRegisters := by
  unfold Obligations.EachFormatUsesItsOwnRegisters
  refine fun i s t h => ⟨exec_sameOtherFormat h, fun s' hs => ?_⟩
  obtain ⟨t', h'⟩ := exec_next i s'
  have herased := exec_withoutOtherFormat h'
  rw [hs, exec_withoutOtherFormat h] at herased
  exact ⟨t', h', (Host.Outcome.next.inj herased).symm⟩

end Sys2Proof.Machine

/-! Binary32 values (00_scope.md R13): rounding in the order, powers of two, and the rational of a finite value. -/

namespace Sys2Proof.Machine

/-! ### Rounding in the order of binary32 -/

theorem signedUnits_false (u : Nat) : signedUnits false u = u := rfl

theorem le_roundUnits {n d m e : Nat} (hd : 0 < d) (he : 0 < e) (h : n * e ≤ m * d) :
    F.le (roundUnits false n d) (roundUnits false m e) = true := by
  rw [le_of_ord (ord_roundUnits false n d) (ord_roundUnits false m e), decide_eq_true_eq, signedUnits_false,
    signedUnits_false]
  exact_mod_cast min_le_min_right unitsOfInf (roundMagnitude_mono hd he h)

theorem roundUnits_of_representable (neg : Bool) {u d : Nat} (hd : 0 < d) (hu : Representable u)
    (hlt : u < unitsOfInf) : roundUnits neg (u * d) d = .fin neg u := by
  unfold roundUnits
  rw [roundMagnitude_of_representable hd hu, if_neg (by omega)]

theorem representable_two_pow (k : Nat) : Representable (2 ^ k) := ⟨1, k, by norm_num, (one_mul _).symm⟩

theorem two_pow_lt_unitsOfInf {k : Nat} (h : k < 149 + 128) : 2 ^ k < unitsOfInf := by
  rw [unitsOfInf, ← pow_add]
  generalize 149 + 128 = m at h
  exact Nat.pow_lt_pow_right Nat.one_lt_two h

/-! ### Finite values as rationals -/

theorem toRat_fin (s : Bool) (u : Nat) : F.toRat (.fin s u) = (signedUnits s u : ℚ) / 2 ^ 149 := by
  cases s <;> simp [F.toRat, signedUnits]

/-- A finite value lies in the order where its rational does. -/
theorem ord_eq_toRat {v : F} (h : v.isFinite = true) : ∃ z : Int, v.ord = some z ∧ v.toRat = z / 2 ^ 149 := by
  cases v with
  | nan => cases h
  | inf => cases h
  | fin s u => exact ⟨_, ord_fin s u, toRat_fin s u⟩

theorem ord_of_toRat_eq_int {v : F} {k : Int} (h : v.isFinite = true) (hk : v.toRat = k) :
    v.ord = some (k * unitsOfOne) := by
  obtain ⟨z, hz, hq⟩ := ord_eq_toRat h
  have : (z : ℚ) = k * 2 ^ 149 := by rw [hk] at hq; field_simp at hq; linarith
  rw [hz, unitsOfOne]
  congr 1
  exact_mod_cast this

theorem toRat_two_pow_units {k : Int} (h : -149 ≤ k) : F.toRat (.fin false (2 ^ (k + 149).toNat)) = 2 ^ k := by
  rw [toRat_fin, signedUnits_false, div_eq_iff (by positivity)]
  push_cast
  rw [← zpow_natCast, ← zpow_natCast, ← zpow_add₀ (by norm_num), Int.toNat_of_nonneg (by omega)]
  rfl

end Sys2Proof.Machine

/-! `EXP2` in binary32 (00_scope.md R14): its value as a place in the order, which rises from octave to octave and
within each. -/

namespace Sys2Proof.Machine

/-! ### The series of the default `EXP2` (log entry 6) -/

theorem expHorner_mono {u v : Nat} (h : u ≤ v) (i k : Nat) : expHorner u i k ≤ expHorner v i k := by
  induction k generalizing i with
  | zero => exact le_rfl
  | succ k ih => exact Nat.add_le_add_left (Nat.div_le_div_right (Nat.mul_le_mul h (ih (i + 1)))) _

theorem unitsOfOne_le_expHorner (u i k : Nat) : unitsOfOne ≤ expHorner u i k := by
  cases k with
  | zero => exact le_rfl
  | succ k => exact Nat.le_add_right _ _

/-- At `ln 2`, rounded down, the series stays below 2. -/
theorem expHorner_ln2Units_le : expHorner ln2Units 1 48 ≤ 2 * unitsOfOne := by decide +kernel

theorem exp2Fraction_mono {t u : Nat} (h : t ≤ u) : exp2Fraction t ≤ exp2Fraction u := by
  unfold exp2Fraction
  exact expHorner_mono (Nat.div_le_div_right (Nat.mul_le_mul_right _ h)) 1 48

theorem unitsOfOne_le_exp2Fraction (t : Nat) : unitsOfOne ≤ exp2Fraction t := by
  unfold exp2Fraction
  exact unitsOfOne_le_expHorner _ 1 48

theorem exp2Fraction_le {t : Nat} (h : t < unitsOfOne) : exp2Fraction t ≤ 2 * unitsOfOne := by
  have harg : t * ln2Units / unitsOfOne ≤ ln2Units :=
    Nat.div_le_of_le_mul (Nat.mul_le_mul_right _ h.le)
  unfold exp2Fraction
  exact (expHorner_mono harg 1 48).trans expHorner_ln2Units_le

theorem exp2Fraction_zero : exp2Fraction 0 = unitsOfOne := by
  unfold exp2Fraction
  decide +kernel

/-! ### The default `EXP2` -/

/-- Within the range where it rounds, the default is the fraction `exp2Fraction t * 2^k`, rounded. -/
theorem exp2Nearest_eq_roundUnits {k : Int} (h1 : -160 ≤ k) (h2 : k < 128) (t : Nat) :
    exp2Nearest k t = roundUnits false (exp2Fraction t * 2 ^ k.toNat) (2 ^ (-k).toNat) := by
  unfold exp2Nearest
  rw [if_neg (by omega), if_neg (by omega)]
  split_ifs with h
  · rw [show (-k).toNat = 0 by omega, pow_zero]
  · rw [show k.toNat = 0 by omega, pow_zero, mul_one]

/-- What `EXP2` gives at a number: `+0.0`, a positive value or the infinity. -/
def F.IsPower (v : F) : Prop := v = .inf false ∨ ∃ u < unitsOfInf, v = .fin false u

theorem isPower_roundUnits (n d : Nat) : (roundUnits false n d).IsPower := by
  unfold roundUnits
  split_ifs with h
  · exact .inl rfl
  · exact .inr ⟨_, not_le.1 h, rfl⟩

theorem isPower_zero : (F.fin false 0).IsPower := .inr ⟨0, by decide, rfl⟩

theorem F.IsPower.positive_or_zero {v : F} (h : v.IsPower) : F.lt zeroF v = true ∨ v = zeroF := by
  obtain rfl | ⟨u, -, rfl⟩ := h
  · exact .inl (by decide)
  · rcases Nat.eq_zero_or_pos u with rfl | hu
    · exact .inr zeroF_eq.symm
    · refine .inl (lt_iff.2 ⟨_, _, ord_zeroF, ord_fin false u, ?_⟩)
      rw [signedUnits_false]
      exact_mod_cast hu

theorem F.IsPower.zero_le {v : F} (h : v.IsPower) : F.le (.fin false 0) v = true := by
  obtain rfl | ⟨u, -, rfl⟩ := h
  · decide
  · rw [le_of_ord (ord_fin false 0) (ord_fin false u)]
    simp [signedUnits_false]

theorem F.IsPower.le_inf {v : F} (h : v.IsPower) : F.le v (.inf false) = true := by
  obtain rfl | ⟨u, hu, rfl⟩ := h
  · decide
  · rw [le_of_ord (ord_fin false u) ord_inf_pos, signedUnits_false, decide_eq_true_eq]
    exact_mod_cast hu.le

theorem isPower_exp2Nearest (k : Int) (t : Nat) : (exp2Nearest k t).IsPower := by
  unfold exp2Nearest
  split_ifs
  · exact .inl rfl
  · exact isPower_zero
  · exact isPower_roundUnits _ _
  · exact isPower_roundUnits _ _

/-- The fractions that the default rounds rise within an octave and from an octave to the next. -/
theorem exp2Fraction_scaled_mono {k l : Int} {t u : Nat} (ht : t < unitsOfOne) (h : k < l ∨ k = l ∧ t ≤ u) :
    exp2Fraction t * 2 ^ k.toNat * 2 ^ (-l).toNat ≤ exp2Fraction u * 2 ^ l.toNat * 2 ^ (-k).toNat := by
  rw [mul_assoc, mul_assoc, ← pow_add, ← pow_add]
  rcases h with hlt | ⟨rfl, htu⟩
  · calc exp2Fraction t * 2 ^ (k.toNat + (-l).toNat)
        ≤ 2 * unitsOfOne * 2 ^ (k.toNat + (-l).toNat) := Nat.mul_le_mul_right _ (exp2Fraction_le ht)
      _ = unitsOfOne * 2 ^ (1 + k.toNat + (-l).toNat) := by ring
      _ ≤ unitsOfOne * 2 ^ (l.toNat + (-k).toNat) :=
          Nat.mul_le_mul_left _ (Nat.pow_le_pow_right (by norm_num) (by omega))
      _ ≤ exp2Fraction u * 2 ^ (l.toNat + (-k).toNat) := Nat.mul_le_mul_right _ (unitsOfOne_le_exp2Fraction u)
  · exact Nat.mul_le_mul_right _ (exp2Fraction_mono htu)

/-- The default rises with its argument `k + t * 2^-149`. -/
theorem exp2Nearest_mono {k l : Int} {t u : Nat} (ht : t < unitsOfOne) (h : k < l ∨ k = l ∧ t ≤ u) :
    F.le (exp2Nearest k t) (exp2Nearest l u) = true := by
  rcases lt_or_ge k (-160) with hk | hk
  · rw [exp2Nearest, if_neg (by omega), if_pos hk]
    exact (isPower_exp2Nearest l u).zero_le
  rcases lt_or_ge l 128 with hl | hl
  · rw [exp2Nearest_eq_roundUnits hk (by omega), exp2Nearest_eq_roundUnits (by omega) hl]
    exact le_roundUnits (by positivity) (by positivity) (exp2Fraction_scaled_mono ht h)
  · rw [exp2Nearest.eq_def l, if_pos hl]
    exact (isPower_exp2Nearest k t).le_inf

/-- At a whole number from -126 to 127 the default rounds the power of two itself. -/
theorem exp2Nearest_zero {k : Int} (h1 : -126 ≤ k) (h2 : k ≤ 127) :
    exp2Nearest k 0 = .fin false (2 ^ (k + 149).toNat) := by
  have hpow : exp2Fraction 0 * 2 ^ k.toNat = 2 ^ (k + 149).toNat * 2 ^ (-k).toNat := by
    rw [exp2Fraction_zero, unitsOfOne, ← pow_add, ← pow_add]
    congr 1; omega
  rw [exp2Nearest_eq_roundUnits (by omega) (by omega), hpow,
    roundUnits_of_representable false (by positivity) (representable_two_pow _) (two_pow_lt_unitsOfInf (by omega))]

/-! ### The implementation's own `EXP2` (U9, log entry 6) -/

theorem countBelow_mono {p q : Nat → Bool} (h : ∀ m, p m = true → q m = true) (n : Nat) :
    countBelow p n ≤ countBelow q n := by
  induction n with
  | zero => exact le_rfl
  | succ n ih =>
    have hn := h n
    unfold countBelow
    split_ifs with hp hq
    · omega
    · exact absurd (hn hp) hq
    · omega
    · omega

theorem countBelow_le (p : Nat → Bool) (n : Nat) : countBelow p n ≤ n := by
  induction n with
  | zero => exact le_rfl
  | succ n ih => unfold countBelow; split_ifs <;> omega

theorem exp2Steps_le (i : Nat) (x : Int) : exp2Steps i x ≤ 2 ^ 23 := by
  unfold exp2Steps
  exact countBelow_le _ _

theorem exp2Steps_mono (i : Nat) {x y : Int} (hr : exp2Octave x = exp2Octave y) (h : x ≤ y) :
    exp2Steps i x ≤ exp2Steps i y := by
  unfold exp2Steps
  rw [hr]
  exact countBelow_mono (fun m hm => by simp only [decide_eq_true_eq] at hm ⊢; exact hm.trans h) _

theorem exp2Octave_mono {x y : Int} (h : x ≤ y) : exp2Octave x ≤ exp2Octave y := by
  have hdiv : x / (unitsOfOne : Int) ≤ y / unitsOfOne := Int.ediv_le_ediv (by exact_mod_cast unitsOfOne_pos) h
  unfold exp2Octave
  omega

theorem exp2Octave_ge (x : Int) : -127 ≤ exp2Octave x := by unfold exp2Octave; omega

/-- The least value of an octave, in units: `2^r`, or zero below `2^-126`. -/
def octaveUnits (r : Int) : Nat := if r < -126 then 0 else 2 ^ (r + 149).toNat

theorem octaveUnits_mono {r q : Int} (h : r ≤ q) : octaveUnits r ≤ octaveUnits q := by
  unfold octaveUnits
  split_ifs
  · exact le_rfl
  · exact Nat.zero_le _
  · omega
  · exact Nat.pow_le_pow_right (by norm_num) (by omega)

/-- The size of one of the `2^23` steps of octave `r`, in units. -/
def octaveStep (r : Int) : Nat := if r < -126 then 1 else 2 ^ (r + 126).toNat

theorem octaveUnits_succ {r : Int} (h : -127 ≤ r) : octaveUnits (r + 1) = octaveUnits r + 2 ^ 23 * octaveStep r := by
  unfold octaveUnits octaveStep
  rcases h.eq_or_lt with rfl | h
  · decide
  · rw [if_neg (by omega), if_neg (by omega), if_neg (by omega), ← pow_add,
      show (r + 1 + 149).toNat = (r + 149).toNat + 1 by omega, show 23 + (r + 126).toNat = (r + 149).toNat by omega]
    ring

/-- The arguments at which EXP2_INT fixes the value (R14): the whole numbers from -126 to 127, in units. -/
abbrev AtWholeNumber (x : Int) : Prop := x % unitsOfOne = 0 ∧ -126 ≤ x / unitsOfOne ∧ x / unitsOfOne ≤ 127

theorem AtWholeNumber.octave {x : Int} (h : AtWholeNumber x) : exp2Octave x = x / unitsOfOne := by
  obtain ⟨-, h1, h2⟩ := h
  unfold exp2Octave
  omega

/-- Such a whole number is the least argument of its octave. -/
theorem AtWholeNumber.le_of_octave {x y : Int} (h : AtWholeNumber y) (heq : exp2Octave x = exp2Octave y) : y ≤ x := by
  have hy := h.octave
  obtain ⟨h0, h1, h2⟩ := h
  have hpos : (0 : Int) < unitsOfOne := by exact_mod_cast unitsOfOne_pos
  have hdiv : y / unitsOfOne ≤ x / unitsOfOne := by
    rw [hy] at heq
    unfold exp2Octave at heq
    omega
  calc y = y / unitsOfOne * unitsOfOne := by rw [Int.ediv_mul_cancel (Int.dvd_of_emod_eq_zero h0)]
    _ ≤ x / unitsOfOne * unitsOfOne := Int.mul_le_mul_of_nonneg_right hdiv hpos.le
    _ ≤ x := Int.ediv_mul_le x hpos.ne'

/-- The value of the `EXP2` numbered `i` at `x` units, in units, before the overflow to infinity. -/
def exp2OtherUnits (i : Nat) (x : Int) : Nat :=
  if AtWholeNumber x then octaveUnits (exp2Octave x)
  else octaveUnits (exp2Octave x) + exp2Steps i x * octaveStep (exp2Octave x)

theorem octaveUnits_le_exp2OtherUnits (i : Nat) (x : Int) : octaveUnits (exp2Octave x) ≤ exp2OtherUnits i x := by
  unfold exp2OtherUnits
  split_ifs
  · exact le_rfl
  · exact Nat.le_add_right _ _

theorem exp2OtherUnits_le_octaveUnits_succ (i : Nat) (x : Int) :
    exp2OtherUnits i x ≤ octaveUnits (exp2Octave x + 1) := by
  unfold exp2OtherUnits
  split_ifs
  · exact octaveUnits_mono (by omega)
  · rw [octaveUnits_succ (exp2Octave_ge x)]
    exact Nat.add_le_add_left (Nat.mul_le_mul_right _ (exp2Steps_le i x)) _

/-- The value rises within an octave and from an octave to the next. -/
theorem exp2OtherUnits_mono (i : Nat) {x y : Int} (h : x ≤ y) : exp2OtherUnits i x ≤ exp2OtherUnits i y := by
  rcases (exp2Octave_mono h).lt_or_eq with hlt | heq
  · calc exp2OtherUnits i x ≤ octaveUnits (exp2Octave x + 1) := exp2OtherUnits_le_octaveUnits_succ i x
      _ ≤ octaveUnits (exp2Octave y) := octaveUnits_mono hlt
      _ ≤ exp2OtherUnits i y := octaveUnits_le_exp2OtherUnits i y
  by_cases hx : AtWholeNumber x
  · rw [exp2OtherUnits, if_pos hx, heq]
    exact octaveUnits_le_exp2OtherUnits i y
  by_cases hy : AtWholeNumber y
  · exact absurd (le_antisymm h (hy.le_of_octave heq) ▸ hy) hx
  · rw [exp2OtherUnits, if_neg hx, exp2OtherUnits, if_neg hy, heq]
    exact Nat.add_le_add_left (Nat.mul_le_mul_right _ (exp2Steps_mono i heq h)) _

/-! ### `EXP2` as a function of the place of its argument -/

/-- The value of `u` units, or the infinity from `2^128` on. -/
def ofUnits (u : Nat) : F := if unitsOfInf ≤ u then .inf false else .fin false u

theorem isPower_ofUnits (u : Nat) : (ofUnits u).IsPower := by
  unfold ofUnits
  split_ifs with h
  · exact .inl rfl
  · exact .inr ⟨u, not_le.1 h, rfl⟩

theorem ofUnits_mono {u v : Nat} (h : u ≤ v) : F.le (ofUnits u) (ofUnits v) = true := by
  rcases lt_or_ge v unitsOfInf with hv | hv
  · rw [ofUnits, ofUnits, if_neg (by omega), if_neg (by omega), le_of_ord (ord_fin false u) (ord_fin false v)]
    simpa [signedUnits_false] using h
  · rw [ofUnits.eq_def v, if_pos hv]
    exact (isPower_ofUnits u).le_inf

theorem toNat_emod_eq_zero_iff (u : Int) : (u % (unitsOfOne : Int)).toNat = 0 ↔ u % (unitsOfOne : Int) = 0 := by
  have := Int.emod_nonneg u (show (unitsOfOne : Int) ≠ 0 by exact_mod_cast unitsOfOne_pos.ne')
  omega

/-- EXP2_INT (R14): at a whole number from -126 to 127, the power of two. -/
theorem exp2Value_of_atWholeNumber (c : Exp2Choice) {x : F} {u : Int} (h : x.ord = some u) (hw : AtWholeNumber u) :
    exp2Value c x = .fin false (2 ^ (u / unitsOfOne + 149).toNat) := by
  unfold exp2Value
  simp only [h]
  rw [if_pos (by rwa [toNat_emod_eq_zero_iff])]

/-- The default, the whole numbers among its arguments. -/
theorem exp2Value_nearest {x : F} {u : Int} (h : x.ord = some u) :
    exp2Value .nearest x = exp2Nearest (u / unitsOfOne) (u % unitsOfOne).toNat := by
  by_cases hw : AtWholeNumber u
  · rw [exp2Value_of_atWholeNumber .nearest h hw]
    obtain ⟨h0, h1, h2⟩ := hw
    rw [h0]
    exact (exp2Nearest_zero h1 h2).symm
  · unfold exp2Value
    simp only [h]
    rw [if_neg (by rwa [toNat_emod_eq_zero_iff])]

theorem exp2Other_eq_ofUnits (i : Nat) (x : Int) :
    exp2Other i x = ofUnits (octaveUnits (exp2Octave x) + exp2Steps i x * octaveStep (exp2Octave x)) := by
  unfold exp2Other ofUnits octaveUnits octaveStep
  dsimp only
  by_cases h : exp2Octave x < -126
  · rw [if_pos h, if_pos h, if_pos h, Nat.zero_add, Nat.mul_one]
  · rw [if_neg h, if_neg h, if_neg h]

/-- An implementation's own function, the whole numbers among its arguments. -/
theorem exp2Value_other (i : Nat) {x : F} {u : Int} (h : x.ord = some u) :
    exp2Value (.other i) x = ofUnits (exp2OtherUnits i u) := by
  by_cases hw : AtWholeNumber u
  · rw [exp2Value_of_atWholeNumber _ h hw, exp2OtherUnits, if_pos hw, hw.octave]
    obtain ⟨-, h1, h2⟩ := hw
    have hlt := two_pow_lt_unitsOfInf (k := (u / unitsOfOne + 149).toNat) (by omega)
    rw [octaveUnits, if_neg (by omega), ofUnits, if_neg (by omega)]
  · unfold exp2Value
    simp only [h]
    rw [if_neg (by rwa [toNat_emod_eq_zero_iff]), exp2OtherUnits, if_neg hw, exp2Other_eq_ofUnits]

theorem isPower_exp2Value (c : Exp2Choice) {x : F} {u : Int} (h : x.ord = some u) : (exp2Value c x).IsPower := by
  cases c with
  | nearest => rw [exp2Value_nearest h]; exact isPower_exp2Nearest _ _
  | other i => rw [exp2Value_other i h]; exact isPower_ofUnits _

/-- EXP2_MONO (R14), at the infinities too. -/
theorem exp2Value_mono (c : Exp2Choice) {x y : F} (h : F.le x y = true) :
    F.le (exp2Value c x) (exp2Value c y) = true := by
  obtain ⟨u, v, hu, hv, huv⟩ := le_iff.1 h
  cases c with
  | nearest =>
    have hpos : (0 : Int) < unitsOfOne := by exact_mod_cast unitsOfOne_pos
    have hdiv : u / (unitsOfOne : Int) ≤ v / unitsOfOne := Int.ediv_le_ediv hpos huv
    have hmod := Int.emod_lt_of_pos u hpos
    have hu' := Int.mul_ediv_add_emod u unitsOfOne
    have hv' := Int.mul_ediv_add_emod v unitsOfOne
    rw [exp2Value_nearest hu, exp2Value_nearest hv]
    refine exp2Nearest_mono (by omega) ?_
    rcases hdiv.lt_or_eq with hlt | heq
    · exact .inl hlt
    · rw [heq] at hu'
      exact .inr ⟨heq, by omega⟩
  | other i =>
    rw [exp2Value_other i hu, exp2Value_other i hv]
    exact ofUnits_mono (exp2OtherUnits_mono i huv)

/-! ### The four named properties (R14) -/

/-- EXP2_INT (R14) on the rational that a finite argument stands for. -/
theorem exp2Value_of_toRat_eq_int (c : Exp2Choice) {x : F} {k : Int} (h1 : -126 ≤ k) (h2 : k ≤ 127)
    (hx : x.isFinite = true) (hk : x.toRat = k) : exp2Value c x = .fin false (2 ^ (k + 149).toNat) := by
  have hone : (unitsOfOne : Int) ≠ 0 := by exact_mod_cast unitsOfOne_pos.ne'
  have hdiv : k * (unitsOfOne : Int) / unitsOfOne = k := Int.mul_ediv_cancel k hone
  have hw : AtWholeNumber (k * unitsOfOne) := ⟨Int.mul_emod_left k _, by omega, by omega⟩
  rw [exp2Value_of_atWholeNumber c (ord_of_toRat_eq_int hx hk) hw, hdiv]

/-- Settles O31: EXP2_INT by evaluation, of which EXP2_ZERO is a case; EXP2_POS by the form of the values; EXP2_MONO by
the two lemmas on the rise of the default and of the other choices. -/
theorem exp2NamedProperties : Obligations.Exp2NamedProperties := by
  unfold Obligations.Exp2NamedProperties
  refine fun c => ⟨fun neg => ?zero, fun k x h1 h2 hx hk => ?int, fun x hx => ?pos, fun x y => exp2Value_mono c⟩
  case zero =>
    have hk : F.toRat (.fin neg 0) = (0 : Int) := by simp [toRat_fin]
    rw [exp2Value_of_toRat_eq_int c (by norm_num) (by norm_num) rfl hk, oneF_eq]
    decide
  case int =>
    rw [exp2Value_of_toRat_eq_int c h1 h2 hx hk]
    exact ⟨rfl, toRat_two_pow_units (by omega)⟩
  case pos =>
    obtain ⟨u, hu, -⟩ := ord_eq_toRat hx
    exact (isPower_exp2Value c hu).positive_or_zero

end Sys2Proof.Machine

/-! The operations of binary32 (00_scope.md R13) are correctly rounded. -/

namespace Sys2Proof.Machine

/-! ### The nearest whole number, and the nearest value of 24 bits -/

/-- The multiples of `d`, in units of which `n / d` lies between the 0th and the 1st. -/
theorem multiple_cases (d : Nat) (j : Int) :
    j ≤ -1 ∧ j * d ≤ -d ∨ j = 0 ∧ j * d = 0 ∨ j = 1 ∧ j * d = d ∨ 2 ≤ j ∧ 2 * (d : Int) ≤ j * d := by
  have hd : (0 : Int) ≤ d := Int.natCast_nonneg d
  obtain h | rfl | rfl | h : j ≤ -1 ∨ j = 0 ∨ j = 1 ∨ 2 ≤ j := by omega
  · exact .inl ⟨h, by nlinarith⟩
  · exact .inr (.inl ⟨rfl, zero_mul _⟩)
  · exact .inr (.inr (.inl ⟨rfl, one_mul _⟩))
  · exact .inr (.inr (.inr ⟨h, by nlinarith⟩))

/-- No whole number is nearer to `n / d` than the rounded one, and a tie is broken to an even one. -/
theorem roundHalfEven_nearest {n d : Nat} (hd : 0 < d) (m : Int) :
    ((roundHalfEven n d : Int) * d - n).natAbs ≤ (m * d - n).natAbs ∧
    (((roundHalfEven n d : Int) * d - n).natAbs = (m * d - n).natAbs → m ≠ roundHalfEven n d →
      roundHalfEven n d % 2 = 0) := by
  have hr : n % d < d := Nat.mod_lt n hd
  have hn : (n : Int) = (n / d : Nat) * d + (n % d : Nat) := by
    rw [mul_comm]; exact_mod_cast (Nat.div_add_mod n d).symm
  have hm : m * d - n = (m - (n / d : Nat)) * d - (n % d : Nat) := by linear_combination -hn
  have hj := multiple_cases d (m - (n / d : Nat))
  rw [hm]
  unfold roundHalfEven
  dsimp only
  split_ifs with h
  · have hup : ((n / d + 1 : Nat) : Int) * d - n = d - (n % d : Nat) := by push_cast at hn ⊢; linear_combination -hn
    rw [hup]
    omega
  · have hdown : ((n / d : Nat) : Int) * d - n = -(n % d : Nat) := by linear_combination -hn
    rw [hdown]
    omega

/-- Before scaling back, the rounded magnitude has at most 24 bits and a carry, and at least 24 if it was scaled. -/
theorem roundHalfEven_shift_bounds {n d : Nat} (hd : 0 < d) :
    roundHalfEven n (d * 2 ^ ((n / d).log2 - 23)) ≤ 2 ^ 24 ∧
    (0 < (n / d).log2 - 23 → 2 ^ 23 * (d * 2 ^ ((n / d).log2 - 23)) ≤ n ∧
      2 ^ 23 ≤ roundHalfEven n (d * 2 ^ ((n / d).log2 - 23))) := by
  have hupper := lt_two_pow_shift (n / d)
  have hlower := two_pow_le_of_shift_pos (q := n / d)
  generalize (n / d).log2 - 23 = sh at *
  have hD : 0 < d * 2 ^ sh := by positivity
  constructor
  · have hlt : n < 2 ^ 24 * (d * 2 ^ sh) := by
      rw [Nat.div_lt_iff_lt_mul hd, pow_add] at hupper
      linarith
    rw [← roundHalfEven_mul (2 ^ 24) hD]
    exact roundHalfEven_mono hD hD (Nat.mul_le_mul_right _ hlt.le)
  · intro h
    have hle : 2 ^ 23 * (d * 2 ^ sh) ≤ n := by
      have := hlower h
      rw [Nat.le_div_iff_mul_le hd, pow_add] at this
      linarith
    refine ⟨hle, ?_⟩
    rw [← roundHalfEven_mul (2 ^ 23) hD]
    exact roundHalfEven_mono hD hD (Nat.mul_le_mul_right _ hle)

/-- A magnitude whose last bit, as binary32 writes it, is 0. -/
def EvenMagnitude (u : Nat) : Prop := ∃ q k, u = q * 2 ^ k ∧ q % 2 = 0 ∧ q ≤ 2 ^ 24 ∧ (0 < k → 2 ^ 23 ≤ q)

/-- A representable magnitude is a multiple of the shift's power, or it lies below every scaled fraction. -/
theorem Representable.multiple_or_small {y : Int} (h : Representable y.natAbs) (sh : Nat) :
    (∃ j : Int, y = j * 2 ^ sh) ∨ 0 < sh ∧ y < 2 ^ 23 * 2 ^ sh := by
  obtain ⟨m, k, hm, hy⟩ := h
  rcases Nat.lt_or_ge k sh with hk | hk
  · have hlt : y.natAbs < 2 ^ 23 * 2 ^ sh := by
      calc y.natAbs = m * 2 ^ k := hy
        _ < 2 ^ 24 * 2 ^ k := Nat.mul_lt_mul_of_pos_right hm (by positivity)
        _ = 2 ^ 23 * 2 ^ (k + 1) := by ring
        _ ≤ 2 ^ 23 * 2 ^ sh := Nat.mul_le_mul_left _ (Nat.pow_le_pow_right (by norm_num) hk)
    have hlt' : (y.natAbs : Int) < 2 ^ 23 * 2 ^ sh := by exact_mod_cast hlt
    exact .inr ⟨by omega, by omega⟩
  · have hdvd : 2 ^ sh ∣ y.natAbs := hy ▸ Dvd.dvd.mul_left (pow_dvd_pow 2 hk) m
    obtain ⟨j, hj⟩ := Int.natCast_dvd.2 hdvd
    exact .inl ⟨j, by rw [hj]; push_cast; ring⟩

/-- No representable value is nearer to `n / d` than the rounded magnitude, and a tie is broken to an even one. -/
theorem roundMagnitude_nearest {n d : Nat} (hd : 0 < d) {y : Int} (hy : Representable y.natAbs) :
    ((roundMagnitude n d : Int) * d - n).natAbs ≤ (y * d - n).natAbs ∧
    (((roundMagnitude n d : Int) * d - n).natAbs = (y * d - n).natAbs → y ≠ roundMagnitude n d →
      EvenMagnitude (roundMagnitude n d)) := by
  obtain ⟨hle, hge⟩ := roundHalfEven_shift_bounds (n := n) hd
  unfold roundMagnitude
  dsimp only
  generalize (n / d).log2 - 23 = sh at *
  have hnearest := roundHalfEven_nearest (n := n) (d := d * 2 ^ sh) (by positivity)
  generalize roundHalfEven n (d * 2 ^ sh) = q at *
  have hscale : ∀ j : Int, j * 2 ^ sh * d - n = j * (d * 2 ^ sh : Nat) - n := fun j => by push_cast; ring
  have hq : ((q * 2 ^ sh : Nat) : Int) = q * 2 ^ sh := by push_cast; rfl
  rw [hq, hscale]
  rcases hy.multiple_or_small sh with ⟨j, rfl⟩ | ⟨hsh, hsmall⟩
  · rw [hscale]
    refine ⟨(hnearest j).1, fun htie hne => ⟨q, sh, rfl, (hnearest j).2 htie ?_, hle, fun h => (hge h).2⟩⟩
    rintro rfl
    exact hne rfl
  · have hfar : ((2 ^ 23 : Nat) * (d * 2 ^ sh : Nat) - n : Int).natAbs < (y * d - n).natAbs := by
      have hn : ((2 ^ 23 : Nat) * (d * 2 ^ sh : Nat) : Int) ≤ n := by exact_mod_cast (hge hsh).1
      have hyd : y * d < (2 ^ 23 : Nat) * (d * 2 ^ sh : Nat) := by
        calc y * d < 2 ^ 23 * 2 ^ sh * d := mul_lt_mul_of_pos_right hsmall (by exact_mod_cast hd)
          _ = (2 ^ 23 : Nat) * (d * 2 ^ sh : Nat) := by push_cast; ring
      omega
    have hlt := (hnearest (2 ^ 23 : Nat)).1.trans_lt hfar
    exact ⟨hlt.le, fun htie => absurd htie hlt.ne⟩

/-! ### The last bit of a word -/

theorem packFields_getLsbD_zero (neg : Bool) (e frac : Nat) :
    (packFields neg e frac).getLsbD 0 = decide (frac % 2 = 1) := by
  unfold packFields
  rw [BitVec.getLsbD_ofNat, Nat.testBit_zero, Bool.eq_iff_iff]
  cases neg <;> simp <;> omega

theorem EvenMagnitude.lastBit {u : Nat} (h : EvenMagnitude u) (n : Nat) (neg : Bool) :
    (bitsOfF32 n (.fin neg u)).getLsbD 0 = false := by
  obtain ⟨q, k, rfl, heven, hle, hge⟩ := h
  obtain hsub | ⟨hlo, hhi⟩ | rfl : q < 2 ^ 23 ∨ (2 ^ 23 ≤ q ∧ q < 2 ^ 24) ∨ q = 2 ^ 24 := by omega
  · obtain rfl : k = 0 := by omega
    rw [pow_zero, mul_one, bitsOfF32, if_pos hsub, packFields_getLsbD_zero]
    simp [heven]
  · obtain ⟨frac, rfl⟩ := Nat.exists_eq_add_of_le hlo
    rw [bitsOfF32_normal (by omega), packFields_getLsbD_zero]
    simp; omega
  · rw [show 2 ^ 24 * 2 ^ k = (2 ^ 23 + 0) * 2 ^ (k + 1) by ring, bitsOfF32_normal (by norm_num),
      packFields_getLsbD_zero]
    rfl

/-! ### Overflow -/

/-- Half a last place above the greatest finite value, in units. -/
def overflowUnits : Nat := (2 ^ 25 - 1) * 2 ^ 252

/-- The greatest finite value, in units. -/
def maxUnits : Nat := (2 ^ 24 - 1) * 2 ^ 253

theorem maxUnits_add_half : maxUnits + 2 ^ 252 = overflowUnits := by decide +kernel

theorem overflowUnits_add_half : overflowUnits + 2 ^ 252 = unitsOfInf := by decide +kernel

theorem representable_maxUnits : Representable maxUnits := ⟨2 ^ 24 - 1, 253, by norm_num, rfl⟩

/-- The rounding overflows from half a last place above the greatest finite value on. -/
theorem unitsOfInf_le_roundMagnitude_iff {n d : Nat} (hd : 0 < d) :
    unitsOfInf ≤ roundMagnitude n d ↔ overflowUnits * d ≤ n := by
  constructor
  · intro h
    by_contra hlt
    have hmax : maxUnits * d < n := by
      by_contra hle
      have hround := roundMagnitude_le hd representable_maxUnits (not_lt.1 hle)
      have := maxUnits_add_half
      have := overflowUnits_add_half
      omega
    have hnear := (roundMagnitude_nearest (n := n) hd (y := maxUnits) representable_maxUnits).1
    have hinf : unitsOfInf * d ≤ roundMagnitude n d * d := Nat.mul_le_mul_right d h
    rw [← overflowUnits_add_half, Nat.add_mul] at hinf
    rw [← maxUnits_add_half, Nat.add_mul] at hlt hinf
    rw [← Nat.cast_mul, ← Nat.cast_mul] at hnear
    omega
  · intro h
    have hhalf : roundMagnitude overflowUnits 1 = unitsOfInf := by decide +kernel
    rw [← hhalf]
    exact roundMagnitude_mono one_pos hd (by rwa [mul_one])

/-! ### Rounding a fraction to a value -/

/-- The distance of two places in units, as a distance of the rationals they stand for. -/
theorem abs_signedUnits_sub (neg : Bool) (y : Int) (n : Nat) {d : Nat} (hd : 0 < d) :
    |((if neg then -y else y : Int) : ℚ) / 2 ^ 149 - (signedUnits neg n : ℚ) / d / 2 ^ 149| =
      ((y * d - n).natAbs : ℚ) / (d * 2 ^ 149) := by
  have hd' : (0 : ℚ) < d := by exact_mod_cast hd
  have hscale : |(y : ℚ) / 2 ^ 149 - (n : ℚ) / d / 2 ^ 149| = ((y * d - n).natAbs : ℚ) / (d * 2 ^ 149) := by
    rw [Nat.cast_natAbs, show (y : ℚ) / 2 ^ 149 - (n : ℚ) / d / 2 ^ 149 = (y * d - n) / (d * 2 ^ 149) by field_simp,
      abs_div, abs_of_pos (show (0 : ℚ) < d * 2 ^ 149 by positivity)]
    push_cast
    rfl
  cases neg with
  | false => simpa [signedUnits] using hscale
  | true =>
    rw [← hscale, ← abs_neg]
    simp only [signedUnits, if_true]
    push_cast
    congr 1
    ring

theorem cast_overflowUnits : ((overflowUnits : Nat) : ℚ) = (2 ^ 128 - 2 ^ 103) * 2 ^ 149 := by
  norm_num [overflowUnits]

/-- Every finite value of a word has a representable place, counted along the sign `neg`. -/
theorem toRat_along {w : Word} (hw : (f32OfBits w).isFinite = true) (neg : Bool) :
    ∃ y : Int, Representable y.natAbs ∧ (f32OfBits w).toRat = ((if neg then -y else y : Int) : ℚ) / 2 ^ 149 := by
  obtain ⟨s, u, hv, hrep, -⟩ := ord_held (held_f32OfBits w) hw
  refine ⟨if neg then -signedUnits s u else signedUnits s u, ?_, ?_⟩
  · cases neg <;> simpa using hrep
  · rw [hv, toRat_fin]
    cases neg <;> simp

theorem abs_units (neg : Bool) (n d : Nat) : |(signedUnits neg n : ℚ) / d / 2 ^ 149| = (n : ℚ) / d / 2 ^ 149 := by
  rw [abs_div, abs_div, ← Int.cast_abs, Int.abs_eq_natAbs, signedUnits_natAbs]
  simp

theorem overflows_iff (neg : Bool) {n d : Nat} (hd : 0 < d) :
    (2 ^ 128 - 2 ^ 103 : ℚ) ≤ |(signedUnits neg n : ℚ) / d / 2 ^ 149| ↔ unitsOfInf ≤ roundMagnitude n d := by
  have hd' : (0 : ℚ) < d := by exact_mod_cast hd
  rw [abs_units, unitsOfInf_le_roundMagnitude_iff hd, le_div_iff₀ (by positivity), le_div_iff₀ hd',
    ← Nat.cast_le (α := ℚ), Nat.cast_mul, cast_overflowUnits]

theorem decide_units_neg (neg : Bool) {n d : Nat} (hn : 0 < n) (hd : 0 < d) :
    decide ((signedUnits neg n : ℚ) / d / 2 ^ 149 < 0) = neg := by
  have hpos : (0 : ℚ) < (n : ℚ) / d / 2 ^ 149 := by positivity
  cases neg with
  | false => simpa [signedUnits] using hpos.le
  | true => simpa [signedUnits, neg_div] using hpos

/-- The rounding of `n / d` units is the correct one (R13). -/
theorem roundsTo_roundUnits (neg : Bool) {n d : Nat} (hd : 0 < d) :
    roundsTo ((signedUnits neg n : ℚ) / d / 2 ^ 149) (roundUnits neg n d) := by
  unfold roundsTo roundUnits
  by_cases hover : unitsOfInf ≤ roundMagnitude n d
  · have hn : 0 < n := by
      by_contra h0
      obtain rfl : n = 0 := by omega
      rw [roundMagnitude_zero] at hover
      exact absurd hover (by decide)
    rw [if_pos ((overflows_iff neg hd).2 hover), if_pos hover, decide_units_neg neg hn hd]
  · rw [if_neg (mt (overflows_iff neg hd).1 hover), if_neg hover]
    refine ⟨held_fin neg (representable_roundMagnitude hd) (not_le.1 hover), rfl, fun w hw => ?_⟩
    obtain ⟨y, hy, hval⟩ := toRat_along hw neg
    obtain ⟨hle, htie⟩ := roundMagnitude_nearest (n := n) hd hy
    rw [hval, toRat_fin, signedUnits, abs_signedUnits_sub neg _ n hd, abs_signedUnits_sub neg _ n hd,
      div_le_div_iff_of_pos_right (by positivity), div_left_inj' (by positivity), Nat.cast_le, Nat.cast_inj]
    refine ⟨hle, fun heq hne => (htie heq ?_).lastBit 0 neg⟩
    rintro rfl
    exact hne rfl

/-! ### The four operations -/

theorem roundsTo_of_units {z : ℚ} {neg : Bool} {n d : Nat} (hd : 0 < d)
    (hz : z = (signedUnits neg n : ℚ) / d / 2 ^ 149) : roundsTo z (roundUnits neg n d) :=
  hz ▸ roundsTo_roundUnits neg hd

theorem roundUnits_zero (neg : Bool) (d : Nat) : roundUnits neg 0 d = .fin neg 0 := by
  unfold roundUnits
  rw [roundMagnitude_zero]
  rfl

theorem signedUnits_same (s : Bool) (a b : Nat) : signedUnits s a + signedUnits s b = signedUnits s (a + b) := by
  cases s <;> simp [signedUnits]; omega

theorem signedUnits_not (s : Bool) (a : Nat) : signedUnits (!s) a = -signedUnits s a := by
  cases s <;> simp [signedUnits]

/-- Operands of opposite signs: the greater magnitude decides. -/
theorem signedUnits_opposite (s : Bool) {a b : Nat} (h : b ≤ a) :
    signedUnits s a + signedUnits (!s) b = signedUnits s (a - b) := by
  cases s <;> simp [signedUnits] <;> omega

/-- A sum of finite values is the rounding of the sum of their units. -/
theorem add_eq_roundUnits (s t : Bool) (a b : Nat) : ∃ neg n, F.add (.fin s a) (.fin t b) = roundUnits neg n 1 ∧
    signedUnits s a + signedUnits t b = signedUnits neg n := by
  unfold F.add
  dsimp only
  split_ifs with hst hab hlt
  · subst hst
    exact ⟨s, a + b, rfl, signedUnits_same s a b⟩
  · subst hab
    obtain rfl : t = !s := by cases s <;> cases t <;> simp_all
    exact ⟨false, 0, (roundUnits_zero false 1).symm, by simp [signedUnits_not]⟩
  · obtain rfl : t = !s := by cases s <;> cases t <;> simp_all
    exact ⟨s, a - b, rfl, signedUnits_opposite s hlt.le⟩
  · obtain rfl : s = !t := by cases s <;> cases t <;> simp_all
    exact ⟨t, b - a, rfl, by rw [add_comm]; exact signedUnits_opposite t (not_lt.1 hlt)⟩

theorem roundsTo_add (s t : Bool) (a b : Nat) :
    roundsTo (F.toRat (.fin s a) + F.toRat (.fin t b)) (F.add (.fin s a) (.fin t b)) := by
  obtain ⟨neg, n, hround, hsum⟩ := add_eq_roundUnits s t a b
  rw [hround]
  refine roundsTo_of_units one_pos ?_
  rw [toRat_fin, toRat_fin, ← add_div, ← Int.cast_add, hsum, Nat.cast_one, div_one]

theorem toRat_neg {v : F} (h : v.isFinite = true) : v.neg.toRat = -v.toRat := by
  cases v with
  | nan => cases h
  | inf => cases h
  | fin s u => cases s <;> simp [F.neg, F.toRat, neg_div]

theorem roundsTo_sub (s t : Bool) (a b : Nat) :
    roundsTo (F.toRat (.fin s a) - F.toRat (.fin t b)) (F.sub (.fin s a) (.fin t b)) := by
  rw [sub_eq_add_neg, ← toRat_neg rfl]
  exact roundsTo_add s (!t) a b

theorem signedUnits_mul (s t : Bool) (a b : Nat) : signedUnits s a * signedUnits t b = signedUnits (s != t) (a * b) := by
  cases s <;> cases t <;> simp [signedUnits]

theorem cast_unitsOfOne : ((unitsOfOne : Nat) : ℚ) = 2 ^ 149 := by norm_num [unitsOfOne]

theorem roundsTo_mul (s t : Bool) (a b : Nat) :
    roundsTo (F.toRat (.fin s a) * F.toRat (.fin t b)) (F.mul (.fin s a) (.fin t b)) := by
  refine roundsTo_of_units unitsOfOne_pos ?_
  rw [toRat_fin, toRat_fin, ← signedUnits_mul, cast_unitsOfOne]
  push_cast
  ring

theorem roundsTo_div (s t : Bool) (a : Nat) {b : Nat} (hb : b ≠ 0) :
    roundsTo (F.toRat (.fin s a) / F.toRat (.fin t b)) (F.div (.fin s a) (.fin t b)) := by
  unfold F.div
  dsimp only
  rw [if_neg hb]
  refine roundsTo_of_units (Nat.pos_of_ne_zero hb) ?_
  have hb' : (b : ℚ) ≠ 0 := by exact_mod_cast hb
  have hsign : (signedUnits t unitsOfOne : ℚ) / b = 2 ^ 149 / signedUnits t b := by
    cases t <;> simp [signedUnits, cast_unitsOfOne, neg_div, div_neg]
  rw [toRat_fin, toRat_fin, div_div_div_cancel_right₀ (by positivity), ← signedUnits_mul, Int.cast_mul, mul_div_assoc,
    hsign]
  ring

/-! ### Comparisons and NaNs -/

theorem le_iff_toRat {v w : F} (hv : v.isFinite = true) (hw : w.isFinite = true) :
    F.le v w = true ↔ v.toRat ≤ w.toRat := by
  obtain ⟨x, hx, hvx⟩ := ord_eq_toRat hv
  obtain ⟨y, hy, hwy⟩ := ord_eq_toRat hw
  rw [le_of_ord hx hy, hvx, hwy, decide_eq_true_eq, div_le_div_iff_of_pos_right (by positivity), Int.cast_le]

theorem lt_iff_toRat {v w : F} (hv : v.isFinite = true) (hw : w.isFinite = true) :
    F.lt v w = true ↔ v.toRat < w.toRat := by
  obtain ⟨x, hx, hvx⟩ := ord_eq_toRat hv
  obtain ⟨y, hy, hwy⟩ := ord_eq_toRat hw
  rw [lt_of_ord hx hy, hvx, hwy, decide_eq_true_eq, div_lt_div_iff_of_pos_right (by positivity), Int.cast_lt]

theorem not_le_of_isNan {v w : F} (h : v.isNan = true ∨ w.isNan = true) : F.le v w = false := by
  rw [← ord_eq_none_iff, ← ord_eq_none_iff] at h
  rcases h with h | h <;> simp [F.le, h]

theorem not_lt_of_isNan {v w : F} (h : v.isNan = true ∨ w.isNan = true) : F.lt v w = false := by
  rw [← ord_eq_none_iff, ← ord_eq_none_iff] at h
  rcases h with h | h <;> simp [F.lt, h]

theorem exists_of_isNan {v : F} (h : v.isNan = true) : ∃ o, v = .nan o := by
  cases v with
  | nan o => exact ⟨o, rfl⟩
  | inf => cases h
  | fin => cases h

theorem isNan_add {v w : F} (h : v.isNan = true ∨ w.isNan = true) : (F.add v w).isNan = true := by
  rcases h with h | h <;> obtain ⟨o, rfl⟩ := exists_of_isNan h
  · rfl
  · cases v <;> rfl

theorem isNan_mul {v w : F} (h : v.isNan = true ∨ w.isNan = true) : (F.mul v w).isNan = true := by
  rcases h with h | h <;> obtain ⟨o, rfl⟩ := exists_of_isNan h
  · rfl
  · cases v <;> rfl

theorem isNan_div {v w : F} (h : v.isNan = true ∨ w.isNan = true) : (F.div v w).isNan = true := by
  rcases h with h | h <;> obtain ⟨o, rfl⟩ := exists_of_isNan h
  · rfl
  · cases v <;> rfl

theorem isNan_neg (v : F) : v.neg.isNan = v.isNan := by cases v <;> rfl

theorem isNan_sub {v w : F} (h : v.isNan = true ∨ w.isNan = true) : (F.sub v w).isNan = true :=
  isNan_add (by rwa [isNan_neg])

theorem exists_of_isFinite {v : F} (h : v.isFinite = true) : ∃ s u, v = .fin s u := by
  cases v with
  | nan => cases h
  | inf => cases h
  | fin s u => exact ⟨s, u, rfl⟩

/-- Settles O33: finite operands are signed counts of units, whose exact result each operation rounds once. -/
theorem arithmeticIsCorrectlyRounded : Obligations.ArithmeticIsCorrectlyRounded := by
  unfold Obligations.ArithmeticIsCorrectlyRounded
  refine fun v w => ⟨fun hv hw => ?finite, fun h => ?nan⟩
  case finite =>
    have hle := le_iff_toRat hv hw
    have hlt := lt_iff_toRat hv hw
    obtain ⟨s, a, hv⟩ := exists_of_isFinite hv
    obtain ⟨t, b, hw⟩ := exists_of_isFinite hw
    rw [hv, hw] at hle hlt ⊢
    refine ⟨roundsTo_add s t a b, roundsTo_sub s t a b, roundsTo_mul s t a b, fun h => roundsTo_div s t a ?_, hle, hlt⟩
    rintro rfl
    exact h (by simp [toRat_fin])
  case nan =>
    exact ⟨not_le_of_isNan h, not_lt_of_isNan h, isNan_add h, isNan_sub h, isNan_mul h, isNan_div h⟩

end Sys2Proof.Machine

/-! Where the two number formats agree (the end of 00_scope.md R13). -/

namespace Sys2Proof.Machine

/-! ### Results that binary32 represents -/

/-- A finite value of a word lies below the threshold of overflow. -/
theorem abs_toRat_lt {w : Word} (h : (f32OfBits w).isFinite = true) :
    |(f32OfBits w).toRat| < 2 ^ 128 - 2 ^ 103 := by
  obtain ⟨s, u, hv, hrep, hlt⟩ := ord_held (held_f32OfBits w) h
  have hround : roundMagnitude u 1 = u := by simpa using roundMagnitude_of_representable one_pos hrep
  have hover := overflows_iff s (n := u) one_pos
  rw [Nat.cast_one, div_one, ← toRat_fin, hround] at hover
  rw [hv]
  exact lt_of_not_ge fun hge => absurd (hover.1 hge) (not_le.2 hlt)

/-- A correctly rounded result is exact where a word encodes the exact one. -/
theorem roundsTo_representable {w : Word} {r : F} (h : roundsTo (f32OfBits w).toRat r)
    (hw : (f32OfBits w).isFinite = true) : r.isFinite = true ∧ r.toRat = (f32OfBits w).toRat := by
  rw [roundsTo, if_neg (not_le.2 (abs_toRat_lt hw))] at h
  obtain ⟨-, hfin, hnear⟩ := h
  have hle := (hnear w hw).1
  rw [sub_self, abs_zero] at hle
  exact ⟨hfin, sub_eq_zero.1 (abs_eq_zero.1 (le_antisymm hle (abs_nonneg _)))⟩

theorem ofRat_injective {p q : ℚ} (h : PowerSum.ofRat p = .ofRat q) : p = q := by
  have := congrArg PowerSum.toRat? h
  rwa [toRat?_ofRat, toRat?_ofRat, Option.some.injEq] at this

section Operations

variable {v w u : Word} (hv : (f32OfBits v).isFinite = true) (hw : (f32OfBits w).isFinite = true)
  (hu : (f32OfBits u).isFinite = true)

include hv hw

/-- The correctly rounded results, as `Obligations.ArithmeticIsCorrectlyRounded` has them. -/
theorem operations_roundTo :
    roundsTo ((f32OfBits v).toRat + (f32OfBits w).toRat) (F.add (f32OfBits v) (f32OfBits w)) ∧
    roundsTo ((f32OfBits v).toRat - (f32OfBits w).toRat) (F.sub (f32OfBits v) (f32OfBits w)) ∧
    roundsTo ((f32OfBits v).toRat * (f32OfBits w).toRat) (F.mul (f32OfBits v) (f32OfBits w)) ∧
    ((f32OfBits w).toRat ≠ 0 →
      roundsTo ((f32OfBits v).toRat / (f32OfBits w).toRat) (F.div (f32OfBits v) (f32OfBits w))) := by
  obtain ⟨hadd, hsub, hmul, hdiv, -⟩ := (arithmeticIsCorrectlyRounded v w).1 hv hw
  exact ⟨hadd, hsub, hmul, hdiv⟩

include hu

theorem add_agrees (h : (PowerSum.ofRat (f32OfBits v).toRat).add (.ofRat (f32OfBits w).toRat) =
    .ofRat (f32OfBits u).toRat) :
    (F.add (f32OfBits v) (f32OfBits w)).isFinite = true ∧
      (F.add (f32OfBits v) (f32OfBits w)).toRat = (f32OfBits u).toRat := by
  rw [ofRat_add] at h
  obtain ⟨hround, -⟩ := operations_roundTo hv hw
  exact roundsTo_representable (ofRat_injective h ▸ hround) hu

theorem sub_agrees (h : (PowerSum.ofRat (f32OfBits v).toRat).add (PowerSum.ofRat (f32OfBits w).toRat).neg =
    .ofRat (f32OfBits u).toRat) :
    (F.sub (f32OfBits v) (f32OfBits w)).isFinite = true ∧
      (F.sub (f32OfBits v) (f32OfBits w)).toRat = (f32OfBits u).toRat := by
  rw [ofRat_neg, ofRat_add, ← sub_eq_add_neg] at h
  obtain ⟨-, hround, -⟩ := operations_roundTo hv hw
  exact roundsTo_representable (ofRat_injective h ▸ hround) hu

theorem mul_agrees (h : (PowerSum.ofRat (f32OfBits v).toRat).mul (.ofRat (f32OfBits w).toRat) =
    .ofRat (f32OfBits u).toRat) :
    (F.mul (f32OfBits v) (f32OfBits w)).isFinite = true ∧
      (F.mul (f32OfBits v) (f32OfBits w)).toRat = (f32OfBits u).toRat := by
  rw [ofRat_mul] at h
  obtain ⟨-, -, hround, -⟩ := operations_roundTo hv hw
  exact roundsTo_representable (ofRat_injective h ▸ hround) hu

theorem div_agrees (h0 : (f32OfBits w).toRat ≠ 0)
    (h : (PowerSum.ofRat (f32OfBits v).toRat).div (.ofRat (f32OfBits w).toRat) = .ofRat (f32OfBits u).toRat) :
    (F.div (f32OfBits v) (f32OfBits w)).isFinite = true ∧
      (F.div (f32OfBits v) (f32OfBits w)).toRat = (f32OfBits u).toRat := by
  rw [ofRat_div _ h0] at h
  obtain ⟨-, -, -, hround⟩ := operations_roundTo hv hw
  exact roundsTo_representable (ofRat_injective h ▸ hround h0) hu

end Operations

theorem le_agrees {v w : F} (hv : v.isFinite = true) (hw : w.isFinite = true) :
    F.le v w = (PowerSum.ofRat v.toRat).le (.ofRat w.toRat) := by
  rw [Bool.eq_iff_iff, le_iff_toRat hv hw, ofRat_le, decide_eq_true_eq]

theorem lt_agrees {v w : F} (hv : v.isFinite = true) (hw : w.isFinite = true) :
    F.lt v w = !(PowerSum.ofRat w.toRat).le (.ofRat v.toRat) := by
  rw [Bool.eq_iff_iff, lt_iff_toRat hv hw, ofRat_le]
  simp

/-! ### Whole numbers and literals -/

theorem representable_whole {n : Nat} (h : n ≤ 2 ^ 24) (k : Nat) : Representable (n * 2 ^ k) := by
  rcases h.lt_or_eq with hlt | rfl
  · exact ⟨n, k, hlt, rfl⟩
  · rw [← pow_add]
    exact representable_two_pow _

/-- `i2f` is exact up to `2^24` (42_cutoff_compositor.md R143). -/
theorem ofInt_eq {n : Int} (h : n.natAbs ≤ 2 ^ 24) : F.ofInt n = .fin (decide (n < 0)) (n.natAbs * 2 ^ 149) := by
  have hlt : n.natAbs * 2 ^ 149 < unitsOfInf := by unfold unitsOfInf; omega
  have hround := roundUnits_of_representable (decide (n < 0)) one_pos (representable_whole h 149) hlt
  rwa [mul_one] at hround

theorem toRat_ofInt {n : Int} (h : n.natAbs ≤ 2 ^ 24) : (F.ofInt n).toRat = n := by
  have hsigned : signedUnits (decide (n < 0)) n.natAbs = n := by
    unfold signedUnits
    split_ifs with hn <;> simp only [decide_eq_true_eq] at hn <;> omega
  have hscaled := signedUnits_mul (decide (n < 0)) false n.natAbs (2 ^ 149)
  rw [Bool.bne_false, hsigned, signedUnits_false] at hscaled
  rw [ofInt_eq h, toRat_fin, ← hscaled]
  push_cast
  exact mul_div_cancel_right₀ _ (by positivity)

theorem literals_agree (c : Exp2Choice) :
    (Num.power c).zero = .ofRat (Num.binary32 c).zero.toRat ∧ (Num.power c).one = .ofRat (Num.binary32 c).one.toRat ∧
    (Num.power c).negOne = .ofRat (Num.binary32 c).negOne.toRat ∧
    (Num.power c).half = .ofRat (Num.binary32 c).half.toRat ∧
    (Num.power c).four = .ofRat (Num.binary32 c).four.toRat ∧
    (Num.power c).twelve = .ofRat (Num.binary32 c).twelve.toRat := by
  simp only [binary32_zero, binary32_one, binary32_negOne, binary32_half, binary32_four, binary32_twelve, f32_zero,
    f32_one, f32_negOne, f32_half, f32_four, f32_twelve, power_zero, power_one, power_negOne, power_half, power_four,
    power_twelve]
  norm_num [F.toRat]

/-- Settles O34: where a word encodes the exact result, correct rounding yields it; and each operation of exact
arithmetic has its law on the reals. -/
theorem formatsAgreeWhenRepresentable : Obligations.FormatsAgreeWhenRepresentable := by
  unfold Obligations.FormatsAgreeWhenRepresentable
  refine ⟨fun c v w u hv hw hu => ?agree, fun c a b q => ?reals⟩
  case agree =>
    refine ⟨add_agrees hv hw hu, sub_agrees hv hw hu, mul_agrees hv hw hu, div_agrees hv hw hu, le_agrees hv hw,
      lt_agrees hv hw, fun n hn => ?int, fun k h1 h2 hk => ?exp2, literals_agree c⟩
    case int =>
      refine ⟨?_, ?_⟩
      · rw [binary32_ofInt, ofInt_eq hn]; rfl
      · rw [binary32_ofInt, toRat_ofInt hn, power_ofInt]
    case exp2 =>
      obtain ⟨-, hint, -⟩ := exp2NamedProperties c
      obtain ⟨hfin, hval⟩ := hint k _ h1 h2 hu hk
      refine ⟨hfin, hval, ?_⟩
      rw [power_exp2, exp2_ofRat, exp2Power_int c h1 h2]
  case reals =>
    refine ⟨toReal_add a b, ?sub, toReal_mul a b, fun hq => ?div, fun ha hb => ?order⟩
    case sub => rw [power_sub, toReal_add, toReal_neg, sub_eq_add_neg]
    case div => rw [power_div, toReal_div (single_ofRat q) hq, toReal_ofRat]
    case order =>
      obtain ⟨t, ht⟩ := Option.ne_none_iff_exists'.1 ha
      obtain ⟨r, hr⟩ := Option.ne_none_iff_exists'.1 hb
      refine ⟨le_of_single ht hr, ?_⟩
      rw [power_lt, Bool.not_eq_true', ← Bool.not_eq_true, le_of_single hr ht, not_le]

end Sys2Proof.Machine

/-! The commands by what they write (30_encoding.md R74): the inversion lemma of `exec`. -/

namespace Sys2Proof.Machine

/-- What a command can do to the state. -/
inductive ExecEffect (s : State) : State → Prop
  /-- a setter: parameter registers only -/
  | params (p : Params Word) : ExecEffect s { s with params := p }
  /-- `TRIG` and `REL` in binary32 -/
  | envelope (e : Env F) (hnum : s.cfg.num = .binary32)
      (he : e = envTrigger s.f32Num s.consts s.paramValues ∨
        e = envRelease s.f32Num s.consts s.paramValues s.envValues) : ExecEffect s (s.putEnv e)
  /-- `TRIG` and `REL` in exact arithmetic -/
  | envelopeExact (e : Env ℚ) (hnum : s.cfg.num = .exact)
      (he : e = envTrigger exactNum s.exactConsts s.exactParams ∨
        e = envRelease exactNum s.exactConsts s.exactParams s.exactEnv) : ExecEffect s (s.putEnvExact e)
  /-- `PROC` -/
  | frame : ExecEffect s { State.sampleSteps s.cfg.frameSize 0 { s with busy := true } with busy := false }
  /-- a read-back command -/
  | response (w : Word) : ExecEffect s (s.respond w)
  /-- `STIN` within the buffer -/
  | input (i : Nat) (w : Word) (hi : i < s.cfg.frameSize) : ExecEffect s (s.putInput i w)
  /-- `STIN` or `LDOUT` beyond the buffer -/
  | indexFault : ExecEffect s (s.raiseFault .bufferIndex)

/-- Everything a command can do. -/
theorem exec_effect {i : Instr} {s t : State} (h : exec i s = .next t) : ExecEffect s t := by
  cases i with
  | setcut | setres | setmod | setenv | setkey => cases h; exact .params _
  | trig =>
    cases hn : s.cfg.num
    case binary32 => rw [exec_trig_binary32 hn] at h; cases h; exact .envelope _ hn (.inl rfl)
    case exact => rw [exec_trig_exact hn] at h; cases h; exact .envelopeExact _ hn (.inl rfl)
  | rel =>
    cases hn : s.cfg.num
    case binary32 => rw [exec_rel_binary32 hn] at h; cases h; exact .envelope _ hn (.inr rfl)
    case exact => rw [exec_rel_exact hn] at h; cases h; exact .envelopeExact _ hn (.inr rfl)
  | proc => cases h; exact .frame
  | getcut | getres => cases h; exact .response _
  | stin i v =>
    rw [exec_stin] at h
    cases h
    split_ifs with hi
    · exact .input i v hi
    · exact .indexFault
  | ldout i =>
    rw [exec_ldout] at h
    cases h
    split_ifs
    · exact .response _
    · exact .indexFault

end Sys2Proof.Machine

/-! The envelope's invariants (10_state.md R36): the stage rules keep them in any number format whose operations keep
the ranges of the registers, and both formats' do. -/

namespace Sys2Proof.Machine

/-! ### In any number format -/

section AnyFormat

variable {α : Type} {N : Num α} {c : Consts α} {p : Params α} {Level Rate : α → Prop} {e : Env α}

/-- The invariants of R36, `Level` being the range of `EV` and `ET` and `Rate` that of `ER`. -/
structure EnvSound (N : Num α) (Level Rate : α → Prop) (e : Env α) : Prop where
  ev : Level e.ev
  idle : e.stage = .idle → e.ev = N.zero
  et : Level e.et
  er : Rate e.er

/-- What the stage rules need of a number format to stay within the ranges; the hypotheses of `add` and `sub` are that
the stage does not end (41_envelope.md R116, R117, R119). -/
structure EnvLaws (N : Num α) (c : Consts α) (p : Params α) (Level Rate : α → Prop) : Prop where
  zero : Level N.zero
  one : Level N.one
  sustain : Level (sustainLevel N p)
  rate : ∀ t, Rate (rateOf N c t)
  add : ∀ a b, Level a → Rate b → N.le N.one (N.add a b) = false → Level (N.add a b)
  sub : ∀ a b l, Level a → Rate b → Level l → N.le (N.sub a b) l = false → Level (N.sub a b)

theorem EnvSound.trigger (laws : EnvLaws N c p Level Rate) : EnvSound N Level Rate (envTrigger N c p) :=
  ⟨laws.zero, nofun, laws.one, laws.rate _⟩

theorem EnvSound.release (laws : EnvLaws N c p Level Rate) (h : EnvSound N Level Rate e) :
    EnvSound N Level Rate (envRelease N c p e) :=
  ⟨h.ev, nofun, laws.zero, laws.rate _⟩

theorem EnvSound.tick (laws : EnvLaws N c p Level Rate) (h : EnvSound N Level Rate e) :
    EnvSound N Level Rate (envTick N c p e) := by
  unfold envTick
  split
  case h_1 hst =>
    unfold tickAttack
    dsimp only
    split_ifs with hend
    · exact ⟨laws.one, nofun, laws.sustain, laws.rate _⟩
    · exact ⟨laws.add _ _ h.ev h.er (by simpa using hend), by simp [hst], h.et, h.er⟩
  case h_2 hst =>
    unfold tickDecay
    dsimp only
    split_ifs with hend
    · exact ⟨laws.sustain, nofun, h.et, h.er⟩
    · exact ⟨laws.sub _ _ _ h.ev h.er laws.sustain (by simpa using hend), by simp [hst], h.et, h.er⟩
  case h_3 => exact h
  case h_4 hst =>
    unfold tickRelease
    dsimp only
    split_ifs with hend
    · exact ⟨laws.zero, fun _ => rfl, h.et, h.er⟩
    · exact ⟨laws.sub _ _ _ h.ev h.er laws.zero (by simpa using hend), by simp [hst], h.et, h.er⟩
  case h_5 => exact h

end AnyFormat

/-! ### The configuration's constraints (00_scope.md R7, R9, R10, R11) -/

theorem isPositive_iff {x : F} : x.isPositive = true ↔ ∃ u, 0 < u ∧ x = .fin false u := by
  cases x with
  | nan | inf => simp [F.isPositive, F.isFinite]
  | fin neg u => cases neg <;> simp [F.isPositive, F.isFinite, F.lt, F.ord]

theorem configValid_iff (c : Config) : configValid c = true ↔
    1 ≤ c.frameSize ∧ c.frameSize ≤ 2 ^ 24 ∧ (f32OfBits c.sampleRate).isPositive = true ∧
      (f32OfBits c.tEps).isPositive = true ∧
      (c.num = .exact ∨ (F.div oneF (F.mul (f32OfBits c.tEps) (f32OfBits c.sampleRate))).isPositive = true) ∧
      F.within zeroF (f32OfBits c.resMax) oneF = true := by
  simp only [configValid, Bool.and_eq_true, Bool.or_eq_true, decide_eq_true_eq, and_assoc]

/-- A word of a positive value is read as a positive real. -/
theorem realOfBits_pos {w : Word} (h : (f32OfBits w).isPositive = true) : 0 < realOfBits w := by
  obtain ⟨u, hu, hw⟩ := isPositive_iff.1 h
  rw [realOfBits_of_finite (by rw [hw]; rfl), hw, toRat_fin, signedUnits_false]
  positivity

/-! ### Rates in binary32 (41_envelope.md R112) -/

/-- A rounding overflows or is the finite value of the rounded magnitude. -/
theorem roundUnits_cases (neg : Bool) (n d : Nat) :
    roundUnits neg n d = .inf neg ∨
      roundMagnitude n d < unitsOfInf ∧ roundUnits neg n d = .fin neg (roundMagnitude n d) := by
  unfold roundUnits
  split_ifs with h
  · exact .inl rfl
  · exact .inr ⟨not_le.1 h, rfl⟩

/-- Plus infinity, or a finite value of `u` units or more. -/
def F.AtLeast (u : Nat) (x : F) : Prop := x = .inf false ∨ ∃ v, u ≤ v ∧ x = .fin false v

theorem atLeast_of_le {x : F} {u : Nat} (hu : 0 < u) (h : F.le (.fin false u) x = true) : x.AtLeast u := by
  obtain ⟨a, b, ha, hb, hab⟩ := le_iff.1 h
  rw [ord_fin, signedUnits_false] at ha
  obtain rfl := Option.some.inj ha
  cases x with
  | nan => cases hb
  | inf neg =>
    cases neg
    · exact .inl rfl
    · simp only [ord_inf_neg, Option.some.injEq] at hb; omega
  | fin neg v =>
    rw [ord_fin, Option.some.injEq] at hb
    cases neg
    · exact .inr ⟨v, by simp only [signedUnits_false] at hb; omega, rfl⟩
    · simp only [signedUnits, if_true] at hb; omega

/-- The product with a positive factor is monotone. -/
theorem F.AtLeast.mul {x : F} {u s q : Nat} (hx : x.AtLeast u) (hs : 0 < s)
    (hq : F.mul (.fin false u) (.fin false s) = .fin false q) : (F.mul x (.fin false s)).AtLeast q := by
  have hqv : q = roundMagnitude (u * s) unitsOfOne := by
    rcases roundUnits_cases false (u * s) unitsOfOne with h | ⟨-, h⟩
    · exact F.noConfusion (h.symm.trans hq)
    · exact (F.fin.inj (h.symm.trans hq)).2.symm
  rcases hx with rfl | ⟨v, huv, rfl⟩
  · left
    simp [F.mul, hs.ne']
  · rcases roundUnits_cases false (v * s) unitsOfOne with h | ⟨-, h⟩
    · exact .inl h
    · refine .inr ⟨_, ?_, h⟩
      rw [hqv]
      exact roundMagnitude_mono unitsOfOne_pos unitsOfOne_pos (by gcongr)

/-- A value that `ER` can hold in binary32 (10_state.md R36 (d)). -/
structure IsRate32 (v : F) : Prop where
  held : v.Held
  finite : v.isFinite = true
  nonneg : F.le zeroF v = true

/-- The reciprocal of what is no less than `q` is a rate, when the reciprocal of `q` is finite. -/
theorem isRate32_reciprocal {x : F} {q : Nat} (hq : 0 < q) (hx : x.AtLeast q)
    (hfin : (F.div oneF (.fin false q)).isFinite = true) : IsRate32 (F.div oneF x) := by
  rw [oneF_eq] at hfin ⊢
  generalize 8388608 * 2 ^ 126 = one at hfin ⊢
  rcases hx with rfl | ⟨v, hqv, rfl⟩
  · exact ⟨held_zero false, rfl, by rw [zeroF_eq]; rfl⟩
  · have hdiv : ∀ d, 0 < d → F.div (.fin false one) (.fin false d) = roundUnits false (one * unitsOfOne) d :=
      fun d hd => if_neg hd.ne'
    rw [hdiv q hq] at hfin
    rw [hdiv v (by omega)]
    have hlt : roundMagnitude (one * unitsOfOne) q < unitsOfInf := by
      rcases roundUnits_cases false (one * unitsOfOne) q with h | ⟨h, -⟩
      · rw [h] at hfin; cases hfin
      · exact h
    have hle : roundMagnitude (one * unitsOfOne) v ≤ roundMagnitude (one * unitsOfOne) q :=
      roundMagnitude_mono (by omega) hq (by gcongr)
    have h : roundUnits false (one * unitsOfOne) v = .fin false (roundMagnitude (one * unitsOfOne) v) := by
      unfold roundUnits
      exact if_neg (by omega)
    refine ⟨held_roundUnits (by omega), by rw [h]; rfl, ?_⟩
    rw [h, le_of_ord ord_zeroF (ord_fin _ _), signedUnits_false]
    simp

/-- Under the constraint of R10 the rate of every time is finite and not negative (R112). -/
theorem isRate32_rateOf {c : Config} (x : Exp2Choice) (hnum : c.num = .binary32) (hc : configValid c = true) (t : F) :
    IsRate32 (rateOf (Num.binary32 x) (configConsts c) t) := by
  obtain ⟨-, -, hrate, heps, hquot, -⟩ := (configValid_iff c).1 hc
  obtain ⟨s, hs, hsr⟩ := isPositive_iff.1 hrate
  obtain ⟨u, hu, hte⟩ := isPositive_iff.1 heps
  have hquot := hquot.resolve_left (by simp [hnum])
  rw [hsr, hte] at hquot
  show IsRate32 (F.div oneF (F.mul (clampLo (Num.binary32 x) t (f32OfBits c.tEps)) (f32OfBits c.sampleRate)))
  rw [hsr, hte]
  obtain ⟨q, hq, hprod⟩ : ∃ q, 0 < q ∧ F.mul (.fin false u) (.fin false s) = .fin false q := by
    rcases roundUnits_cases false (u * s) unitsOfOne with h | ⟨-, h⟩
    · rw [show F.mul (.fin false u) (.fin false s) = .inf false from h, oneF_eq] at hquot
      cases hquot
    · refine ⟨_, Nat.pos_of_ne_zero fun h0 => ?_, h⟩
      rw [show F.mul (.fin false u) (.fin false s) = .fin false 0 from h.trans (by rw [h0]), oneF_eq] at hquot
      cases hquot
  have habove : F.le (.fin false u) (clampLo (Num.binary32 x) t (.fin false u)) = true := by
    obtain ⟨y, hy, huy, -⟩ := clampLo_spec x t (ord_fin false u)
    exact le_iff.2 ⟨_, _, ord_fin false u, hy, huy⟩
  rw [hprod] at hquot
  obtain ⟨r, -, hr⟩ := isPositive_iff.1 hquot
  exact isRate32_reciprocal hq ((atLeast_of_le hu habove).mul hs hprod) (by rw [hr]; rfl)

/-! ### The ranges in binary32 -/

/-- A value that `EV` and `ET` can hold in binary32 (10_state.md R36 (a), (e)). -/
structure IsLevel32 (v : F) : Prop where
  held : v.Held
  within : F.within zeroF v oneF = true

theorem within_iff {v : F} :
    F.within zeroF v oneF = true ↔ ∃ x, v.ord = some x ∧ 0 ≤ x ∧ x ≤ 8388608 * 2 ^ 126 := by
  cases h : v.ord with
  | none => simp [F.within, F.le, h]
  | some x => simp [F.within, le_of_ord ord_zeroF h, le_of_ord h ord_oneF]

/-- A storable value within `[0, 1]` is a level. -/
theorem isLevel32_of_ord {v : F} {x : Int} (hv : v.Storable) (hx : v.ord = some x) (h0 : 0 ≤ x)
    (h1 : x ≤ 8388608 * 2 ^ 126) : IsLevel32 v :=
  ⟨hv.held (isNan_of_ord hx), within_iff.2 ⟨x, hx, h0, h1⟩⟩

theorem IsLevel32.exists_fin {v : F} (h : IsLevel32 v) :
    ∃ s u, v = .fin s u ∧ 0 ≤ signedUnits s u ∧ signedUnits s u ≤ 8388608 * 2 ^ 126 := by
  obtain ⟨x, hx, h0, h1⟩ := within_iff.1 h.within
  cases v with
  | nan => cases hx
  | inf neg =>
    exfalso
    have hinf : (8388608 * 2 ^ 126 : Int) < unitsOfInf := by decide
    cases neg <;> simp only [ord_inf_pos, ord_inf_neg, Option.some.injEq] at hx <;> omega
  | fin s u => rw [ord_fin, Option.some.injEq] at hx; exact ⟨s, u, rfl, by omega, by omega⟩

theorem IsRate32.exists_fin {v : F} (h : IsRate32 v) : ∃ s u, v = .fin s u ∧ 0 ≤ signedUnits s u := by
  obtain ⟨s, u, rfl⟩ := exists_of_isFinite h.finite
  have hle := h.nonneg
  rw [le_of_ord ord_zeroF (ord_fin s u), decide_eq_true_eq] at hle
  exact ⟨s, u, rfl, hle⟩

theorem isLevel32_zero : IsLevel32 zeroF := isLevel32_of_ord (storable_f32OfBits _) ord_zeroF (by decide) (by decide)
theorem isLevel32_one : IsLevel32 oneF := isLevel32_of_ord (storable_f32OfBits _) ord_oneF (by decide) (by decide)

theorem isRate32_zero : IsRate32 zeroF :=
  ⟨held_f32OfBits _, by rw [zeroF_eq]; rfl, le_refl_of_ord ord_zeroF⟩

theorem isLevel32_clamp (x : Exp2Choice) (w : Word) : IsLevel32 (clamp (Num.binary32 x) (f32OfBits w) zeroF oneF) := by
  obtain ⟨y, hy, h0, h1, -⟩ := clamp_spec x (f32OfBits w) ord_zeroF ord_oneF (by decide)
  exact isLevel32_of_ord (storable_clampF (storable_f32OfBits _) (storable_f32OfBits _) (storable_f32OfBits _)) hy h0 h1

/-- A sum that has not reached `1.0`. -/
theorem isLevel32_add {a b : F} (ha : IsLevel32 a) (hb : IsRate32 b) (h : F.le oneF (F.add a b) = false) :
    IsLevel32 (F.add a b) := by
  obtain ⟨s, u, rfl, hu0, -⟩ := ha.exists_fin
  obtain ⟨t, v, rfl, hv0⟩ := hb.exists_fin
  rw [le_of_ord ord_oneF ord_add, decide_eq_false_iff_not, not_le] at h
  exact isLevel32_of_ord (storable_add _ _) ord_add (roundFrac_nonneg (by omega) 1) h.le

/-- A difference that is still above a level. -/
theorem isLevel32_sub {a b l : F} (ha : IsLevel32 a) (hb : IsRate32 b) (hl : IsLevel32 l)
    (h : F.le (F.sub a b) l = false) : IsLevel32 (F.sub a b) := by
  obtain ⟨s, u, rfl, -, hu1⟩ := ha.exists_fin
  obtain ⟨t, v, rfl, hv0⟩ := hb.exists_fin
  obtain ⟨z, hz, hz0, -⟩ := within_iff.1 hl.within
  rw [le_of_ord ord_sub hz, decide_eq_false_iff_not, not_le] at h
  refine isLevel32_of_ord (storable_sub _ _) ord_sub (by omega) ?_
  have hone : roundFrac ((8388608 * 2 ^ 126 : Int) * (1 : Nat)) 1 = 8388608 * 2 ^ 126 :=
    roundFrac_of_representable one_pos ⟨8388608, 126, by decide, by decide⟩ (by decide)
  exact hone ▸ roundFrac_one_mono (by push_cast; omega)

theorem envLaws_binary32 {s : State} (hnum : s.cfg.num = .binary32) (hc : configValid s.cfg = true) :
    EnvLaws s.f32Num s.consts s.paramValues IsLevel32 IsRate32 where
  zero := isLevel32_zero
  one := isLevel32_one
  sustain := isLevel32_clamp _ _
  rate := isRate32_rateOf _ hnum hc
  add _ _ := isLevel32_add
  sub _ _ _ := isLevel32_sub

/-- The envelope invariants in binary32 are those of the values that the registers hold. -/
theorem envInvariant_binary32 {s : State} (hnum : s.cfg.num = .binary32) :
    s.envInvariant = true ↔ EnvSound s.f32Num IsLevel32 IsRate32 s.envValues := by
  have hzero : s.env.ev = 0 ↔ f32OfBits s.env.ev = zeroF :=
    ⟨fun h => by rw [h]; rfl, fun h => by
      rw [← bitsOfF32_f32OfBits 0 s.env.ev, h]; exact bitsOfF32_f32OfBits 0 0⟩
  simp only [State.envInvariant, hnum, Bool.and_eq_true, Bool.or_eq_true, decide_eq_true_eq, hzero]
  constructor
  · rintro ⟨⟨⟨⟨hev, hidle⟩, hfin⟩, her⟩, het⟩
    exact ⟨⟨held_f32OfBits _, hev⟩, fun h => hidle.resolve_left (not_not.2 h), ⟨held_f32OfBits _, het⟩,
      ⟨held_f32OfBits _, hfin, her⟩⟩
  · rintro ⟨⟨-, hev⟩, hidle, ⟨-, het⟩, ⟨-, hfin, her⟩⟩
    exact ⟨⟨⟨⟨hev, Decidable.or_iff_not_imp_left.2 fun h => hidle (not_not.1 h)⟩, hfin⟩, her⟩, het⟩

/-- Sound envelope values are stored as they are, so the invariants hold after the store. -/
theorem putEnv_envInvariant {s : State} (hnum : s.cfg.num = .binary32) {e : Env F}
    (he : EnvSound s.f32Num IsLevel32 IsRate32 e) : (s.putEnv e).envInvariant = true := by
  have hval : (s.putEnv e).envValues = e := by
    simp [State.envValues, mapEnv, f32OfBits_bitsOfF32 he.ev.held, f32OfBits_bitsOfF32 he.et.held,
      f32OfBits_bitsOfF32 he.er.held]
  rw [envInvariant_binary32 (by simpa using hnum), hval]
  exact he

/-! ### The ranges in exact arithmetic -/

/-- `EV` and `ET` in exact arithmetic (10_state.md R36 (a), (e)). -/
def IsLevelExact (q : ℚ) : Prop := 0 ≤ q ∧ q ≤ 1

/-- `ER` in exact arithmetic (10_state.md R36 (d)). -/
def IsRateExact (q : ℚ) : Prop := 0 ≤ q

theorem envLaws_exact {s : State} (hc : configValid s.cfg = true) :
    EnvLaws exactNum s.exactConsts s.exactParams IsLevelExact IsRateExact where
  zero := ⟨le_rfl, zero_le_one⟩
  one := ⟨zero_le_one, le_rfl⟩
  sustain := by
    rw [sustainLevel, exactNum, exact_zero, exact_one, clamp_exact _ _ zero_le_one]
    exact ⟨le_max_left _ _, max_le zero_le_one (min_le_left _ _)⟩
  rate t := by
    obtain ⟨-, -, hrate, heps, -⟩ := (configValid_iff s.cfg).1 hc
    have hprod : 0 < max s.exactConsts.tEps t * s.exactConsts.sampleRate :=
      mul_pos (lt_max_of_lt_left (realOfBits_pos heps)) (realOfBits_pos hrate)
    rw [rateOf, exactNum, clampLo_exact, exact_mul, exact_div _ _ hprod.ne', exact_one]
    exact div_nonneg zero_le_one hprod.le
  add a b ha hb h := by
    simp only [exactNum, exact_le, exact_one, exact_add, decide_eq_false_iff_not, not_le] at h ⊢
    exact ⟨add_nonneg ha.1 hb, h.le⟩
  sub a b l ha hb hl h := by
    simp only [exactNum, exact_le, exact_sub, decide_eq_false_iff_not, not_le] at h ⊢
    exact ⟨hl.1.trans h.le, (sub_le_self a hb).trans ha.2⟩

theorem envInvariant_exact {s : State} (hnum : s.cfg.num = .exact) :
    s.envInvariant = true ↔ EnvSound exactNum IsLevelExact IsRateExact s.exactEnv := by
  simp only [State.envInvariant, hnum, Bool.and_eq_true, Bool.or_eq_true, decide_eq_true_eq]
  constructor
  · rintro ⟨⟨⟨⟨⟨hev0, hev1⟩, hidle⟩, her⟩, het0⟩, het1⟩
    exact ⟨⟨hev0, hev1⟩, fun h => hidle.resolve_left (not_not.2 h), ⟨het0, het1⟩, her⟩
  · rintro ⟨⟨hev0, hev1⟩, hidle, ⟨het0, het1⟩, her⟩
    exact ⟨⟨⟨⟨⟨hev0, hev1⟩, Decidable.or_iff_not_imp_left.2 fun h => hidle (not_not.1 h)⟩, her⟩, het0⟩, het1⟩

theorem putEnvExact_envInvariant {s : State} (hnum : s.cfg.num = .exact) {e : Env ℚ}
    (he : EnvSound exactNum IsLevelExact IsRateExact e) : (s.putEnvExact e).envInvariant = true := by
  rw [envInvariant_exact (by simpa using hnum), putEnvExact_exactEnv]
  exact he

/-! ### Every step -/

theorem tick_envInvariant {s : State} (hc : configValid s.cfg = true) (h : s.envInvariant = true) :
    s.tick.envInvariant = true := by
  cases hnum : s.cfg.num
  case binary32 =>
    rw [tick_binary32 hnum]
    exact putEnv_envInvariant hnum (((envInvariant_binary32 hnum).1 h).tick (envLaws_binary32 hnum hc))
  case exact =>
    rw [tick_exact hnum]
    exact putEnvExact_envInvariant hnum (((envInvariant_exact hnum).1 h).tick (envLaws_exact hc))

theorem filterSample_envInvariant (s : State) (n : Nat) : (s.filterSample n).envInvariant = s.envInvariant := by
  unfold State.filterSample
  split <;> rfl

theorem sampleSteps_envInvariant {s : State} (hc : configValid s.cfg = true) (h : s.envInvariant = true) (k n : Nat) :
    (State.sampleSteps k n s).envInvariant = true :=
  (sampleSteps_keeps (P := fun t => configValid t.cfg = true ∧ t.envInvariant = true)
    (fun t m ⟨hct, ht⟩ => ⟨by simpa using hct, (filterSample_envInvariant t.tick m).trans (tick_envInvariant hct ht)⟩)
    ⟨hc, h⟩ k n).2

/-- Every command keeps the envelope invariants. -/
theorem exec_envInvariant {i : Instr} {s t : State} (hc : configValid s.cfg = true) (hs : s.envInvariant = true)
    (h : exec i s = .next t) : t.envInvariant = true := by
  cases exec_effect h with
  | params | response | input | indexFault => exact hs
  | envelope e hnum he =>
    refine putEnv_envInvariant hnum ?_
    rcases he with rfl | rfl
    · exact .trigger (envLaws_binary32 hnum hc)
    · exact ((envInvariant_binary32 hnum).1 hs).release (envLaws_binary32 hnum hc)
  | envelopeExact e hnum he =>
    refine putEnvExact_envInvariant hnum ?_
    rcases he with rfl | rfl
    · exact .trigger (envLaws_exact hc)
    · exact ((envInvariant_exact hnum).1 hs).release (envLaws_exact hc)
  | frame => exact sampleSteps_envInvariant (s := { s with busy := true }) hc hs _ _

/-- Settles O20: in either format the registers are zero and the stage is Idle. -/
theorem envelopeInvariantAtReset : Obligations.EnvelopeInvariantAtReset := by
  unfold Obligations.EnvelopeInvariantAtReset
  intro c
  cases hnum : c.num
  case binary32 =>
    rw [envInvariant_binary32 hnum, show (State.resetOf c).envValues = ⟨.idle, zeroF, zeroF, zeroF⟩ from rfl]
    exact ⟨isLevel32_zero, fun _ => rfl, isLevel32_zero, isRate32_zero⟩
  case exact => exact (envInvariant_exact hnum).2 ⟨⟨le_rfl, zero_le_one⟩, fun _ => rfl, ⟨le_rfl, zero_le_one⟩, le_rfl⟩

/-- Settles O19: a reset gives the reset state's envelope, a command keeps the invariants, and nothing else a step does
touches the envelope. -/
theorem envelopeInvariantKept : Obligations.EnvelopeInvariantKept := by
  unfold Obligations.EnvelopeInvariantKept
  intro s t hc hs h
  rcases step_cases h with ⟨-, rfl⟩ | ⟨-, -, rfl⟩ | ⟨-, -, -, rfl⟩ |
    ⟨-, -, -, ⟨i, rest, -, hexec⟩ | ⟨rest, -, rfl⟩ | ⟨-, rfl⟩⟩
  · exact envelopeInvariantAtReset s.cfg
  · exact hs
  · exact hs
  · exact exec_envInvariant (s := s.taken rest) hc hs hexec
  · exact hs
  · exact hs

end Sys2Proof.Machine

/-! The control invariant (10_state.md R37, R38, 20_memory.md R50, 30_encoding.md R80): each of its parts is kept by
every command, by every other step, and made by a reset. -/

namespace Sys2Proof.Machine

theorem controlInvariant_iff (s : State) : s.controlInvariant = true ↔
    s.buffersWf = true ∧ s.realsWf = true ∧ s.busy = false ∧ (s.fault = true ↔ s.fcode ≠ .none) ∧
      decode s.rx = .incomplete := by
  simp only [State.controlInvariant, Bool.and_eq_true, Bool.not_eq_true', decide_eq_true_eq, and_assoc]

/-! ### The buffers -/

theorem buffersWf_iff (s : State) : s.buffersWf = true ↔
    Memory.wf s.cfg.frameSize s.ibuf = true ∧
      Memory.wf s.cfg.frameSize s.obuf = true ∧ Memory.wf s.cfg.frameSize s.real.obuf = true := by
  simp only [State.buffersWf, Bool.and_eq_true, and_assoc]

theorem exec_buffersWf {i : Instr} {s t : State} (hs : s.buffersWf = true) (h : exec i s = .next t) :
    t.buffersWf = true := by
  cases exec_effect h with
  | params | envelope | envelopeExact | response | indexFault => exact hs
  | frame =>
    obtain ⟨hi, ho⟩ := (buffersWf_iff s).1 hs
    rw [buffersWf_iff]
    simp only [sampleSteps_cfg, sampleSteps_ibuf]
    exact ⟨hi, sampleSteps_obuf_wf { s with busy := true } 0 _ ho (by omega)⟩
  | input j w hj =>
    obtain ⟨hi, ho⟩ := (buffersWf_iff s).1 hs
    exact (buffersWf_iff _).2 ⟨memory_wf_write w hi hj, ho⟩

/-! ### The numbers of exact arithmetic (log entry 13) -/

theorem realsWf_iff (s : State) : s.realsWf = true ↔
    (s.real.ladder.s1.wf = true ∧ s.real.ladder.s2.wf = true ∧ s.real.ladder.s3.wf = true ∧
      s.real.ladder.s4.wf = true) ∧ ∀ p ∈ s.real.obuf, p.2.wf = true := by
  simp only [State.realsWf, Bool.and_eq_true, List.all_eq_true, and_assoc]

/-- After a write a buffer holds the word written and words it held before. -/
theorem mem_memory_write {α : Type} [Inhabited α] [DecidableEq α] {m : Memory α} {i : Nat} {w : α} {p : Nat × α}
    (h : p ∈ m.write i w) : p = (i, w) ∨ p ∈ m := by
  have hins : ∀ {m : Memory α}, p ∈ Memory.insert i w m → p = (i, w) ∨ p ∈ m := by
    intro m hp
    unfold Memory.insert at hp
    split_ifs at hp
    · exact .inr hp
    · exact List.mem_cons.1 hp
  induction m with
  | nil => exact hins h
  | cons q m ih =>
    obtain ⟨a, v⟩ := q
    unfold Memory.write at h
    split_ifs at h
    · exact hins h
    · exact (hins h).imp_right (List.mem_cons_of_mem _)
    · rcases List.mem_cons.1 h with rfl | h
      · exact .inr List.mem_cons_self
      · exact (ih h).imp_right (List.mem_cons_of_mem _)

/-- A filter stage ends with the sum of two products, whose form is canonical whatever the operands are. -/
theorem wf_filterStage (c : Exp2Choice) (f g u v : PowerSum) : (filterStage (Num.power c) f g u v).wf = true :=
  wf_add _ (wf_mul _ _)

theorem sampleStep_realsWf {s : State} (n : Nat) (hs : s.realsWf = true) : (s.sampleStep n).realsWf = true := by
  cases hnum : s.cfg.num
  case binary32 =>
    rw [realsWf_iff, sampleStep_real_of_binary32 n hnum]
    exact (realsWf_iff s).1 hs
  case exact =>
    obtain ⟨-, hobuf⟩ := (realsWf_iff s).1 hs
    rw [realsWf_iff, sampleStep_real n hnum]
    refine ⟨⟨wf_filterStage .., wf_filterStage .., wf_filterStage .., wf_filterStage ..⟩, fun p hp => ?_⟩
    rcases mem_memory_write hp with rfl | hp
    · exact wf_filterStage ..
    · exact hobuf p hp

theorem exec_realsWf {i : Instr} {s t : State} (hs : s.realsWf = true) (h : exec i s = .next t) :
    t.realsWf = true := by
  cases exec_effect h with
  | params | envelope | envelopeExact | response | input | indexFault => exact hs
  | frame =>
    exact sampleSteps_keeps (P := fun t => t.realsWf = true) (fun t n ht => sampleStep_realsWf n ht)
      (s := { s with busy := true }) hs _ _

/-! ### The latch, `BUSY` and the words received -/

/-- A command leaves the fault latch and its cause, or sets both. -/
theorem exec_fault {i : Instr} {s t : State} (h : exec i s = .next t) :
    (t.fault = s.fault ∧ t.fcode = s.fcode) ∨ (t.fault = true ∧ t.fcode = .bufferIndex) := by
  cases exec_effect h with
  | params | envelope | envelopeExact | response | input => exact .inl ⟨rfl, rfl⟩
  | frame => simp
  | indexFault => exact .inr ⟨rfl, rfl⟩

theorem exec_busy {i : Instr} {s t : State} (hs : s.busy = false) (h : exec i s = .next t) : t.busy = false := by
  cases exec_effect h with
  | params | envelope | envelopeExact | response | input | indexFault => exact hs
  | frame => rfl

theorem exec_rx {i : Instr} {s t : State} (h : exec i s = .next t) : t.rx = s.rx := by
  cases exec_effect h with
  | params | envelope | envelopeExact | response | input | indexFault => rfl
  | frame => simp

/-! ### Every step -/

theorem exec_controlInvariant {i : Instr} {s t : State} (hs : s.controlInvariant = true) (h : exec i s = .next t) :
    t.controlInvariant = true := by
  obtain ⟨hbuf, hreal, hbusy, hfault, hrx⟩ := (controlInvariant_iff s).1 hs
  refine (controlInvariant_iff t).2
    ⟨exec_buffersWf hbuf h, exec_realsWf hreal h, exec_busy hbusy h, ?_, by rwa [exec_rx h]⟩
  rcases exec_fault h with ⟨hf, hc⟩ | ⟨hf, hc⟩
  · rwa [hf, hc]
  · simp [hf, hc]

/-- With a command's words taken, nothing is left of it. -/
theorem taken_controlInvariant {s : State} (hs : s.controlInvariant = true) (rest : List Word) :
    (s.taken rest).controlInvariant = true := by
  obtain ⟨hbuf, hreal, hbusy, hfault, -⟩ := (controlInvariant_iff s).1 hs
  exact (controlInvariant_iff _).2 ⟨hbuf, hreal, hbusy, hfault, rfl⟩

theorem illegalHeader_controlInvariant {s : State} (hs : s.controlInvariant = true) (rest : List Word) :
    (s.illegalHeader rest).controlInvariant = true := by
  obtain ⟨hbuf, hreal, hbusy, -, -⟩ := (controlInvariant_iff s).1 hs
  exact (controlInvariant_iff _).2 ⟨hbuf, hreal, hbusy, by simp, rfl⟩

theorem await_controlInvariant {s : State} (hs : s.controlInvariant = true)
    (hwait : decode (s.rx ++ s.port) = .incomplete) : s.await.controlInvariant = true := by
  obtain ⟨hbuf, hreal, hbusy, hfault, -⟩ := (controlInvariant_iff s).1 hs
  exact (controlInvariant_iff _).2 ⟨hbuf, hreal, hbusy, hfault, hwait⟩

/-- Settles O59: the buffers are empty, the reals zero, the latch clear and nothing received. -/
theorem controlInvariantAtReset : Obligations.ControlInvariantAtReset := by
  unfold Obligations.ControlInvariantAtReset
  intro c
  refine (controlInvariant_iff _).2 ⟨(buffersWf_iff _).2 ⟨rfl, rfl, rfl⟩, (realsWf_iff _).2 ⟨?_, nofun⟩, rfl, ?_, rfl⟩
  · exact ⟨wf_zero, wf_zero, wf_zero, wf_zero⟩
  · simp

/-- Settles O58, by what a step can do. -/
theorem controlInvariantKept : Obligations.ControlInvariantKept := by
  unfold Obligations.ControlInvariantKept
  intro s t hs h
  rcases step_cases h with ⟨-, rfl⟩ | ⟨-, -, rfl⟩ | ⟨-, -, -, rfl⟩ |
    ⟨-, -, -, ⟨i, rest, -, hexec⟩ | ⟨rest, -, rfl⟩ | ⟨hwait, rfl⟩⟩
  · exact controlInvariantAtReset s.cfg
  · exact hs
  · exact hs
  · exact exec_controlInvariant (taken_controlInvariant hs rest) hexec
  · exact illegalHeader_controlInvariant hs rest
  · exact await_controlInvariant hs hwait

/-! ### The reset event (R44 to R47, 70_reset_and_hazards.md R231) -/

/-- After a reset a command starts with the first word offered. -/
theorem resetEvent_nextCommand (s : State) : s.resetEvent.nextCommand = decode s.resetEvent.port := by
  rw [State.nextCommand, resetEvent_rx, List.nil_append]

/-- Settles O55: the next state is the reset event's, whose registers its field lemmas give. -/
theorem resetGivesTheResetState : Obligations.ResetGivesTheResetState := by
  unfold Obligations.ResetGivesTheResetState
  intro s h
  refine ⟨s.resetEvent, step_of_reset h, ?_⟩
  simp [State.faultOut, State.fcodeOut, State.busyOut, fcodeBits, resetEvent_nextCommand]

end Sys2Proof.Machine

/-! The registers that no rule reads (10_state.md R42): `BASECUT`, `ET`, and `ER` while in Sustain or Idle. Erased
before a step or only after it, the same state remains. -/

namespace Sys2Proof.Machine

/-! ### The stage rules and the compositor -/

section AnyFormat

variable {α : Type} (N : Num α) (c : Consts α) (p : Params α) {e e' : Env α}

/-- What the rules read of the envelope is the same: `ER` counts in the stages that have a rate, `ET` never. -/
structure SameEnvRead (e e' : Env α) : Prop where
  stage : e'.stage = e.stage
  ev : e'.ev = e.ev
  er : e.stage ≠ .sustain → e.stage ≠ .idle → e'.er = e.er

theorem SameEnvRead.refl (e : Env α) : SameEnvRead e e := ⟨rfl, rfl, fun _ _ => rfl⟩

theorem SameEnvRead.map {β : Type} (f : α → β) (h : SameEnvRead e e') : SameEnvRead (mapEnv f e) (mapEnv f e') :=
  ⟨h.stage, congrArg f h.ev, fun h1 h2 => congrArg f (h.er h1 h2)⟩

/-- Where the stages without a rate have `ER` erased, it is the same. -/
theorem SameEnvRead.erased_er (h : SameEnvRead e e') (z : α) :
    (if e.stage = .sustain ∨ e.stage = .idle then z else e'.er) =
      if e.stage = .sustain ∨ e.stage = .idle then z else e.er := by
  split_ifs with hquiet
  · rfl
  · exact h.er (fun hst => hquiet (.inl hst)) (fun hst => hquiet (.inr hst))

theorem SameEnvRead.release (h : SameEnvRead e e') : SameEnvRead (envRelease N c p e) (envRelease N c p e') :=
  ⟨rfl, h.ev, fun _ _ => rfl⟩

theorem SameEnvRead.tick (h : SameEnvRead e e') : SameEnvRead (envTick N c p e) (envTick N c p e') := by
  obtain ⟨hst, hev, her⟩ := h
  unfold envTick
  rw [hst]
  cases hstage : e.stage with
  | idle | sustain => exact ⟨hst, hev, her⟩
  | attack =>
    simp only [tickAttack, hev, her (by simp [hstage]) (by simp [hstage])]
    split_ifs
    · exact .refl _
    · exact ⟨hst, rfl, fun _ _ => rfl⟩
  | decay =>
    simp only [tickDecay, hev, her (by simp [hstage]) (by simp [hstage])]
    split_ifs
    · exact ⟨rfl, rfl, fun h => absurd rfl h⟩
    · exact ⟨hst, rfl, fun _ _ => rfl⟩
  | release =>
    simp only [tickRelease, hev, her (by simp [hstage]) (by simp [hstage])]
    split_ifs
    · exact ⟨rfl, rfl, fun _ h => absurd rfl h⟩
    · exact ⟨hst, rfl, fun _ _ => rfl⟩

/-- The stage rules do not read `BASECUT`. -/
theorem envTick_basecut (b : α) (e : Env α) : envTick N c { p with basecut := b } e = envTick N c p e := rfl

/-- The compositor reads neither `BASECUT` nor `ET` and `ER` (42_cutoff_compositor.md R141). -/
theorem compose_unread (b : α) (h : SameEnvRead e e') : compose N { p with basecut := b } e' = compose N p e := by
  have hcontour : ∀ x, composeContour N { p with basecut := b } e' x = composeContour N p e x := by
    intro x
    rw [composeContour, h.stage, h.ev]
    rfl
  rw [compose, hcontour]
  rfl

end AnyFormat

/-! ### What is read of a state without the unread registers -/

section Reads

variable (s : State)

@[simp] theorem withoutUnread_cfg : s.withoutUnread.cfg = s.cfg := rfl
@[simp] theorem withoutUnread_f32Num : s.withoutUnread.f32Num = s.f32Num := rfl
@[simp] theorem withoutUnread_consts : s.withoutUnread.consts = s.consts := rfl
@[simp] theorem withoutUnread_exactConsts : s.withoutUnread.exactConsts = s.exactConsts := rfl

theorem withoutUnread_paramValues : s.withoutUnread.paramValues = { s.paramValues with basecut := f32OfBits 0 } := rfl
theorem withoutUnread_exactParams : s.withoutUnread.exactParams = { s.exactParams with basecut := realOfBits 0 } := rfl
theorem withoutUnread_powerParams :
    s.withoutUnread.powerParams = { s.powerParams with basecut := .ofRat (realOfBits 0) } := by
  rw [State.powerParams, withoutUnread_exactParams]
  rfl

variable {s}

theorem withoutUnread_envValues (h : s.cfg.num = .binary32) : SameEnvRead s.envValues s.withoutUnread.envValues := by
  refine ⟨rfl, rfl, fun hsus hidle => congrArg f32OfBits (if_neg ?_)⟩
  rw [h]
  exact not_or.2 ⟨nofun, not_or.2 ⟨hsus, hidle⟩⟩

theorem withoutUnread_exactEnv (h : s.cfg.num = .exact) : SameEnvRead s.exactEnv s.withoutUnread.exactEnv := by
  refine ⟨rfl, rfl, fun hsus hidle => if_neg ?_⟩
  rw [h]
  exact not_or.2 ⟨nofun, not_or.2 ⟨hsus, hidle⟩⟩

theorem withoutUnread_filterStep (h : s.cfg.num = .binary32) (x : Word) :
    s.withoutUnread.filterStep x = s.filterStep x := by
  have hcut := compose_unread s.f32Num s.paramValues (f32OfBits 0) (withoutUnread_envValues h)
  rw [← withoutUnread_paramValues] at hcut
  rw [State.filterStep, withoutUnread_f32Num, hcut]
  rfl

theorem withoutUnread_filterStepExact (h : s.cfg.num = .exact) (x : Word) :
    s.withoutUnread.filterStepExact x = s.filterStepExact x := by
  have hcut := compose_unread s.powerNum s.powerParams (.ofRat (realOfBits 0)) ((withoutUnread_exactEnv h).map .ofRat)
  rw [← withoutUnread_powerParams] at hcut
  rw [State.filterStepExact, show s.withoutUnread.powerNum = s.powerNum from rfl,
    show s.withoutUnread.powerEnv = mapEnv .ofRat s.withoutUnread.exactEnv from rfl, hcut]
  rfl

end Reads

/-! ### The operations -/

@[simp] theorem withoutUnread_idem (s : State) : s.withoutUnread.withoutUnread = s.withoutUnread := by
  unfold State.withoutUnread
  congr 2
  · split_ifs <;> rfl
  · split_ifs <;> rfl

/-- What an operation makes of the registers that are read does not depend on those that are not. -/
def IgnoresUnread (f : State → State) : Prop :=
  ∀ s, (f s.withoutUnread).withoutUnread = (f s).withoutUnread

theorem IgnoresUnread.congr {f : State → State} (hf : IgnoresUnread f) {s s' : State}
    (h : s.withoutUnread = s'.withoutUnread) : (f s).withoutUnread = (f s').withoutUnread := by
  rw [← hf s, h, hf s']

theorem IgnoresUnread.comp {f g : State → State} (hf : IgnoresUnread f) (hg : IgnoresUnread g) :
    IgnoresUnread (f ∘ g) :=
  fun s => hf.congr (hg s)

/-- An operation that commutes with the erasure. -/
theorem IgnoresUnread.of_commutes {f : State → State} (h : ∀ s, f s.withoutUnread = (f s).withoutUnread) :
    IgnoresUnread f := by
  intro s
  rw [h, withoutUnread_idem]

/-- A store of parameter registers that differ in `BASECUT` at most. -/
theorem withoutUnread_setParams (s : State) {p p' : Params Word}
    (h : { p' with basecut := 0 } = { p with basecut := 0 }) :
    ({ s.withoutUnread with params := p' } : State).withoutUnread = ({ s with params := p } : State).withoutUnread := by
  have hset : ∀ (s : State) (p : Params Word), ({ s with params := p } : State).withoutUnread =
      { s.withoutUnread with params := { p with basecut := 0 } } := fun _ _ => rfl
  rw [hset, withoutUnread_idem, h]
  exact (hset s p).symm

theorem withoutUnread_putEnv {s : State} (h : s.cfg.num = .binary32) {e e' : Env F} (he : SameEnvRead e e') :
    (s.withoutUnread.putEnv e').withoutUnread = (s.putEnv e).withoutUnread := by
  unfold State.withoutUnread State.putEnv
  simp only [h, he.stage, he.ev]
  congr 2
  simp only [reduceCtorEq, false_or]
  exact (he.map (bitsOfF32 (s.nanSeq + 2))).erased_er 0

theorem withoutUnread_putEnvExact {s : State} (h : s.cfg.num = .exact) {e e' : Env ℚ} (he : SameEnvRead e e') :
    (s.withoutUnread.putEnvExact e').withoutUnread = (s.putEnvExact e).withoutUnread := by
  unfold State.withoutUnread State.putEnvExact
  simp only [h, he.stage, he.ev]
  congr 2
  simp only [reduceCtorEq, false_or]
  exact he.erased_er 0

theorem tick_ignoresUnread : IgnoresUnread State.tick := by
  intro s
  cases h : s.cfg.num
  case binary32 =>
    rw [tick_binary32 h, tick_binary32 (s := s.withoutUnread) h, withoutUnread_paramValues, envTick_basecut]
    exact withoutUnread_putEnv h ((withoutUnread_envValues h).tick _ _ _)
  case exact =>
    rw [tick_exact h, tick_exact (s := s.withoutUnread) h, withoutUnread_exactParams, envTick_basecut]
    exact withoutUnread_putEnvExact h ((withoutUnread_exactEnv h).tick _ _ _)

theorem filterSample_ignoresUnread (n : Nat) : IgnoresUnread (State.filterSample n) := by
  refine .of_commutes fun s => ?_
  cases h : s.cfg.num
  case binary32 =>
    rw [filterSample_binary32 n h, filterSample_binary32 (s := s.withoutUnread) n h, withoutUnread_filterStep h]
    rfl
  case exact =>
    rw [filterSample_exact n h, filterSample_exact (s := s.withoutUnread) n h, withoutUnread_filterStepExact h]
    rfl

theorem sampleSteps_ignoresUnread (k n : Nat) : IgnoresUnread (State.sampleSteps k n) := by
  induction k generalizing n with
  | zero => exact withoutUnread_idem
  | succ k ih => exact (ih (n + 1)).comp ((filterSample_ignoresUnread n).comp tick_ignoresUnread)

theorem setBusy_ignoresUnread (b : Bool) : IgnoresUnread fun s => { s with busy := b } :=
  .of_commutes fun _ => rfl

/-- Without the unread registers a command leads where it leads with them. -/
theorem exec_withoutUnread {i : Instr} {s t : State} (h : exec i s = .next t) :
    ∃ t', exec i s.withoutUnread = .next t' ∧ t'.withoutUnread = t.withoutUnread := by
  cases i with
  | setcut | setres | setmod | setenv | setkey =>
    cases h
    exact ⟨_, rfl, withoutUnread_setParams s rfl⟩
  | getcut | getres => cases h; exact ⟨_, rfl, withoutUnread_idem (s.respond _)⟩
  | trig =>
    cases hnum : s.cfg.num
    case binary32 =>
      rw [exec_trig_binary32 hnum] at h
      cases h
      exact ⟨_, exec_trig_binary32 hnum, withoutUnread_putEnv hnum (.refl _)⟩
    case exact =>
      rw [exec_trig_exact hnum] at h
      cases h
      exact ⟨_, exec_trig_exact hnum, withoutUnread_putEnvExact hnum (.refl _)⟩
  | rel =>
    cases hnum : s.cfg.num
    case binary32 =>
      rw [exec_rel_binary32 hnum] at h
      cases h
      exact ⟨_, exec_rel_binary32 hnum, withoutUnread_putEnv hnum ((withoutUnread_envValues hnum).release _ _ _)⟩
    case exact =>
      rw [exec_rel_exact hnum] at h
      cases h
      exact ⟨_, exec_rel_exact hnum, withoutUnread_putEnvExact hnum ((withoutUnread_exactEnv hnum).release _ _ _)⟩
  | proc =>
    cases h
    exact ⟨_, rfl, (setBusy_ignoresUnread false).comp
      ((sampleSteps_ignoresUnread s.cfg.frameSize 0).comp (setBusy_ignoresUnread true)) s⟩
  | stin i v =>
    rw [exec_stin] at h
    cases h
    refine ⟨_, exec_stin .., ?_⟩
    rw [withoutUnread_cfg]
    split_ifs
    · exact withoutUnread_idem (s.putInput i v)
    · exact withoutUnread_idem (s.raiseFault .bufferIndex)
  | ldout i =>
    rw [exec_ldout] at h
    cases h
    refine ⟨_, exec_ldout .., ?_⟩
    rw [withoutUnread_cfg]
    split_ifs
    · exact withoutUnread_idem (s.respond (s.outputBits i))
    · exact withoutUnread_idem (s.raiseFault .bufferIndex)

/-! ### The step -/

/-- Every state has a next one (60_exceptions.md R218). -/
theorem step_next (s : State) : ∃ t, step s = .next t := by
  unfold step
  split_ifs
  · exact ⟨_, rfl⟩
  · exact ⟨_, rfl⟩
  · exact ⟨_, rfl⟩
  · split
    · exact exec_next _ _
    · exact ⟨_, rfl⟩
    · exact ⟨_, rfl⟩

/-- Without the unread registers a step leads where it leads with them. -/
theorem step_withoutUnread {s t : State} (h : step s = .next t) :
    ∃ t', step s.withoutUnread = .next t' ∧ t'.withoutUnread = t.withoutUnread := by
  rcases step_cases h with ⟨hr, rfl⟩ | ⟨hr, hb, rfl⟩ | ⟨hr, hb, hf, rfl⟩ | ⟨hr, hb, hf, hcmd⟩
  · exact ⟨_, step_of_reset (s := s.withoutUnread) hr, rfl⟩
  · exact ⟨_, step_of_busy (s := t.withoutUnread) hr hb, withoutUnread_idem t⟩
  · exact ⟨_, step_of_fault (s := s.withoutUnread) hr hb hf, withoutUnread_idem s.discard⟩
  · rw [step_of_ready (s := s.withoutUnread) hr hb hf, show s.withoutUnread.nextCommand = s.nextCommand from rfl,
      State.nextCommand]
    rcases hcmd with ⟨i, rest, hd, hexec⟩ | ⟨rest, hd, rfl⟩ | ⟨hd, rfl⟩
    · rw [hd]
      exact exec_withoutUnread hexec
    · rw [hd]
      exact ⟨_, rfl, withoutUnread_idem (s.illegalHeader rest)⟩
    · rw [hd]
      exact ⟨_, rfl, withoutUnread_idem s.await⟩

/-- Settles O60: two states that agree once the unread registers are erased lead, erased, to the same next state. -/
theorem unreadRegistersNeverMatter : Obligations.UnreadRegistersNeverMatter := by
  unfold Obligations.UnreadRegistersNeverMatter
  intro s s' hs
  obtain ⟨t, ht⟩ := step_next s
  obtain ⟨t', ht'⟩ := step_next s'
  obtain ⟨u, hu, hut⟩ := step_withoutUnread ht
  obtain ⟨u', hu', hut'⟩ := step_withoutUnread ht'
  rw [hs, hu'] at hu
  obtain rfl := Host.Outcome.next.inj hu
  exact ⟨t, t', ht, ht', hut.symm.trans hut'⟩

end Sys2Proof.Machine

/-! The encoding (30_encoding.md R70 to R85): operand words, the formats, the opcode map, and the round trip both
ways. -/

namespace Sys2Proof

/-! ### Operand words (R72) -/

theorem fitsI32_iff (n : Int) : fitsI32 n = true ↔ -2 ^ 31 ≤ n ∧ n < 2 ^ 31 := by simp [fitsI32]

theorem fitsU32_iff (n : Nat) : fitsU32 n = true ↔ n < 2 ^ 32 := by simp [fitsU32]

@[simp] theorem fitsI32_toInt (w : Word) : fitsI32 w.toInt = true :=
  (fitsI32_iff _).2 ⟨w.le_toInt, w.toInt_lt⟩

@[simp] theorem fitsU32_toNat (w : Word) : fitsU32 w.toNat = true := (fitsU32_iff _).2 w.isLt

@[simp] theorem i32Word_toInt (w : Word) : i32Word w.toInt = w := BitVec.ofInt_toInt

@[simp] theorem u32Word_toNat (w : Word) : u32Word w.toNat = w := by simp [u32Word]

theorem toInt_i32Word {n : Int} (h : fitsI32 n = true) : (i32Word n).toInt = n := by
  obtain ⟨hlo, hhi⟩ := (fitsI32_iff n).1 h
  exact BitVec.toInt_ofInt_eq_self (by decide) hlo hhi

theorem toNat_u32Word {n : Nat} (h : fitsU32 n = true) : (u32Word n).toNat = n := by
  rw [u32Word, BitVec.toNat_ofNat, Nat.mod_eq_of_lt ((fitsU32_iff n).1 h)]

/-! ### Decoding what was encoded (R85) -/

/-- Settles O1. Only the integer operands pass through a conversion; everything else is moved. -/
theorem decodeInvertsEncode : Obligations.DecodeInvertsEncode := by
  unfold Obligations.DecodeInvertsEncode
  intro i rest h
  cases i with
  | setcut | setres | setmod | setenv | trig | rel | proc | getcut | getres => rfl
  | setkey b k n =>
    calc decode (encode (.setkey b k n) ++ rest)
      _ = .cmd (.setkey b k (i32Word n).toInt) rest := rfl
      _ = .cmd (.setkey b k n) rest := by rw [toInt_i32Word h]
  | stin x v =>
    calc decode (encode (.stin x v) ++ rest)
      _ = .cmd (.stin (u32Word x).toNat v) rest := rfl
      _ = .cmd (.stin x v) rest := by rw [toNat_u32Word h]
  | ldout x =>
    calc decode (encode (.ldout x) ++ rest)
      _ = .cmd (.ldout (u32Word x).toNat) rest := rfl
      _ = .cmd (.ldout x) rest := by rw [toNat_u32Word h]

/-- A command's encoding alone decodes to it, with nothing left. -/
theorem decode_encode {i : Instr} (h : i.wellFormed = true) : decode (encode i) = .cmd i [] := by
  simpa using decodeInvertsEncode i [] h

/-! ### The formats (R73): how many operand words each takes, and that they are the command's own -/

/-- `f` takes `n` operand words after the header `w`: fewer are incomplete, and with as many the command is the
well-formed one whose encoding they are. -/
def TakesOperands (w : Word) (n : Nat) (f : List Word → Decoded) : Prop :=
  ∀ ops, (ops.length < n → f ops = .incomplete) ∧
    (n ≤ ops.length → ∃ i, f ops = .cmd i (ops.drop n) ∧ i.wellFormed = true ∧ encode i = w :: ops.take n)

section Formats

variable {w : Word}

theorem formatH_takes {c : Instr} (hc : c.wellFormed = true ∧ encode c = [w]) : TakesOperands w 0 (formatH c) :=
  fun _ => ⟨nofun, fun _ => ⟨c, rfl, hc⟩⟩

theorem formatHF_takes {c : Word → Instr} (hc : ∀ v, (c v).wellFormed = true ∧ encode (c v) = [w, v]) :
    TakesOperands w 1 (formatHF c)
  | [] => ⟨fun _ => rfl, nofun⟩
  | v :: _ => ⟨by simp, fun _ => ⟨c v, rfl, hc v⟩⟩

theorem formatHF5_takes {c : Word → Word → Word → Word → Word → Instr}
    (hc : ∀ a d u r v, (c a d u r v).wellFormed = true ∧ encode (c a d u r v) = [w, a, d, u, r, v]) :
    TakesOperands w 5 (formatHF5 c)
  | [] | [_] | [_, _] | [_, _, _] | [_, _, _, _] => ⟨fun _ => rfl, by simp⟩
  | a :: d :: u :: r :: v :: _ => ⟨by simp, fun _ => ⟨c a d u r v, rfl, hc a d u r v⟩⟩

theorem formatHK_takes {c : Word → Word → Int → Instr}
    (hc : ∀ b k n, (c b k n.toInt).wellFormed = true ∧ encode (c b k n.toInt) = [w, b, k, n]) :
    TakesOperands w 3 (formatHK c)
  | [] | [_] | [_, _] => ⟨fun _ => rfl, by simp⟩
  | b :: k :: n :: _ => ⟨by simp, fun _ => ⟨c b k n.toInt, rfl, hc b k n⟩⟩

theorem formatHX_takes {c : Nat → Instr}
    (hc : ∀ x, (c x.toNat).wellFormed = true ∧ encode (c x.toNat) = [w, x]) : TakesOperands w 1 (formatHX c)
  | [] => ⟨fun _ => rfl, nofun⟩
  | x :: _ => ⟨by simp, fun _ => ⟨c x.toNat, rfl, hc x⟩⟩

theorem formatHXF_takes {c : Nat → Word → Instr}
    (hc : ∀ x v, (c x.toNat v).wellFormed = true ∧ encode (c x.toNat v) = [w, x, v]) :
    TakesOperands w 2 (formatHXF c)
  | [] | [_] => ⟨fun _ => rfl, by simp⟩
  | x :: v :: _ => ⟨by simp, fun _ => ⟨c x.toNat v, rfl, hc x v⟩⟩

end Formats

/-! ### The opcode map (R74, R75) -/

/-- How many operand words the opcode takes, from `0x01` on. -/
def operandWords (opc : Nat) : Nat := [1, 1, 1, 5, 3, 0, 0, 0, 0, 0, 2, 1].getD (opc - 1) 0

theorem decodeOpcode_takes : ∀ {k : Nat}, 1 ≤ k → k ≤ 12 →
    TakesOperands (BitVec.ofNat 32 k) (operandWords k) (decodeOpcode k)
  | 1, _, _ | 2, _, _ | 3, _, _ => formatHF_takes fun _ => ⟨rfl, rfl⟩
  | 4, _, _ => formatHF5_takes fun _ _ _ _ _ => ⟨rfl, rfl⟩
  | 5, _, _ => formatHK_takes fun _ _ n => ⟨fitsI32_toInt n, by simp [encode]⟩
  | 6, _, _ | 7, _, _ | 8, _, _ | 9, _, _ | 10, _, _ => formatH_takes ⟨rfl, rfl⟩
  | 11, _, _ => formatHXF_takes fun x _ => ⟨fitsU32_toNat x, by simp [encode]⟩
  | 12, _, _ => formatHX_takes fun x => ⟨fitsU32_toNat x, by simp [encode]⟩
  | 0, h, _ => absurd h (by decide)
  | k + 13, _, h => absurd h (by omega)

/-- After a legal header the decoder takes as many words as the opcode says. -/
theorem decode_takes {w : Word} (h1 : 1 ≤ w.toNat) (h2 : w.toNat ≤ 12) :
    TakesOperands w (operandWords w.toNat) fun ops => decode (w :: ops) := by
  have hop := decodeOpcode_takes h1 h2
  rw [BitVec.ofNat_toNat, BitVec.setWidth_eq] at hop
  intro ops
  simpa only [decode_small_header (show w.toNat < 256 by omega)] using hop ops

/-- Settles O2: a command starts with a legal header, and the operand words its format takes are its own. -/
theorem encodeInvertsDecode : Obligations.EncodeInvertsDecode := by
  unfold Obligations.EncodeInvertsDecode
  intro ws i rest h
  cases ws with
  | nil => cases h
  | cons w ops =>
    have hw : 1 ≤ w.toNat ∧ w.toNat ≤ 12 := by
      by_contra hw
      cases h.symm.trans (decode_illegal_header hw ops)
    obtain ⟨hshort, hfull⟩ := decode_takes hw.1 hw.2 ops
    rcases lt_or_ge ops.length (operandWords w.toNat) with hlen | hlen
    · cases h.symm.trans (hshort hlen)
    · obtain ⟨j, hj, hwf, henc⟩ := hfull hlen
      cases h.symm.trans hj
      exact ⟨hwf, by rw [henc, List.cons_append, List.take_append_drop]⟩

/-- Settles O4, by the opcode map for the legal headers. -/
theorem operandWordsTaken : Obligations.OperandWordsTaken := by
  unfold Obligations.OperandWordsTaken
  refine ⟨rfl, fun w ops => ⟨fun rest h => ?illegal, fun h1 h2 => ?legal⟩⟩
  case illegal =>
    obtain ⟨hw, hrest⟩ := decode_eq_illegal h
    exact ⟨hrest, decode_illegal_header hw⟩
  case legal =>
    obtain ⟨hshort, hfull⟩ := decode_takes h1 h2 ops
    refine ⟨hshort, fun hlen => ?_⟩
    obtain ⟨i, hi, -, -⟩ := hfull hlen
    exact ⟨i, hi⟩

/-! ### The illegal headers (R78) -/

/-- Which headers are illegal (R78): all but twelve. -/
theorem decode_illegal_iff (w : Word) (ops : List Word) :
    (∃ rest, decode (w :: ops) = .illegal rest) ↔ ¬ (1 ≤ w.toNat ∧ w.toNat ≤ 12) :=
  ⟨fun ⟨_, h⟩ => (decode_eq_illegal h).1, fun h => ⟨ops, decode_illegal_header h ops⟩⟩

/-- The header's fields as R78 names them. -/
theorem illegal_fields_iff (w : Word) :
    (w.extractLsb 31 8 ≠ 0 ∨ w.extractLsb 7 0 = 0 ∨ 0x0D ≤ (w.extractLsb 7 0).toNat) ↔
      ¬ (1 ≤ w.toNat ∧ w.toNat ≤ 12) := by
  have hrsv : (w.extractLsb 31 8).toNat = w.toNat / 2 ^ 8 % 2 ^ 24 := by
    rw [BitVec.extractLsb_toNat, Nat.shiftRight_eq_div_pow]
  have hopc : (w.extractLsb 7 0).toNat = w.toNat % 2 ^ 8 := by
    rw [BitVec.extractLsb_toNat, Nat.shiftRight_zero]
  rw [Ne, ← BitVec.toNat_inj, ← BitVec.toNat_inj, hrsv, hopc]
  have := w.isLt
  change ¬ _ = 0 ∨ _ = 0 ∨ _ ↔ _
  omega

/-! ### The worked encodings (R83) -/

/-- Settles O5: the texts by evaluation of the assembler, the commands by the round trip. -/
theorem workedEncodings : Obligations.WorkedEncodings := by
  unfold Obligations.WorkedEncodings
  refine ⟨by decide +kernel, by decide +kernel, by decide +kernel, by decide +kernel, by decide +kernel,
    by decide +kernel, by decide +kernel, by decide +kernel, by decide +kernel, by decide +kernel,
    by decide +kernel, ?_⟩
  exact ⟨decode_encode (i := .setcut 0x3F000000) rfl,
    decode_encode (i := .setenv 0x3F000000 0x3F000000 0x3F000000 0x3F000000 0x00000000) rfl,
    decode_encode (i := .setkey 0x3F000000 0x3F800000 72) rfl,
    by decide,
    decode_encode (i := .stin 0 0x3F800000) rfl, decode_encode (i := .ldout 7) rfl,
    decode_encode (i := .trig) rfl, decode_encode (i := .rel) rfl, decode_encode (i := .proc) rfl,
    decode_encode (i := .getcut) rfl, decode_encode (i := .getres) rfl,
    decode_illegal_header (by decide) [], decode_illegal_header (by decide) [], decode_illegal_header (by decide) []⟩

/-! ### The opcode table's bits (log entry 4) -/

/-- The words of a command as one number, the first word least significant. -/
def packWords (ws : List Word) : Nat := ws.foldr (fun w n => w.toNat + 2 ^ 32 * n) 0

@[simp] theorem packWords_cons (w : Word) (ws : List Word) :
    packWords (w :: ws) = w.toNat + 2 ^ 32 * packWords ws := rfl

theorem packWords_lt : ∀ ws : List Word, packWords ws < 2 ^ (32 * ws.length)
  | [] => by decide
  | w :: ws => by
    have hw := w.isLt
    have hws := packWords_lt ws
    rw [packWords_cons, List.length_cons, Nat.mul_succ, Nat.add_comm (32 * _), Nat.pow_add]
    omega

/-- Word `k` of the number, and zero words after the last. -/
theorem word_packWords (ws : List Word) (k : Nat) :
    BitVec.ofNat 32 (packWords ws / 2 ^ (32 * k)) = ws.getD k 0 := by
  induction ws generalizing k with
  | nil => simp [packWords]
  | cons w ws ih =>
    cases k with
    | zero =>
      apply BitVec.eq_of_toNat_eq
      have := w.isLt
      rw [BitVec.toNat_ofNat, packWords_cons, List.getD_cons_zero]
      omega
    | succ k =>
      have hdiv : packWords (w :: ws) / 2 ^ 32 = packWords ws := by
        have := w.isLt
        rw [packWords_cons]
        omega
      rw [Nat.mul_succ, Nat.add_comm, Nat.pow_add, ← Nat.div_div_eq_div_mul, hdiv, ih, List.getD_cons_succ]

/-- The bits of a command give its words back, and zero words up to the longest command. -/
theorem tableWords_packWords {ws : List Word} (h : ws.length ≤ longestCommand) :
    tableWords (32 * ws.length) (packWords ws) = ws ++ List.replicate (longestCommand - ws.length) 0 := by
  unfold tableWords
  rw [Nat.mod_eq_of_lt (packWords_lt ws)]
  apply List.ext_getElem
  · simp; omega
  · intro k h1 h2
    rw [List.getElem_map, List.getElem_range, word_packWords, List.getElem_append]
    split_ifs with hk
    · simp [hk]
    · simp [hk]

theorem encode_length_le (i : Instr) : (encode i).length ≤ longestCommand := by
  cases i <;> simp [encode, longestCommand]

/-- What the decoder reads from a command's bits: the command, and zero words after it. -/
theorem decode_tableWords {i : Instr} (h : i.wellFormed = true) :
    decode (tableWords (32 * (encode i).length) (packWords (encode i))) =
      .cmd i (List.replicate (longestCommand - (encode i).length) 0) := by
  rw [tableWords_packWords (encode_length_le i), decodeInvertsEncode i _ h]

theorem decodeTableWord_packWords {i : Instr} (h : i.wellFormed = true) :
    decodeTableWord (32 * (encode i).length) (packWords (encode i)) = some i := by
  simp only [decodeTableWord, decode_tableWords h]

/-- The zero words after the command are not offered. -/
theorem tableCommandWords_packWords {i : Instr} (h : i.wellFormed = true) :
    tableCommandWords (32 * (encode i).length) (packWords (encode i)) = encode i := by
  simp only [tableCommandWords, decode_tableWords h]
  rw [tableWords_packWords (encode_length_le i)]
  simp

end Sys2Proof

/-! The encoding on the command port (30_encoding.md R75 to R80, 44_host_commands.md R180): one step on an illegal
header, on an incomplete command and on the opcode table's bits, and which commands respond (R77). -/

namespace Sys2Proof.Machine

theorem accepting_iff (s : State) :
    s.accepting = true ↔ s.resetIn = false ∧ s.busy = false ∧ s.fault = false := by
  simp only [State.accepting, Bool.and_eq_true, Bool.not_eq_true', and_assoc]

section Accepting

variable {s : State} (h : s.accepting = true)
include h

theorem step_of_cmd {i : Instr} {rest : List Word} (hd : decode (s.rx ++ s.port) = .cmd i rest) :
    step s = exec i (s.taken rest) := by
  obtain ⟨hr, hb, hf⟩ := (accepting_iff s).1 h
  rw [step_of_ready hr hb hf, State.nextCommand, hd]

theorem step_of_illegal {rest : List Word} (hd : decode (s.rx ++ s.port) = .illegal rest) :
    step s = .next (s.illegalHeader rest) := by
  obtain ⟨hr, hb, hf⟩ := (accepting_iff s).1 h
  rw [step_of_ready hr hb hf, State.nextCommand, hd]

theorem step_of_incomplete (hd : decode (s.rx ++ s.port) = .incomplete) : step s = .next s.await := by
  obtain ⟨hr, hb, hf⟩ := (accepting_iff s).1 h
  rw [step_of_ready hr hb hf, State.nextCommand, hd]

end Accepting

/-- Settles O3: all but twelve headers are illegal, and the step at one raises the fault and takes that word. -/
theorem illegalHeadersRaiseTheirFault : Obligations.IllegalHeadersRaiseTheirFault := by
  unfold Obligations.IllegalHeadersRaiseTheirFault
  refine fun w ops => ⟨(decode_illegal_iff w ops).trans (illegal_fields_iff w).symm, decode_illegal_iff w ops, ?_⟩
  intro s hs hwords hw
  have hd : decode (s.rx ++ s.port) = .illegal ops := by rw [hwords, decode_illegal_header hw]
  exact ⟨s.illegalHeader ops, step_of_illegal hs hd, rfl, rfl, rfl⟩

/-- Settles O6: exactly the command's words are offered, and they decode to it with nothing left. -/
theorem tableBitsRunTheirCommand : Obligations.TableBitsRunTheirCommand := by
  unfold Obligations.TableBitsRunTheirCommand
  refine fun i hi => ⟨decodeTableWord_packWords hi, fun s => ?_⟩
  change step (s.offering (tableCommandWords _ (packWords (encode i)))) = _
  rw [tableCommandWords_packWords hi]
  exact step_of_cmd (s := s.offering (encode i)) rfl (decode_encode hi)

/-- Settles O8: the words offered move behind those received, in their order. -/
theorem incompleteCommandWaits : Obligations.IncompleteCommandWaits := by
  unfold Obligations.IncompleteCommandWaits
  intro s hs hd
  have hstep : step s = .next s.await := step_of_incomplete hs hd
  refine ⟨hstep, fun more t ht => ?_⟩
  cases hstep.symm.trans ht
  rw [await_rx, await_port, List.nil_append, List.append_assoc]

/-! ### Responses (R77) -/

/-- The commands that respond when they execute in `s` (R77). -/
def Responds (s : State) (i : Instr) : Prop :=
  i = .getcut ∨ i = .getres ∨ ∃ k, i = .ldout k ∧ k < s.cfg.frameSize

theorem exec_trig_resp {s t : State} (h : exec .trig s = .next t) : t.resp = s.resp := by
  cases hn : s.cfg.num
  case binary32 => rw [exec_trig_binary32 hn] at h; cases h; rfl
  case exact => rw [exec_trig_exact hn] at h; cases h; rfl

theorem exec_rel_resp {s t : State} (h : exec .rel s = .next t) : t.resp = s.resp := by
  cases hn : s.cfg.num
  case binary32 => rw [exec_rel_binary32 hn] at h; cases h; rfl
  case exact => rw [exec_rel_exact hn] at h; cases h; rfl

theorem exec_resp_of_responds {i : Instr} {s t : State} (h : exec i s = .next t) (hi : Responds s i) :
    ∃ w, t.resp = s.resp ++ [w] := by
  obtain rfl | rfl | ⟨k, rfl, hk⟩ := hi
  · cases h; exact ⟨_, rfl⟩
  · cases h; exact ⟨_, rfl⟩
  · rw [exec_ldout, if_pos hk] at h
    cases h
    exact ⟨_, rfl⟩

theorem exec_resp_of_not_responds {i : Instr} {s t : State} (h : exec i s = .next t) (hi : ¬ Responds s i) :
    t.resp = s.resp := by
  cases i with
  | setcut | setres | setmod | setenv | setkey => cases h; rfl
  | trig => exact exec_trig_resp h
  | rel => exact exec_rel_resp h
  | proc => cases h; simp
  | getcut => exact absurd (.inl rfl) hi
  | getres => exact absurd (.inr (.inl rfl)) hi
  | stin k v =>
    rw [exec_stin] at h
    cases h
    split_ifs <;> rfl
  | ldout k =>
    rw [exec_ldout, if_neg fun hk => hi (.inr (.inr ⟨k, rfl, hk⟩))] at h
    cases h
    rfl

/-- Settles O11, by whether the command is one of those that respond. -/
theorem responsesOnlyFromReadCommands : Obligations.ResponsesOnlyFromReadCommands := by
  unfold Obligations.ResponsesOnlyFromReadCommands
  exact fun _ _ _ h => ⟨exec_resp_of_responds h, exec_resp_of_not_responds h⟩

end Sys2Proof.Machine

/-! The Ladder Filter step (40_ladder_filter.md): in exact arithmetic its gain at zero frequency (R97), in binary32 the
exact passage of its input at `f = 1.0` (R98) and the corner where an impulse diverges (R99). -/

namespace Sys2Proof.Machine

/-! ### The step on reals (R93, R97) -/

section Reals

variable (e : Exp2Choice)

theorem toReal_filterF (c : PowerSum) : (filterF (Num.power e) c).toReal = 116 / 100 * c.toReal := by
  simp [filterF, mul_comm]

theorem toReal_filterFeedback (f r : PowerSum) :
    (filterFeedback (Num.power e) f r).toReal = 4 * r.toReal * (1 - 15 / 100 * f.toReal ^ 2) := by
  simp [filterFeedback]
  ring

theorem toReal_filterStage (f g u s : PowerSum) :
    (filterStage (Num.power e) f g u s).toReal = u.toReal * f.toReal + s.toReal * g.toReal := by
  simp [filterStage]

/-- A stage that holds its own input is at rest: its two coefficients sum to one. -/
theorem toReal_filterStage_rest (f : PowerSum) {u y : PowerSum} (h : u.toReal = y.toReal) :
    (filterStage (Num.power e) f ((Num.power e).sub (Num.power e).one f) u y).toReal = y.toReal := by
  have hg : ((Num.power e).sub (Num.power e).one f).toReal = 1 - f.toReal := by simp [sub_eq_add_neg]
  rw [toReal_filterStage, hg, h]
  ring

end Reals

/-- Settles O45: the feedback takes from the input what makes the first stage's input `y`, and each stage hands it to
the next. -/
theorem exactPassbandGain : Obligations.ExactPassbandGain := by
  unfold Obligations.ExactPassbandGain
  rintro e x c r y f fb rfl rfl hx
  refine ⟨_, rfl, ?_⟩
  have hinput : ((Num.power e).sub x
      ((Num.power e).mul (filterFeedback (Num.power e) (filterF (Num.power e) c) r) y)).toReal = y.toReal := by
    rw [power_sub, power_mul, toReal_add, toReal_neg, toReal_mul, toReal_filterFeedback, toReal_filterF, hx]
    ring
  have h1 := toReal_filterStage_rest e (filterF (Num.power e) c) hinput
  have h2 := toReal_filterStage_rest e (filterF (Num.power e) c) h1
  have h3 := toReal_filterStage_rest e (filterF (Num.power e) c) h2
  have h4 := toReal_filterStage_rest e (filterF (Num.power e) c) h3
  exact ⟨h1, h2, h3, h4⟩

/-! ### Binary32 values by the rational they hold -/

/-- `v` is a finite value that a word encodes, and `q` is its rational. -/
structure HoldsRat (v : F) (q : ℚ) : Prop where
  held : v.Held
  finite : v.isFinite = true
  value : v.toRat = q

theorem holdsRat_of_isFinite {w : Word} (h : (f32OfBits w).isFinite = true) :
    HoldsRat (f32OfBits w) (f32OfBits w).toRat := ⟨held_f32OfBits w, h, rfl⟩

theorem holdsRat_zeroF : HoldsRat zeroF 0 :=
  ⟨held_f32OfBits _, by rw [zeroF_eq]; rfl, by rw [zeroF_eq, toRat_fin, signedUnits_zero]; norm_num⟩

theorem holdsRat_oneF : HoldsRat oneF 1 :=
  ⟨held_f32OfBits _, by rw [oneF_eq]; rfl, by rw [oneF_eq, toRat_fin, signedUnits_false]; norm_num⟩

section Operations

variable {a b v : F} {p q : ℚ}

/-- A result that is correctly rounded is exact where some value holds the exact one. -/
theorem HoldsRat.of_roundsTo (hv : HoldsRat v q) (h : roundsTo q a) : HoldsRat a q := by
  obtain ⟨⟨w, rfl⟩, hfin, rfl⟩ := hv
  obtain ⟨hfin', hval⟩ := roundsTo_representable h hfin
  rw [roundsTo, if_neg (not_le.2 (abs_toRat_lt hfin))] at h
  exact ⟨h.1, hfin', hval⟩

/-- Each operation rounds the exact result on the rationals held. -/
theorem HoldsRat.operations_roundTo (ha : HoldsRat a p) (hb : HoldsRat b q) :
    roundsTo (p + q) (F.add a b) ∧ roundsTo (p - q) (F.sub a b) ∧ roundsTo (p * q) (F.mul a b) := by
  obtain ⟨⟨v, rfl⟩, hv, rfl⟩ := ha
  obtain ⟨⟨w, rfl⟩, hw, rfl⟩ := hb
  obtain ⟨hadd, hsub, hmul, -⟩ := Machine.operations_roundTo hv hw
  exact ⟨hadd, hsub, hmul⟩

theorem HoldsRat.add_zero (ha : HoldsRat a p) (hb : HoldsRat b 0) : HoldsRat (F.add a b) p :=
  ha.of_roundsTo (by simpa using (ha.operations_roundTo hb).1)

theorem HoldsRat.sub_zero (ha : HoldsRat a p) (hb : HoldsRat b 0) : HoldsRat (F.sub a b) p :=
  ha.of_roundsTo (by simpa using (ha.operations_roundTo hb).2.1)

theorem HoldsRat.mul_one (ha : HoldsRat a p) (hb : HoldsRat b 1) : HoldsRat (F.mul a b) p :=
  ha.of_roundsTo (by simpa using (ha.operations_roundTo hb).2.2)

theorem HoldsRat.mul_zero (ha : HoldsRat a p) (hb : HoldsRat b 0) : HoldsRat (F.mul a b) 0 :=
  hb.of_roundsTo (by simpa using (ha.operations_roundTo hb).2.2)

theorem HoldsRat.zero_mul (ha : HoldsRat a 0) (hb : HoldsRat b p) : HoldsRat (F.mul a b) 0 :=
  ha.of_roundsTo (by simpa using (ha.operations_roundTo hb).2.2)

end Operations

/-! ### The step in binary32 at `f = 1.0` without resonance (R98) -/

section UnitCoefficient

variable (c : Exp2Choice)

/-- The cutoff whose coefficient `f` is `1.0` (R96). -/
theorem filterF_unit : filterF (Num.binary32 c) (f32OfBits 0x3F5CB08E) = oneF := by
  rw [filterF, binary32_mul, binary32_c116]
  decide +kernel

theorem filterFeedback_unit : filterFeedback (Num.binary32 c) oneF zeroF = zeroF := by
  simp only [filterFeedback, binary32_mul, binary32_sub, binary32_one, binary32_four, binary32_c015]
  decide +kernel

theorem sub_one_unit : (Num.binary32 c).sub (Num.binary32 c).one oneF = zeroF := by
  rw [binary32_sub, binary32_one]
  decide +kernel

/-- With `f = 1.0` and `g = 0.0` a stage passes its input, whatever finite value it held. -/
theorem HoldsRat.filterStage_unit {u s : F} {p q : ℚ} (hu : HoldsRat u q) (hs : HoldsRat s p) :
    HoldsRat (filterStage (Num.binary32 c) oneF zeroF u s) q :=
  (hu.mul_one holdsRat_oneF).add_zero (hs.mul_zero holdsRat_zeroF)

/-- The input reaches all four stage registers in one step. -/
theorem ladderStep_unit {x : F} {l : Ladder F} {q p1 p2 p3 p4 : ℚ} (hx : HoldsRat x q) (h1 : HoldsRat l.s1 p1)
    (h2 : HoldsRat l.s2 p2) (h3 : HoldsRat l.s3 p3) (h4 : HoldsRat l.s4 p4) :
    let t := ladderStep (Num.binary32 c) x (f32OfBits 0x3F5CB08E) zeroF l
    HoldsRat t.s1 q ∧ HoldsRat t.s2 q ∧ HoldsRat t.s3 q ∧ HoldsRat t.s4 q := by
  simp only [ladderStep, filterF_unit, filterFeedback_unit, sub_one_unit]
  have hinput : HoldsRat ((Num.binary32 c).sub x ((Num.binary32 c).mul zeroF l.s4)) q :=
    hx.sub_zero (holdsRat_zeroF.zero_mul h4)
  have ht1 := hinput.filterStage_unit c h1
  have ht2 := ht1.filterStage_unit c h2
  have ht3 := ht2.filterStage_unit c h3
  exact ⟨ht1, ht2, ht3, ht3.filterStage_unit c h4⟩

end UnitCoefficient

/-- Settles O43: every operation of the step has an exact result that a word encodes, so none of them rounds. -/
theorem passthroughAtUnitCoefficient : Obligations.PassthroughAtUnitCoefficient := by
  unfold Obligations.PassthroughAtUnitCoefficient
  intro c x s1 s2 s3 s4 hx h1 h2 h3 h4
  obtain ⟨ht1, ht2, ht3, ht4⟩ := ladderStep_unit c (l := mapLadder f32OfBits ⟨s1, s2, s3, s4⟩)
    (holdsRat_of_isFinite hx) (holdsRat_of_isFinite h1) (holdsRat_of_isFinite h2) (holdsRat_of_isFinite h3)
    (holdsRat_of_isFinite h4)
  exact ⟨filterF_unit c, _, rfl, ht1.finite, ht2.finite, ht3.finite, ht4.finite, ht1.value, ht2.value, ht3.value,
    ht4.value⟩

/-! ### The step in binary32 at cutoff 0.999 and resonance 1.0 (R99) -/

/-- A step at the unstable corner of R99. -/
def cornerStep (x : F) : Ladder F → Ladder F :=
  ladderStep (Num.binary32 .nearest) x (f32OfBits 0x3F7FBE77) oneF

/-- The impulse response halfway to the overflow: the stage registers alternate in sign and grow. -/
theorem cornerStep_index_23 : (cornerStep zeroF)^[23] (cornerStep oneF ⟨zeroF, zeroF, zeroF, zeroF⟩) =
    mapLadder f32OfBits ⟨0xDE3CEAB9, 0xDE608552, 0xDE856AD7, 0xDE9E8FC5⟩ := by
  decide +kernel

/-- The last finite stage registers of the impulse response. -/
theorem cornerStep_index_47 : (cornerStep zeroF)^[47] (cornerStep oneF ⟨zeroF, zeroF, zeroF, zeroF⟩) =
    mapLadder f32OfBits ⟨0xFE4DFDC9, 0xFE74D02A, 0xFE9179C8, 0xFEACE47C⟩ := by
  rw [show 47 = 24 + 23 from rfl, Function.iterate_add_apply, cornerStep_index_23]
  decide +kernel

/-- One step later all four stages have overflowed. -/
theorem cornerStep_index_48 : (cornerStep zeroF)^[48] (cornerStep oneF ⟨zeroF, zeroF, zeroF, zeroF⟩) =
    ⟨.inf false, .inf false, .inf false, .inf false⟩ := by
  rw [Function.iterate_succ_apply', cornerStep_index_47]
  decide +kernel

/-- Settles O44: the impulse response at the two indices. -/
theorem unstableCornerDiverges : Obligations.UnstableCornerDiverges := by
  unfold Obligations.UnstableCornerDiverges
  rw [← cornerStep, ← cornerStep, cornerStep_index_47, cornerStep_index_48]
  exact ⟨by decide +kernel, false, rfl⟩

end Sys2Proof.Machine

/-! The envelope's stage rules, one equation for each stage (41_envelope.md R115 to R120), in any number format and in
exact arithmetic, and the rate formula in exact arithmetic (R112). -/

namespace Sys2Proof.Machine

/-! ### In any number format -/

section AnyFormat

variable {α : Type} (N : Num α) (c : Consts α) (p : Params α) {e : Env α}

theorem envTick_attack (h : e.stage = .attack) : envTick N c p e =
    if N.le N.one (N.add e.ev e.er) then ⟨.decay, N.one, sustainLevel N p, rateOf N c p.decay⟩
    else ⟨.attack, N.add e.ev e.er, e.et, e.er⟩ := by
  simp only [envTick, tickAttack, h]

theorem envTick_decay (h : e.stage = .decay) : envTick N c p e =
    if N.le (N.sub e.ev e.er) (sustainLevel N p) then ⟨.sustain, sustainLevel N p, e.et, e.er⟩
    else ⟨.decay, N.sub e.ev e.er, e.et, e.er⟩ := by
  simp only [envTick, tickDecay, h]

theorem envTick_sustain (h : e.stage = .sustain) : envTick N c p e = e := by
  simp only [envTick, h]

theorem envTick_release (h : e.stage = .release) : envTick N c p e =
    if N.le (N.sub e.ev e.er) N.zero then ⟨.idle, N.zero, e.et, e.er⟩
    else ⟨.release, N.sub e.ev e.er, e.et, e.er⟩ := by
  simp only [envTick, tickRelease, h]

theorem envTick_idle (h : e.stage = .idle) : envTick N c p e = e := by
  simp only [envTick, h]

end AnyFormat

/-! ### In exact arithmetic -/

section Exact

variable (x : ℚ → ℚ) {c : Consts ℚ} (p : Params ℚ) {e : Env ℚ}

theorem sustainLevel_exact : sustainLevel (Num.exact x) p = max 0 (min 1 p.sustain) :=
  clamp_exact x p.sustain zero_le_one

theorem rateOf_exact (heps : 0 < c.tEps) (hrate : 0 < c.sampleRate) (t : ℚ) :
    rateOf (Num.exact x) c t = 1 / (max c.tEps t * c.sampleRate) := by
  have hprod : 0 < max c.tEps t * c.sampleRate := mul_pos (lt_max_of_lt_left heps) hrate
  rw [rateOf, clampLo_exact, exact_mul, exact_div _ _ hprod.ne', exact_one]

theorem envTick_exact_attack (h : e.stage = .attack) : envTick (Num.exact x) c p e =
    if 1 ≤ e.ev + e.er then ⟨.decay, 1, max 0 (min 1 p.sustain), rateOf (Num.exact x) c p.decay⟩
    else ⟨.attack, e.ev + e.er, e.et, e.er⟩ := by
  simp only [envTick_attack _ _ _ h, sustainLevel_exact, exact_le, exact_one, exact_add, decide_eq_true_eq]

theorem envTick_exact_decay (h : e.stage = .decay) : envTick (Num.exact x) c p e =
    if e.ev - e.er ≤ max 0 (min 1 p.sustain) then ⟨.sustain, max 0 (min 1 p.sustain), e.et, e.er⟩
    else ⟨.decay, e.ev - e.er, e.et, e.er⟩ := by
  simp only [envTick_decay _ _ _ h, sustainLevel_exact, exact_le, exact_sub, decide_eq_true_eq]

theorem envTick_exact_release (h : e.stage = .release) : envTick (Num.exact x) c p e =
    if e.ev - e.er ≤ 0 then ⟨.idle, 0, e.et, e.er⟩ else ⟨.release, e.ev - e.er, e.et, e.er⟩ := by
  simp only [envTick_release _ _ _ h, exact_le, exact_zero, exact_sub, decide_eq_true_eq]

end Exact

/-- The rate of a time register in exact arithmetic is the one the statements write. -/
theorem rateOf_exactNum {s : State} (hc : configValid s.cfg = true) (w : Word) :
    rateOf exactNum s.exactConsts (realOfBits w) = exactRateOfWord s.cfg w := by
  obtain ⟨-, -, hrate, heps, -⟩ := (configValid_iff s.cfg).1 hc
  exact rateOf_exact id (c := s.exactConsts) (realOfBits_pos heps) (realOfBits_pos hrate) _

/-! ### On the registers -/

section Registers

variable {s : State}

theorem putEnv_sameButEnv (s : State) (e : Env F) : sameButEnv s (s.putEnv e) :=
  ⟨rfl, ⟨rfl, rfl⟩, ⟨fun _ => rfl, fun _ => rfl, fun _ => rfl⟩, ⟨rfl, rfl, rfl, rfl, rfl, rfl, rfl⟩, rfl⟩

theorem putEnvExact_sameButEnv (s : State) (e : Env ℚ) : sameButEnv s (s.putEnvExact e) :=
  ⟨rfl, ⟨rfl, rfl⟩, ⟨fun _ => rfl, fun _ => rfl, fun _ => rfl⟩, ⟨rfl, rfl, rfl, rfl, rfl, rfl, rfl⟩, rfl⟩

theorem tick_sameButEnv (s : State) : sameButEnv s s.tick := by
  cases hnum : s.cfg.num
  case binary32 => exact tick_binary32 hnum ▸ putEnv_sameButEnv s _
  case exact => exact tick_exact hnum ▸ putEnvExact_sameButEnv s _

theorem tick_sameOtherFormat (s : State) : sameOtherFormat s s.tick := by
  cases hnum : s.cfg.num
  case binary32 => exact tick_binary32 hnum ▸ putEnv_sameOtherFormat hnum _
  case exact => exact tick_exact hnum ▸ putEnvExact_sameOtherFormat hnum _

/-- The registers of binary32 after a tick that answers `e`. -/
theorem tick_env_of_envTick (hnum : s.cfg.num = .binary32) {e : Env F}
    (he : envTick s.f32Num s.consts s.paramValues s.envValues = e) :
    s.tick.env =
      ⟨e.stage, bitsOfF32 s.nanSeq e.ev, bitsOfF32 (s.nanSeq + 1) e.et, bitsOfF32 (s.nanSeq + 2) e.er⟩ := by
  rw [tick_binary32 hnum, he, putEnv_env]

/-- A tick that answers what the registers hold leaves their words. -/
theorem tick_env_of_unchanged (hnum : s.cfg.num = .binary32)
    (he : envTick s.f32Num s.consts s.paramValues s.envValues = s.envValues) : s.tick.env = s.env := by
  rw [tick_env_of_envTick hnum he]
  simp [State.envValues, mapEnv]

theorem tick_exactEnv (hnum : s.cfg.num = .exact) :
    s.tick.exactEnv = envTick exactNum s.exactConsts s.exactParams s.exactEnv := by
  rw [tick_exact hnum, putEnvExact_exactEnv]

theorem bitsOfF32_zeroF (n : Nat) : bitsOfF32 n zeroF = 0x00000000 := bitsOfF32_f32OfBits n _

theorem bitsOfF32_oneF (n : Nat) : bitsOfF32 n oneF = 0x3F800000 := bitsOfF32_f32OfBits n _

/-- The sustain level that the tick reads in binary32 has a word. -/
theorem storable_sustain (s : State) : (clampF (f32OfBits s.params.sustain) zeroF oneF).Storable :=
  storable_clampF (storable_f32OfBits _) (storable_f32OfBits _) (storable_f32OfBits _)

end Registers

/-! ### `TRIG` and `REL` (R113, R114) -/

/-- Settles O13: in either format `TRIG` is one store of the envelope registers of that format. -/
theorem trigRestartsTheAttack : Obligations.TrigRestartsTheAttack := by
  unfold Obligations.TrigRestartsTheAttack
  refine ⟨rfl, fun s => ?_⟩
  cases hnum : s.cfg.num
  case binary32 =>
    exact ⟨_, exec_trig_binary32 hnum, rfl, putEnv_sameButEnv s _, putEnv_sameOtherFormat hnum _, fun _ =>
      ⟨bitsOfF32_zeroF s.nanSeq, bitsOfF32_oneF (s.nanSeq + 1), (storable_rateOfWord _ _).isBitsOf _⟩⟩
  case exact =>
    exact ⟨_, exec_trig_exact hnum, rfl, putEnvExact_sameButEnv s _, putEnvExact_sameOtherFormat hnum _, nofun⟩

/-- Settles O14: in either format `REL` is one store of the envelope registers of that format, `EV` as it was. -/
theorem relEntersRelease : Obligations.RelEntersRelease := by
  unfold Obligations.RelEntersRelease
  refine ⟨rfl, fun s => ?_⟩
  cases hnum : s.cfg.num
  case binary32 =>
    exact ⟨_, exec_rel_binary32 hnum, rfl, bitsOfF32_f32OfBits _ s.env.ev, rfl, putEnv_sameButEnv s _,
      putEnv_sameOtherFormat hnum _, fun _ =>
        ⟨bitsOfF32_zeroF (s.nanSeq + 1), (storable_rateOfWord _ _).isBitsOf _⟩⟩
  case exact =>
    exact ⟨_, exec_rel_exact hnum, rfl, rfl, rfl, putEnvExact_sameButEnv s _, putEnvExact_sameOtherFormat hnum _,
      nofun⟩

/-- Settles O15: the constraints on the configuration make the divisor of the rate positive. -/
theorem exactTrigAndRel : Obligations.ExactTrigAndRel := by
  unfold Obligations.ExactTrigAndRel
  intro s hnum hc
  rw [← rateOf_exactNum hc, ← rateOf_exactNum hc]
  exact ⟨⟨_, exec_trig_exact hnum, rfl⟩, ⟨_, exec_rel_exact hnum, rfl⟩⟩

/-! ### The tick, stage by stage -/

/-- Settles O16: the stage rules with their results stored. A stored value has its word (or a NaN's), and what a rule
does not write keeps its word. -/
theorem tickFollowsItsStage : Obligations.TickFollowsItsStage := by
  unfold Obligations.TickFollowsItsStage
  refine fun s => ⟨tick_sameButEnv s, tick_sameOtherFormat s, fun hnum => ⟨fun hst => ?attack, fun hst => ?decay,
    fun hst => ?sustain, fun hst => ?release, fun hst => ?idle⟩⟩
  case attack =>
    have htick := envTick_attack s.f32Num s.consts s.paramValues (e := s.envValues) hst
    split_ifs with hend
    · rw [tick_env_of_envTick hnum (htick.trans (if_pos hend))]
      exact ⟨rfl, bitsOfF32_oneF s.nanSeq, (storable_sustain s).isBitsOf _,
        (storable_rateOfWord _ _).isBitsOf _⟩
    · rw [tick_env_of_envTick hnum (htick.trans (if_neg hend))]
      exact ⟨rfl, (storable_add _ _).isBitsOf _, bitsOfF32_f32OfBits _ _, bitsOfF32_f32OfBits _ _⟩
  case decay =>
    have htick := envTick_decay s.f32Num s.consts s.paramValues (e := s.envValues) hst
    split_ifs with hend
    · rw [tick_env_of_envTick hnum (htick.trans (if_pos hend))]
      exact ⟨bitsOfF32_f32OfBits _ _, bitsOfF32_f32OfBits _ _, rfl, (storable_sustain s).isBitsOf _⟩
    · rw [tick_env_of_envTick hnum (htick.trans (if_neg hend))]
      exact ⟨bitsOfF32_f32OfBits _ _, bitsOfF32_f32OfBits _ _, rfl, (storable_sub _ _).isBitsOf _⟩
  case sustain => exact tick_env_of_unchanged hnum (envTick_sustain _ _ _ hst)
  case release =>
    have htick := envTick_release s.f32Num s.consts s.paramValues (e := s.envValues) hst
    split_ifs with hend
    · rw [tick_env_of_envTick hnum (htick.trans (if_pos hend))]
      exact ⟨bitsOfF32_f32OfBits _ _, bitsOfF32_f32OfBits _ _, rfl, bitsOfF32_zeroF s.nanSeq⟩
    · rw [tick_env_of_envTick hnum (htick.trans (if_neg hend))]
      exact ⟨bitsOfF32_f32OfBits _ _, bitsOfF32_f32OfBits _ _, rfl, (storable_sub _ _).isBitsOf _⟩
  case idle => exact tick_env_of_unchanged hnum (envTick_idle _ _ _ hst)

/-! ### `PROC` as ticks (R121) -/

/-- The filter leaves the envelope in exact arithmetic. -/
theorem filterSample_exactEnv (s : State) (n : Nat) : (s.filterSample n).exactEnv = s.exactEnv := by
  unfold State.filterSample
  split <;> rfl

theorem sampleSteps_exactEnv {s : State} (hnum : s.cfg.num = .exact) (k n : Nat) :
    (State.sampleSteps k n s).exactEnv = (envTick exactNum s.exactConsts s.exactParams)^[k] s.exactEnv := by
  induction k with
  | zero => rfl
  | succ k ih =>
    rw [sampleSteps_succ_last, State.sampleStep, filterSample_exactEnv, tick_exactEnv (by simpa using hnum),
      Function.iterate_succ_apply', ih, State.exactConsts, State.exactParams, sampleSteps_cfg, sampleSteps_params]
    rfl

/-- Settles O17: the stage rules on rationals, and the frame as their iteration. -/
theorem exactTickFollowsItsStage : Obligations.ExactTickFollowsItsStage := by
  unfold Obligations.ExactTickFollowsItsStage
  intro s hnum hc
  rw [tick_exactEnv hnum, ← rateOf_exactNum hc]
  exact ⟨envTick_exact_attack id s.exactParams (e := s.exactEnv), envTick_exact_decay id s.exactParams (e := s.exactEnv),
    envTick_sustain _ _ _ (e := s.exactEnv), envTick_exact_release id s.exactParams (e := s.exactEnv),
    envTick_idle _ _ _ (e := s.exactEnv), fun t ht => by
      cases ht
      exact sampleSteps_exactEnv (s := { s with busy := true }) hnum s.cfg.frameSize 0⟩

/-- A sound envelope is stored without loss. -/
theorem putEnv_envValues {s : State} {e : Env F} (he : EnvSound s.f32Num IsLevel32 IsRate32 e) :
    (s.putEnv e).envValues = e := by
  simp [State.envValues, mapEnv, f32OfBits_bitsOfF32 he.ev.held, f32OfBits_bitsOfF32 he.et.held,
    f32OfBits_bitsOfF32 he.er.held]

theorem tick_envValues {s : State} (hnum : s.cfg.num = .binary32) (hc : configValid s.cfg = true)
    (hs : s.envInvariant = true) : s.tick.envValues = envTick s.f32Num s.consts s.paramValues s.envValues := by
  rw [tick_binary32 hnum]
  exact putEnv_envValues (((envInvariant_binary32 hnum).1 hs).tick (envLaws_binary32 hnum hc))

theorem sampleSteps_envValues {s : State} (hnum : s.cfg.num = .binary32) (hc : configValid s.cfg = true)
    (hs : s.envInvariant = true) (k n : Nat) :
    (State.sampleSteps k n s).envValues = (envTick s.f32Num s.consts s.paramValues)^[k] s.envValues := by
  induction k with
  | zero => rfl
  | succ k ih =>
    have htick := tick_envValues (s := State.sampleSteps k n s) (by simpa using hnum) (by simpa using hc)
      (sampleSteps_envInvariant hc hs k n)
    rw [sampleSteps_succ_last, State.envValues, sampleStep_env, ← State.envValues, htick, Function.iterate_succ_apply',
      ih, State.f32Num, State.consts, State.paramValues, sampleSteps_cfg, sampleSteps_params]
    rfl

/-- Settles O23: the filter leaves the envelope, and under the invariants each tick's results are stored without loss. -/
theorem ticksOncePerSample : Obligations.TicksOncePerSample := by
  unfold Obligations.TicksOncePerSample
  constructor
  · intro s t hnum hc hs h
    cases h
    exact sampleSteps_envValues (s := { s with busy := true }) hnum hc hs s.cfg.frameSize 0
  · intro i s t htrig hrel hproc h
    cases i with
    | trig => exact absurd rfl htrig
    | rel => exact absurd rfl hrel
    | proc => exact absurd rfl hproc
    | setcut | setres | setmod | setenv | setkey | getcut | getres => cases h; exact ⟨rfl, rfl⟩
    | stin | ldout =>
      cases h
      split_ifs <;> exact ⟨rfl, rfl⟩

/-! ### The order of the stages (R110, R111) -/

/-- The transitions that a tick can make: the column "tick, test true" of R111. -/
inductive Stage.TickLeads : Stage → Stage → Prop
  | attackEnds : TickLeads .attack .decay
  | decayEnds : TickLeads .decay .sustain
  | releaseEnds : TickLeads .release .idle

theorem envTick_stage {α : Type} (N : Num α) (c : Consts α) (p : Params α) (e : Env α) :
    (envTick N c p e).stage = e.stage ∨ e.stage.TickLeads (envTick N c p e).stage := by
  cases hst : e.stage with
  | attack => rw [envTick_attack N c p hst]; split_ifs; exacts [.inr .attackEnds, .inl rfl]
  | decay => rw [envTick_decay N c p hst]; split_ifs; exacts [.inr .decayEnds, .inl rfl]
  | sustain => rw [envTick_sustain N c p hst]; exact .inl hst
  | release => rw [envTick_release N c p hst]; split_ifs; exacts [.inr .releaseEnds, .inl rfl]
  | idle => rw [envTick_idle N c p hst]; exact .inl hst

theorem tick_stage (s : State) : s.tick.env.stage = s.env.stage ∨ s.env.stage.TickLeads s.tick.env.stage := by
  cases hnum : s.cfg.num
  case binary32 => rw [tick_binary32 hnum]; exact envTick_stage _ _ _ s.envValues
  case exact => rw [tick_exact hnum]; exact envTick_stage _ _ _ s.exactEnv

/-- A set of stages that no tick leaves, no frame leaves. -/
theorem exec_proc_stage {P : Stage → Prop} (hP : ∀ a b, a.TickLeads b → P a → P b) {s t : State}
    (h : exec .proc s = .next t) (hs : P s.env.stage) : P t.env.stage := by
  cases h
  refine sampleSteps_keeps (P := fun u => P u.env.stage) (fun u n hu => ?_) (s := { s with busy := true }) hs _ _
  rw [sampleStep_env]
  rcases tick_stage u with hsame | hleads
  · rwa [hsame]
  · exact hP _ _ hleads hu

/-- Settles O22: each clause names a set of stages that no tick leaves. -/
theorem stageOrderWithinFrame : Obligations.StageOrderWithinFrame := by
  unfold Obligations.StageOrderWithinFrame
  intro s t h
  refine ⟨fun hst => ?idle, fun hst => ?attack, fun hst => ?decay, fun hst => ?sustain, fun hst => ?release⟩
  case idle => exact exec_proc_stage (P := fun a => a = .idle) (by rintro _ _ ⟨⟩ ⟨⟩) h hst
  case attack =>
    exact exec_proc_stage (P := fun a => a = .attack ∨ a = .decay ∨ a = .sustain)
      (by rintro _ _ ⟨⟩ hmem <;> simp at hmem ⊢) h (.inl hst)
  case decay =>
    exact exec_proc_stage (P := fun a => a = .decay ∨ a = .sustain)
      (by rintro _ _ ⟨⟩ hmem <;> simp at hmem ⊢) h (.inl hst)
  case sustain => exact exec_proc_stage (P := fun a => a = .sustain) (by rintro _ _ ⟨⟩ ⟨⟩) h hst
  case release =>
    exact exec_proc_stage (P := fun a => a = .release ∨ a = .idle)
      (by rintro _ _ ⟨⟩ hmem <;> simp at hmem ⊢) h (.inl hst)

end Sys2Proof.Machine

/-! The envelope's numbers: the rates of R112 in binary32, the monotone stages of R122 and their lengths of R123. -/

namespace Sys2Proof.Machine

/-! ### Rates in binary32 (41_envelope.md R112) -/

/-- The product of the clamped time and the sample rate is not negative: a finite value or plus infinity. -/
theorem F.AtLeast.isPower_mul {x : F} {u s : Nat} (hx : x.AtLeast u) (hs : 0 < s) :
    (F.mul x (.fin false s)).IsPower := by
  rcases hx with rfl | ⟨v, -, rfl⟩
  · exact .inl (by simp [F.mul, hs.ne'])
  · exact isPower_roundUnits _ _

/-- The reciprocal of a finite value does not underflow: the least of them is a subnormal. -/
theorem zero_lt_reciprocal {u : Nat} (hu : 0 < u) (hlt : u < unitsOfInf) :
    F.lt zeroF (F.div oneF (.fin false u)) = true := by
  have hone : roundFrac ((1 : Int) * u) u = 1 :=
    roundFrac_of_representable hu ⟨1, 0, by decide, by decide⟩ (by decide)
  have hbelow : (1 : Int) * u ≤ signedUnits false (8388608 * 2 ^ 126) * unitsOfOne := by
    have hinf : unitsOfInf ≤ 8388608 * 2 ^ 126 * unitsOfOne := by decide +kernel
    rw [signedUnits_false, one_mul]
    exact_mod_cast hlt.le.trans hinf
  have hround := roundFrac_mono hu hu (mul_le_mul_of_nonneg_right hbelow (Int.natCast_nonneg u))
  rw [oneF_eq, lt_of_ord ord_zeroF (ord_div hu), decide_eq_true_eq]
  omega

/-- Settles O18: the rate is finite and not negative, so the product is no zero, and what is not infinite has a positive
reciprocal. -/
theorem ratesAreFinite : Obligations.RatesAreFinite := by
  unfold Obligations.RatesAreFinite
  intro c w hnum hc
  obtain ⟨-, -, hsample, heps, -⟩ := (configValid_iff c).1 hc
  obtain ⟨r, hr, hsr⟩ := isPositive_iff.1 hsample
  obtain ⟨u, hu, hte⟩ := isPositive_iff.1 heps
  have hrate : IsRate32 (rateOfWord c w) := isRate32_rateOf c.exp2 hnum hc (f32OfBits w)
  refine ⟨hrate.finite, hrate.nonneg, ?_⟩
  have hclamp : (clampLo (Num.binary32 c.exp2) (f32OfBits w) (f32OfBits c.tEps)).AtLeast u := by
    obtain ⟨y, hy, huy, -⟩ := clampLo_spec c.exp2 (f32OfBits w) (ord_fin false u)
    rw [hte]
    exact atLeast_of_le hu (le_iff.2 ⟨_, _, ord_fin false u, hy, huy⟩)
  have hfin := hrate.finite
  rw [clampLo_binary32] at hclamp
  rw [rateOfWord, hsr] at hfin ⊢
  rcases hclamp.isPower_mul hr with hinf | ⟨v, hv, hprod⟩
  · exact .inr hinf
  · rw [hprod] at hfin ⊢
    rcases Nat.eq_zero_or_pos v with rfl | hpos
    · rw [oneF_eq] at hfin
      cases hfin
    · exact .inl (zero_lt_reciprocal hpos hv)

/-! ### The monotone stages (R122) -/

section AnyFormat

variable {α : Type} {N : Num α} {c : Consts α} {p : Params α} {Level Rate : α → Prop} {e : Env α}

/-- What the order of a number format must give on the ranges of the envelope's registers. -/
structure EnvOrder (N : Num α) (Level Rate : α → Prop) : Prop where
  refl : ∀ a, Level a → N.le a a = true
  zero_le : ∀ a, Level a → N.le N.zero a = true
  le_one : ∀ a, Level a → N.le a N.one = true
  le_add : ∀ a b, Level a → Rate b → N.le a (N.add a b) = true
  sub_le : ∀ a b, Level a → Rate b → N.le (N.sub a b) a = true

theorem EnvOrder.attack_rises (order : EnvOrder N Level Rate) (h : EnvSound N Level Rate e) (hst : e.stage = .attack) :
    N.le e.ev (envTick N c p e).ev = true := by
  rw [envTick_attack N c p hst]
  split_ifs
  · exact order.le_one _ h.ev
  · exact order.le_add _ _ h.ev h.er

theorem EnvOrder.release_falls (order : EnvOrder N Level Rate) (h : EnvSound N Level Rate e)
    (hst : e.stage = .release) : N.le (envTick N c p e).ev e.ev = true := by
  rw [envTick_release N c p hst]
  split_ifs
  · exact order.zero_le _ h.ev
  · exact order.sub_le _ _ h.ev h.er

/-- R117's upward jump is the exception, excluded by the hypothesis. -/
theorem EnvOrder.decay_falls (order : EnvOrder N Level Rate) (h : EnvSound N Level Rate e) (hst : e.stage = .decay)
    (hsustain : N.le (sustainLevel N p) e.ev = true) : N.le (envTick N c p e).ev e.ev = true := by
  rw [envTick_decay N c p hst]
  split_ifs
  · exact hsustain
  · exact order.sub_le _ _ h.ev h.er

end AnyFormat

/-- The place of a finite value that a register can hold is its own rounding. -/
theorem roundFrac_held {s : Bool} {u : Nat} (h : (F.fin s u).Held) :
    roundFrac (signedUnits s u) 1 = signedUnits s u := by
  obtain ⟨s', u', heq, hrep, hlt⟩ := ord_held h rfl
  cases heq
  have := roundFrac_of_representable (z := signedUnits s u) one_pos (by simpa using hrep) (by simpa using hlt.le)
  simpa using this

theorem envOrder_binary32 (x : Exp2Choice) : EnvOrder (Num.binary32 x) IsLevel32 IsRate32 where
  refl a ha := by
    obtain ⟨s, u, rfl, -⟩ := ha.exists_fin
    exact le_refl_of_ord (ord_fin s u)
  zero_le a ha := (Bool.and_eq_true_iff.1 ha.within).1
  le_one a ha := (Bool.and_eq_true_iff.1 ha.within).2
  le_add a b ha hb := by
    obtain ⟨s, u, rfl, -⟩ := ha.exists_fin
    obtain ⟨t, v, rfl, hv⟩ := hb.exists_fin
    rw [binary32_le, binary32_add, le_of_ord (ord_fin s u) ord_add, decide_eq_true_eq]
    exact (roundFrac_held ha.held).symm.le.trans (roundFrac_one_mono (by omega))
  sub_le a b ha hb := by
    obtain ⟨s, u, rfl, -⟩ := ha.exists_fin
    obtain ⟨t, v, rfl, hv⟩ := hb.exists_fin
    rw [binary32_le, binary32_sub, le_of_ord ord_sub (ord_fin s u), decide_eq_true_eq]
    exact (roundFrac_one_mono (by omega)).trans (roundFrac_held ha.held).le

theorem envOrder_exact : EnvOrder exactNum IsLevelExact IsRateExact where
  refl _ _ := decide_eq_true le_rfl
  zero_le _ ha := decide_eq_true ha.1
  le_one _ ha := decide_eq_true ha.2
  le_add _ _ _ hb := decide_eq_true (le_add_of_nonneg_right hb)
  sub_le _ _ _ hb := decide_eq_true (sub_le_self _ hb)

theorem not_isNan_of_le {a b : F} (h : F.le a b = true) : a.isNan = false ∧ b.isNan = false := by
  obtain ⟨_, _, ha, hb, -⟩ := le_iff.1 h
  exact ⟨isNan_of_ord ha, isNan_of_ord hb⟩

/-- `EV` after a tick in binary32 has a word, whatever the registers hold. -/
theorem storable_envTick_ev (s : State) :
    (envTick s.f32Num s.consts s.paramValues s.envValues).ev.Storable := by
  cases hst : s.envValues.stage with
  | attack => rw [envTick_attack _ _ _ hst]; split_ifs; exacts [.inr isLevel32_one.held, storable_add _ _]
  | decay => rw [envTick_decay _ _ _ hst]; split_ifs; exacts [storable_sustain s, storable_sub _ _]
  | sustain => rw [envTick_sustain _ _ _ hst]; exact storable_f32OfBits _
  | release => rw [envTick_release _ _ _ hst]; split_ifs; exacts [.inr isLevel32_zero.held, storable_sub _ _]
  | idle => rw [envTick_idle _ _ _ hst]; exact storable_f32OfBits _

/-- `EV` after a tick is what the stage rule gives, unless that is a NaN. -/
theorem f32OfBits_tick_ev {s : State} (hnum : s.cfg.num = .binary32)
    (hn : (envTick s.f32Num s.consts s.paramValues s.envValues).ev.isNan = false) :
    f32OfBits s.tick.env.ev = (envTick s.f32Num s.consts s.paramValues s.envValues).ev := by
  rw [tick_env_of_envTick hnum rfl]
  exact f32OfBits_bitsOfF32 ((storable_envTick_ev s).held hn) _

/-- Settles O21: both formats' orders do what the stages need. -/
theorem envelopeIsMonotone : Obligations.EnvelopeIsMonotone := by
  unfold Obligations.EnvelopeIsMonotone
  intro s hs
  constructor
  · intro hnum
    have hsound := (envInvariant_binary32 hnum).1 hs
    have order := envOrder_binary32 s.cfg.exp2
    refine ⟨fun hst => ?attack, fun hst => ?release, fun hst hsustain => ?decay⟩
    case attack =>
      have hle := order.attack_rises (c := s.consts) (p := s.paramValues) hsound hst
      rw [f32OfBits_tick_ev hnum (not_isNan_of_le hle).2]
      exact hle
    case release =>
      have hle := order.release_falls (c := s.consts) (p := s.paramValues) hsound hst
      rw [f32OfBits_tick_ev hnum (not_isNan_of_le hle).1]
      exact hle
    case decay =>
      have hle := order.decay_falls (c := s.consts) (p := s.paramValues) hsound hst hsustain
      rw [f32OfBits_tick_ev hnum (not_isNan_of_le hle).1]
      exact hle
  · intro hnum
    have hsound := (envInvariant_exact hnum).1 hs
    have hev : s.tick.real.ev = (envTick exactNum s.exactConsts s.exactParams s.exactEnv).ev :=
      congrArg Env.ev (tick_exactEnv hnum)
    rw [hev]
    refine ⟨fun hst => of_decide_eq_true (envOrder_exact.attack_rises hsound hst),
      fun hst => of_decide_eq_true (envOrder_exact.release_falls hsound hst), fun hst hsustain => ?_⟩
    refine of_decide_eq_true (envOrder_exact.decay_falls hsound hst (decide_eq_true ?_))
    rwa [exactNum, sustainLevel_exact]

/-! ### The lengths of the stages in exact arithmetic (R123) -/

/-- A stage that goes down from `v` by `1 / N` a tick until it is at `l` or below: its `k`-th tick, before the end and
at the end. -/
theorem iterate_descent {f : Env ℚ → Env ℚ} {going : ℚ → Env ℚ} {done : Env ℚ} {N v l : ℚ} (hN : 0 < N)
    (hgoes : ∀ u, l < u - 1 / N → f (going u) = going (u - 1 / N))
    (hends : ∀ u, u - 1 / N ≤ l → f (going u) = done) (k : Nat) :
    (k < max 1 ⌈(v - l) * N⌉₊ → f^[k] (going v) = going (v - k / N)) ∧
      (k = max 1 ⌈(v - l) * N⌉₊ → f^[k] (going v) = done) := by
  have habove : ∀ j : Nat, l < v - (j + 1 : ℕ) / N ↔ j + 1 < ⌈(v - l) * N⌉₊ := fun j => by
    rw [Nat.lt_ceil, lt_sub_comm, div_lt_iff₀ hN]
  have hstep : ∀ j : Nat, v - j / N - 1 / N = v - (j + 1 : ℕ) / N := fun j => by
    push_cast
    ring
  have hbefore : ∀ j : Nat, j < max 1 ⌈(v - l) * N⌉₊ → f^[j] (going v) = going (v - j / N) := by
    intro j
    induction j with
    | zero => simp
    | succ j ih =>
      intro hj
      rw [Function.iterate_succ_apply', ih (by omega), hgoes _ (by rw [hstep, habove]; omega), hstep]
  refine ⟨hbefore k, fun hk => ?_⟩
  obtain ⟨j, rfl⟩ : ∃ j, k = j + 1 := ⟨k - 1, by omega⟩
  rw [Function.iterate_succ_apply', hbefore j (by omega), hends]
  rw [hstep, ← not_lt, habove]
  omega

/-- Settles O24: each of the three stages is a descent to its threshold, the attack one of the distance from `1.0`. -/
theorem exactStageLengths : Obligations.ExactStageLengths := by
  unfold Obligations.ExactStageLengths
  intro x c p heps hrate
  have hpos : ∀ {N t : ℚ}, N = max c.tEps t * c.sampleRate → 0 < N := fun hN =>
    hN ▸ mul_pos (lt_max_of_lt_left heps) hrate
  refine ⟨?attack, ?decay, ?release⟩
  case attack =>
    intro N k hN
    have hstart : envTrigger (Num.exact x) c p = ⟨.attack, 1 - 1, 1, 1 / N⟩ := by
      rw [envTrigger, rateOf_exact x heps hrate, ← hN, sub_self]
      rfl
    have hdescent := iterate_descent (f := envTick (Num.exact x) c p) (going := fun u => ⟨.attack, 1 - u, 1, 1 / N⟩)
      (done := ⟨.decay, 1, max 0 (min 1 p.sustain), rateOf (Num.exact x) c p.decay⟩) (v := 1) (l := 0) (hpos hN)
      (fun u hu => by
        rw [envTick_exact_attack x p rfl, if_neg (by linarith)]
        congr 1
        ring)
      (fun u hu => by rw [envTick_exact_attack x p rfl, if_pos (by linarith)]) k
    have hceil : max 1 ⌈(1 - 0) * N⌉₊ = ⌈N⌉₊ := by
      rw [sub_zero, one_mul]
      exact max_eq_right (Nat.ceil_pos.2 (hpos hN))
    rw [hceil] at hdescent
    rw [hstart]
    refine ⟨fun hk => ?_, fun hk => ?_⟩
    · rw [hdescent.1 (Nat.lt_ceil.2 hk), sub_sub_cancel]
    · rw [hdescent.2 hk]
      exact ⟨rfl, rfl⟩
  case decay =>
    rintro N sl et k hN rfl
    exact iterate_descent (going := fun u => ⟨.decay, u, et, 1 / N⟩) (hpos hN)
      (fun u hu => by rw [envTick_exact_decay x p rfl, if_neg (not_le.2 hu)])
      (fun u hu => by rw [envTick_exact_decay x p rfl, if_pos hu]) k
  case release =>
    intro N v et k hN _
    have hdescent := iterate_descent (f := envTick (Num.exact x) c p) (v := v) (l := 0) (hpos hN)
      (going := fun u => ⟨.release, u, et, 1 / N⟩) (done := ⟨.idle, 0, et, 1 / N⟩)
      (fun u hu => by rw [envTick_exact_release x p rfl, if_neg (not_le.2 hu)])
      (fun u hu => by rw [envTick_exact_release x p rfl, if_pos hu]) k
    rwa [sub_zero] at hdescent

end Sys2Proof.Machine

/-! Ranges in binary32 (00_scope.md R13, R19): rounding keeps a result between values that words encode, and a clamp
lands between its bounds. -/

namespace Sys2Proof.Machine

/-! ### Values between two rationals -/

/-- `v` is finite, and its rational lies between `p` and `q`. -/
structure F.InRange (v : F) (p q : ℚ) : Prop where
  finite : v.isFinite = true
  lower : p ≤ v.toRat
  upper : v.toRat ≤ q

/-- A correctly rounded result lies between two values that words encode if the exact one does. -/
theorem inRange_of_roundsTo {a b r : F} {z p q : ℚ} (ha : HoldsRat a p) (hb : HoldsRat b q) (hpz : p ≤ z)
    (hzq : z ≤ q) (h : roundsTo z r) : r.InRange p q := by
  obtain ⟨⟨v, rfl⟩, hv, rfl⟩ := ha
  obtain ⟨⟨w, rfl⟩, hw, rfl⟩ := hb
  have hsmall : |z| < 2 ^ 128 - 2 ^ 103 :=
    abs_lt.2 ⟨(abs_lt.1 (abs_toRat_lt hv)).1.trans_le hpz, hzq.trans_lt (abs_lt.1 (abs_toRat_lt hw)).2⟩
  rw [roundsTo, if_neg (not_le.2 hsmall)] at h
  obtain ⟨-, hfin, hnear⟩ := h
  refine ⟨hfin, ?lower, ?upper⟩
  case lower =>
    have hle := (hnear v hv).1
    rw [abs_sub_comm _ z, abs_sub_comm _ z, abs_of_nonneg (sub_nonneg.2 hpz)] at hle
    linarith [le_abs_self (z - r.toRat)]
  case upper =>
    have hle := (hnear w hw).1
    rw [abs_of_nonneg (sub_nonneg.2 hzq)] at hle
    linarith [le_abs_self (r.toRat - z)]

section Operations

variable {x y a b : F} {p q : ℚ} (hx : x.isFinite = true) (hy : y.isFinite = true) (ha : HoldsRat a p)
  (hb : HoldsRat b q)

include hx hy ha hb

theorem inRange_add (hp : p ≤ x.toRat + y.toRat) (hq : x.toRat + y.toRat ≤ q) : (F.add x y).InRange p q := by
  obtain ⟨s, u, rfl⟩ := exists_of_isFinite hx
  obtain ⟨t, v, rfl⟩ := exists_of_isFinite hy
  exact inRange_of_roundsTo ha hb hp hq (roundsTo_add s t u v)

theorem inRange_mul (hp : p ≤ x.toRat * y.toRat) (hq : x.toRat * y.toRat ≤ q) : (F.mul x y).InRange p q := by
  obtain ⟨s, u, rfl⟩ := exists_of_isFinite hx
  obtain ⟨t, v, rfl⟩ := exists_of_isFinite hy
  exact inRange_of_roundsTo ha hb hp hq (roundsTo_mul s t u v)

end Operations

/-- The product of values that are not negative lies between zero and the product of their bounds. -/
theorem F.InRange.mul {x y b : F} {p q r : ℚ} (hx : x.InRange 0 p) (hy : y.InRange 0 q) (hb : HoldsRat b r)
    (hpq : p * q ≤ r) : (F.mul x y).InRange 0 r :=
  inRange_mul hx.finite hy.finite holdsRat_zeroF hb (mul_nonneg hx.lower hy.lower)
    ((mul_le_mul hx.upper hy.upper hy.lower (hx.lower.trans hx.upper)).trans hpq)

/-- A value between two that words encode is finite. -/
theorem inRange_of_le {x lo hi : F} {p q : ℚ} (hlo : HoldsRat lo p) (hhi : HoldsRat hi q) (h1 : F.le lo x = true)
    (h2 : F.le x hi = true) : x.InRange p q := by
  obtain ⟨⟨v, rfl⟩, hv, rfl⟩ := hlo
  obtain ⟨⟨w, rfl⟩, hw, rfl⟩ := hhi
  have hfin : x.isFinite = true := by
    obtain ⟨s, a, hva, -, ha⟩ := ord_held (held_f32OfBits v) hv
    obtain ⟨t, b, hwb, -, hb⟩ := ord_held (held_f32OfBits w) hw
    obtain ⟨y, z, hy, hz, hyz⟩ := le_iff.1 h1
    obtain ⟨z', y', hz', hy', hzy'⟩ := le_iff.1 h2
    rw [hva, ord_fin, Option.some.injEq] at hy
    rw [hwb, ord_fin, Option.some.injEq] at hy'
    have hs := signedUnits_natAbs s a
    have ht := signedUnits_natAbs t b
    cases x with
    | nan => cases hz
    | fin => rfl
    | inf neg => cases neg <;> simp only [ord_inf_pos, ord_inf_neg, Option.some.injEq] at hz hz' <;> omega
  exact ⟨hfin, (le_iff_toRat hv hfin).1 h1, (le_iff_toRat hfin hw).1 h2⟩

theorem inRange_of_within {x : F} (h : F.within zeroF x oneF = true) : x.InRange 0 1 := by
  obtain ⟨h1, h2⟩ := Bool.and_eq_true_iff.1 h
  exact inRange_of_le holdsRat_zeroF holdsRat_oneF h1 h2

theorem F.InRange.within {x lo hi : F} {p q : ℚ} (h : x.InRange p q) (hlo : HoldsRat lo p) (hhi : HoldsRat hi q) :
    F.within lo x hi = true := by
  refine Bool.and_eq_true_iff.2 ⟨(le_iff_toRat hlo.finite h.finite).2 ?_, (le_iff_toRat h.finite hhi.finite).2 ?_⟩
  · exact hlo.value.trans_le h.lower
  · exact h.upper.trans_eq hhi.value.symm

/-! ### The clamps (R19) -/

section Clamp

variable {x lo hi : F} {p q : ℚ}

theorem inRange_clampF (x : F) (hlo : HoldsRat lo p) (hhi : HoldsRat hi q) (h : p ≤ q) :
    (clampF x lo hi).InRange p q := by
  unfold clampF
  split_ifs with h1 h2
  · exact inRange_of_le hlo hhi h1 h2
  · exact ⟨hhi.finite, h.trans_eq hhi.value.symm, hhi.value.le⟩
  · exact ⟨hlo.finite, hlo.value.ge, hlo.value.trans_le h⟩

/-- A clamped value is its own clamp. -/
theorem clampF_clampF (x : F) (hlo : HoldsRat lo p) (hhi : HoldsRat hi q) (h : p ≤ q) :
    clampF (clampF x lo hi) lo hi = clampF x lo hi := by
  obtain ⟨h1, h2⟩ := Bool.and_eq_true_iff.1 ((inRange_clampF x hlo hhi h).within hlo hhi)
  exact clamp_of_within .nearest h1 h2

/-- The test of R143 does not depend on the clamp of its operand. -/
theorem lt_zeroF_clampF (x : F) : F.lt zeroF (clampF x zeroF oneF) = F.lt zeroF x := by
  cases hx : x.ord with
  | none =>
    have hnan := ord_eq_none_iff.1 hx
    rw [← clampF_eq .nearest, clamp_nan .nearest zeroF oneF hnan, not_lt_of_isNan (.inr hnan)]
    decide +kernel
  | some y =>
    simp only [clampF, le_of_ord ord_zeroF hx, le_of_ord hx ord_oneF, decide_eq_true_eq]
    split_ifs with h0 h1
    · rfl
    · rw [lt_of_ord ord_zeroF ord_oneF, lt_of_ord ord_zeroF hx, decide_eq_decide]
      omega
    · rw [lt_of_ord ord_zeroF ord_zeroF, lt_of_ord ord_zeroF hx, decide_eq_decide]
      omega

/-- What is not below the upper bound is clamped to it. -/
theorem clampF_of_oneF_le (h : F.le oneF x = true) : clampF x zeroF oneF = oneF := by
  obtain ⟨z, y, hz, hy, hzy⟩ := le_iff.1 h
  rw [ord_oneF, Option.some.injEq] at hz
  unfold clampF
  rw [le_of_ord ord_zeroF hy, if_pos (by rw [decide_eq_true_eq]; omega)]
  split_ifs with h2
  · obtain ⟨s, u, rfl⟩ := exists_of_isFinite (inRange_of_le holdsRat_oneF holdsRat_oneF h h2).finite
    rw [le_of_ord (ord_fin s u) ord_oneF, decide_eq_true_eq] at h2
    rw [ord_fin, Option.some.injEq] at hy
    rw [oneF_eq]
    cases s <;> simp only [signedUnits, if_true, Bool.false_eq_true, if_false] at hy h2
    · congr 1; omega
    · omega
  · rfl

end Clamp

/-! ### Whole numbers and literals (R15) -/

/-- A quotient rounds the exact one on the rationals held. -/
theorem HoldsRat.div_roundsTo {a b : F} {p q : ℚ} (ha : HoldsRat a p) (hb : HoldsRat b q) (hq : q ≠ 0) :
    roundsTo (p / q) (F.div a b) := by
  obtain ⟨⟨v, rfl⟩, hv, rfl⟩ := ha
  obtain ⟨⟨w, rfl⟩, hw, rfl⟩ := hb
  obtain ⟨-, -, -, hdiv⟩ := Machine.operations_roundTo hv hw
  exact hdiv hq

theorem holdsRat_ofInt {n : Int} (h : n.natAbs ≤ 2 ^ 24) : HoldsRat (F.ofInt n) n :=
  ⟨held_roundUnits one_pos, by rw [ofInt_eq h]; rfl, toRat_ofInt h⟩

/-- A word's value holds the rational that evaluation gives. -/
theorem holdsRat_f32OfBits {w : Word} {q : ℚ} (h : (f32OfBits w).isFinite = true ∧ (f32OfBits w).toRat = q) :
    HoldsRat (f32OfBits w) q := ⟨held_f32OfBits w, h.1, h.2⟩

theorem holdsRat_negOne : HoldsRat (f32OfBits 0xBF800000) (-1) := holdsRat_f32OfBits (by decide +kernel)
theorem holdsRat_half : HoldsRat (f32OfBits 0x3F000000) (1 / 2) := holdsRat_f32OfBits (by decide +kernel)
theorem holdsRat_twelve : HoldsRat (f32OfBits 0x41400000) 12 := holdsRat_f32OfBits (by decide +kernel)

end Sys2Proof.Machine

/-! The cutoff compositor's steps (42_cutoff_compositor.md R141 to R146), one equation for each in either format. -/

namespace Sys2Proof.Machine

/-! ### The note (R143) -/

/-- `clamp_i` (R19). -/
theorem clampI_eq {lo hi : Int} (n : Int) (h : lo ≤ hi) : clampI n lo hi = max lo (min hi n) := by
  unfold clampI
  split_ifs <;> omega

theorem toInt_ofInt_of_note {n : Int} (h0 : 0 ≤ n) (h1 : n ≤ 127) : (BitVec.ofInt 32 n).toInt = n :=
  BitVec.toInt_ofInt_eq_self (by norm_num) (by omega) (by omega)

/-- `NOTE` as the rule reads it. -/
def clampedNote (note : Word) : Int := max 0 (min 127 note.toInt)

theorem clampedNote_range (note : Word) : 0 ≤ clampedNote note ∧ clampedNote note ≤ 127 := by
  unfold clampedNote
  omega

theorem clampedNote_ofInt {n : Int} (h0 : 0 ≤ n) (h1 : n ≤ 127) : clampedNote (BitVec.ofInt 32 n) = n := by
  rw [clampedNote, toInt_ofInt_of_note h0 h1, min_eq_right h1, max_eq_right h0]

theorem noteOffset_eq {α : Type} (N : Num α) (note : Word) :
    noteOffset N note = N.div (N.ofInt (clampedNote note - 60)) N.twelve := by
  rw [noteOffset, clampI_eq _ (by norm_num)]
  rfl

/-- The note acts as its clamp (R149). -/
theorem noteOffset_clamped {α : Type} (N : Num α) (note : Word) :
    noteOffset N (BitVec.ofInt 32 (clampedNote note)) = noteOffset N note := by
  obtain ⟨h0, h1⟩ := clampedNote_range note
  rw [noteOffset_eq, noteOffset_eq, clampedNote_ofInt h0 h1]

/-! ### In binary32 -/

section Binary32

variable (c : Exp2Choice) (p : Params F) (e : Env F)

/-- The exponent of R143, from the offset of the note. -/
def keyExponent (off keytrack : F) : F := F.mul off (clampF keytrack zeroF oneF)

/-- The envelope factor of R144. -/
def contourFactor (ev contour : F) : F := F.add oneF (F.mul ev (clampF contour (f32OfBits 0xBF800000) oneF))

/-- The modulation factor of R145. -/
def modFactor (modvalue : F) : F :=
  F.add oneF (F.mul (clampF modvalue (f32OfBits 0xBF800000) oneF) (f32OfBits 0x3F000000))

theorem composeKey_binary32 (e0 : F) : composeKey (Num.binary32 c) p e0 =
    if F.lt zeroF p.keytrack then
      F.mul e0 (exp2Value c (keyExponent (noteOffset (Num.binary32 c) p.note) p.keytrack))
    else e0 := by
  rw [← lt_zeroF_clampF]
  rfl

theorem composeContour_binary32 (e1 : F) : composeContour (Num.binary32 c) p e e1 =
    if e.stage = .idle then e1 else F.mul e1 (contourFactor e.ev p.contour) := rfl

theorem composeMod_binary32 (e2 : F) : composeMod (Num.binary32 c) p e2 = F.mul e2 (modFactor p.modvalue) := rfl

theorem compose_binary32 : compose (Num.binary32 c) p e =
    clampF (composeMod (Num.binary32 c) p (composeContour (Num.binary32 c) p e
      (composeKey (Num.binary32 c) p p.cutoff))) (f32OfBits 0x3A83126F) (f32OfBits 0x3F7FBE77) := rfl

/-- Without key tracking and in Idle only the modulation is left. -/
theorem compose_untracked_idle (hkey : F.lt zeroF p.keytrack = false) (hst : e.stage = .idle) :
    compose (Num.binary32 c) p e =
      clampF (F.mul p.cutoff (modFactor p.modvalue)) (f32OfBits 0x3A83126F) (f32OfBits 0x3F7FBE77) := by
  rw [compose_binary32, composeMod_binary32, composeContour_binary32, if_pos hst, composeKey_binary32,
    if_neg (by simp [hkey])]

end Binary32

/-! ### In exact arithmetic -/

section Exact

variable (c : Exp2Choice) (p : Params ℚ) (e : Env ℚ)

/-- The exponent of R143. -/
def exactKeyExponent (note : Word) (keytrack : ℚ) : ℚ :=
  ((clampedNote note - 60 : Int) : ℚ) / 12 * max 0 (min 1 keytrack)

/-- The envelope factor of R144. -/
def exactContourFactor (ev contour : ℚ) : ℚ := 1 + ev * max (-1) (min 1 contour)

/-- The modulation factor of R145. -/
def exactModFactor (modvalue : ℚ) : ℚ := 1 + max (-1) (min 1 modvalue) * (1 / 2)

theorem mul_noteOffset_power (note : Word) (keytrack : ℚ) :
    (Num.power c).mul (noteOffset (Num.power c) note)
      (clamp (Num.power c) (.ofRat keytrack) (Num.power c).zero (Num.power c).one) =
        .ofRat (exactKeyExponent note keytrack) := by
  rw [noteOffset_eq, power_mul, power_div, power_ofInt, power_twelve, power_zero, power_one,
    ofRat_div _ (by norm_num), clamp_ofRat c keytrack zero_le_one, ofRat_mul]
  rfl

theorem composeKey_power (e0 : PowerSum) : composeKey (Num.power c) (mapParams .ofRat p) e0 =
    if 0 < p.keytrack then e0.mul (exp2Power c (exactKeyExponent p.note p.keytrack)) else e0 := by
  have htest : ((Num.power c).lt (Num.power c).zero
      (clamp (Num.power c) (.ofRat p.keytrack) (Num.power c).zero (Num.power c).one)) = decide (0 < p.keytrack) := by
    rw [power_zero, power_one, clamp_ofRat c p.keytrack zero_le_one, power_lt, ofRat_le, Bool.eq_iff_iff]
    simp
  have hexp := mul_noteOffset_power c p.note p.keytrack
  simp only [composeKey, mapParams, htest, hexp, power_exp2, exp2_ofRat, power_mul, decide_eq_true_eq]

theorem composeContour_power (e1 : PowerSum) :
    composeContour (Num.power c) (mapParams .ofRat p) (mapEnv .ofRat e) e1 =
      if e.stage = .idle then e1 else e1.mul (.ofRat (exactContourFactor e.ev p.contour)) := by
  simp only [composeContour, mapParams, mapEnv, power_negOne, power_one, power_mul, power_add,
    clamp_ofRat c p.contour (show (-1 : ℚ) ≤ 1 by norm_num), ofRat_mul, ofRat_add]
  rfl

theorem composeMod_power (e2 : PowerSum) : composeMod (Num.power c) (mapParams .ofRat p) e2 =
    e2.mul (.ofRat (exactModFactor p.modvalue)) := by
  simp only [composeMod, mapParams, power_negOne, power_one, power_mul, power_add, power_half,
    clamp_ofRat c p.modvalue (show (-1 : ℚ) ≤ 1 by norm_num), ofRat_mul, ofRat_add]
  rfl

end Exact

end Sys2Proof.Machine

/-! The cutoff compositor's results (42_cutoff_compositor.md R147 to R152): the range of the effective cutoff, the
identity cases, key tracking by whole octaves, the operands' clamps, and the ranges of the factors. -/

namespace Sys2Proof.Machine

/-! ### In binary32 (R147, R149, R152) -/

/-- Settles O25: the last step is a clamp to two values that words encode. -/
theorem effectiveCutoffInRange : Obligations.EffectiveCutoffInRange := by
  unfold Obligations.EffectiveCutoffInRange
  intro s
  have hlow := holdsRat_of_isFinite (w := 0x3A83126F) (by decide +kernel)
  have hhigh := holdsRat_of_isFinite (w := 0x3F7FBE77) (by decide +kernel)
  have hle : F.le (f32OfBits 0x3A83126F) (f32OfBits 0x3F7FBE77) = true := by decide +kernel
  have hrange x := inRange_clampF x hlow hhigh ((le_iff_toRat hlow.finite hhigh.finite).1 hle)
  rw [State.f32Num, compose_binary32]
  exact ⟨(hrange _).within hlow hhigh, (hrange _).finite⟩

/-- At note 60 the offset is `+0.0`, and so is its product with a clamp that is above zero. -/
theorem keyExponent_note60 (c : Exp2Choice) {keytrack : F} (h : F.lt zeroF keytrack = true) :
    keyExponent (noteOffset (Num.binary32 c) 60) keytrack = zeroF := by
  have hoff : noteOffset (Num.binary32 c) 60 = zeroF := by
    rw [noteOffset_eq, binary32_div, binary32_ofInt, binary32_twelve]
    decide +kernel
  have hpos : (clampF keytrack zeroF oneF).isPositive = true := by
    rw [F.isPositive, (inRange_clampF keytrack holdsRat_zeroF holdsRat_oneF zero_le_one).finite, ← zeroF_eq,
      lt_zeroF_clampF, h]
    rfl
  obtain ⟨u, -, hu⟩ := isPositive_iff.1 hpos
  rw [keyExponent, hoff, hu, zeroF_eq, F.mul, Nat.zero_mul, roundUnits_zero]
  rfl

/-- Settles O28: what is left of the compositor is evaluated, and at note 60 EXP2_ZERO applies. -/
theorem compositorIdentities : Obligations.CompositorIdentities := by
  unfold Obligations.CompositorIdentities
  refine fun s => ⟨fun hcut hkey hst => ?cutoff, fun hnote hkey => ⟨?exponent, ?factor⟩⟩
  case cutoff =>
    have hcut' : s.paramValues.cutoff = f32OfBits 0x3F000000 := congrArg f32OfBits hcut
    rw [State.f32Num, compose_untracked_idle _ _ _ hkey hst, hcut']
    refine ⟨fun hmod => ?_, fun hmod => ?_⟩
    · rw [show s.paramValues.modvalue = f32OfBits 0x00000000 from congrArg f32OfBits hmod]
      decide +kernel
    · rw [show s.paramValues.modvalue = f32OfBits 0x3F800000 from congrArg f32OfBits hmod]
      decide +kernel
  case exponent =>
    rw [hnote]
    exact keyExponent_note60 s.cfg.exp2 hkey
  case factor =>
    obtain ⟨hzero, -⟩ := exp2NamedProperties s.cfg.exp2
    rw [zeroF_eq]
    exact hzero false

/-- A note `j` octaves from note 60 has the offset `j` (R143). -/
theorem noteOffset_octaves (c : Exp2Choice) {j : Int} (h1 : -5 ≤ j) (h2 : j ≤ 5) :
    HoldsRat (noteOffset (Num.binary32 c) (BitVec.ofInt 32 (60 + 12 * j))) j := by
  have hexact : ((60 + 12 * j - 60 : Int) : ℚ) / 12 = j := by push_cast; ring
  have hround := (holdsRat_ofInt (n := 60 + 12 * j - 60) (by omega)).div_roundsTo holdsRat_twelve (by norm_num)
  rw [noteOffset_eq, clampedNote_ofInt (by omega) (by omega), binary32_div, binary32_ofInt, binary32_twelve]
  exact (holdsRat_ofInt (by omega)).of_roundsTo (hexact ▸ hround)

/-- Settles O29: the offset is the whole number `j`, and so is its product with `1.0`; there EXP2_INT fixes the
factor. -/
theorem keyTrackingByOctaves : Obligations.KeyTrackingByOctaves := by
  unfold Obligations.KeyTrackingByOctaves
  refine ⟨fun s j e0 h1 h2 hnote hkey => ?_, fun n hn => ofInt_eq hn⟩
  have hnote' : s.paramValues.note = BitVec.ofInt 32 (60 + 12 * j) := hnote
  have hkt : clampF s.paramValues.keytrack zeroF oneF = oneF := clampF_of_oneF_le hkey
  have hon : F.lt zeroF s.paramValues.keytrack = true := by
    rw [← lt_zeroF_clampF, hkt]
    decide +kernel
  have hexp := (noteOffset_octaves s.cfg.exp2 h1 h2).mul_one holdsRat_oneF
  rw [State.f32Num, composeKey_binary32, if_pos hon, keyExponent, hkt, hnote',
    exp2Value_of_toRat_eq_int _ (by omega) (by omega) hexp.finite hexp.value, add_comm j 149]

/-- The compositor reads `KEYTRACK`, `NOTE`, `CONTOUR` and `MODVALUE` only through clamps, and clamps are idempotent
(R149). -/
theorem compose_clamped (c : Exp2Choice) (p : Params F) (e : Env F) :
    compose (Num.binary32 c)
      { p with
        keytrack := clampF p.keytrack zeroF oneF
        note := BitVec.ofInt 32 (clampedNote p.note)
        contour := clampF p.contour (f32OfBits 0xBF800000) oneF
        modvalue := clampF p.modvalue (f32OfBits 0xBF800000) oneF } e = compose (Num.binary32 c) p e := by
  have hkey := clampF_clampF p.keytrack holdsRat_zeroF holdsRat_oneF zero_le_one
  have hcontour := clampF_clampF p.contour holdsRat_negOne holdsRat_oneF (by norm_num)
  have hmod := clampF_clampF p.modvalue holdsRat_negOne holdsRat_oneF (by norm_num)
  simp only [compose_binary32, composeMod_binary32, composeContour_binary32, composeKey_binary32, keyExponent,
    contourFactor, modFactor, noteOffset_clamped, hkey, hcontour, hmod, lt_zeroF_clampF]

/-- Settles O30: the operands are those of `compose_clamped`, read from the registers. -/
theorem operandsActClamped : Obligations.OperandsActClamped := by
  unfold Obligations.OperandsActClamped
  exact fun s e => (compose_clamped s.cfg.exp2 s.paramValues e).symm

/-! ### Ranges in exact arithmetic (R147, R150, R163) -/

/-- What the clamp of the last step compares. -/
theorem comparable_unclamped (c : Exp2Choice) (p : Params ℚ) (e : Env ℚ) :
    Comparable (composeMod (Num.power c) (mapParams .ofRat p) (composeContour (Num.power c) (mapParams .ofRat p)
      (mapEnv .ofRat e) (composeKey (Num.power c) (mapParams .ofRat p) (.ofRat p.cutoff)))) := by
  have hkey : Comparable (composeKey (Num.power c) (mapParams .ofRat p) (.ofRat p.cutoff)) := by
    rw [composeKey_power]
    split_ifs
    · exact (comparable_ofRat _).mul (comparable_exp2Power c _)
    · exact comparable_ofRat _
  rw [composeMod_power, composeContour_power]
  refine Comparable.mul ?_ (comparable_ofRat _)
  split_ifs
  · exact hkey
  · exact hkey.mul (comparable_ofRat _)

theorem compose_power_range (c : Exp2Choice) (p : Params ℚ) (e : Env ℚ) :
    1 / 1000 ≤ (compose (Num.power c) (mapParams .ofRat p) (mapEnv .ofRat e)).toReal ∧
      (compose (Num.power c) (mapParams .ofRat p) (mapEnv .ofRat e)).toReal ≤ 999 / 1000 := by
  have hlow : (PowerSum.ofRat (1 / 1000)).toReal = 1 / 1000 := by norm_num
  have hhigh : (PowerSum.ofRat (999 / 1000)).toReal = 999 / 1000 := by norm_num
  have hclamp := clamp_power c (comparable_unclamped c p e) (comparable_ofRat (1 / 1000))
    (comparable_ofRat (999 / 1000)) (by rw [hlow, hhigh]; norm_num)
  rw [hlow, hhigh] at hclamp
  rw [compose, power_cutLow, power_cutHigh]
  exact hclamp.2 ▸ ⟨le_max_left _ _, max_le (by norm_num) (min_le_left _ _)⟩

/-- Settles O26: both operands are clamps. -/
theorem exactFilterOperandsInRange : Obligations.ExactFilterOperandsInRange := by
  unfold Obligations.ExactFilterOperandsInRange
  intro s
  obtain ⟨hlow, hhigh⟩ := compose_power_range s.cfg.exp2 s.exactParams s.exactEnv
  refine ⟨hlow, hhigh, fun hvalid => ?_⟩
  obtain ⟨-, -, -, -, -, hceil⟩ := (configValid_iff s.cfg).1 hvalid
  have hrange := inRange_of_within hceil
  have hmax : 0 ≤ realOfBits s.cfg.resMax := by
    rw [realOfBits_of_finite hrange.finite]
    exact hrange.lower
  have hres : resonanceOperand s.powerNum s.powerConsts s.powerParams =
      .ofRat (max 0 (min (realOfBits s.cfg.resMax) (realOfBits s.params.resonance))) := clamp_ofRat _ _ hmax
  rw [hres, toReal_ofRat]
  exact ⟨by exact_mod_cast le_max_left _ _, by exact_mod_cast max_le hmax (min_le_left _ _)⟩

/-- A factor between zero and one leaves a value within a range that holds zero. -/
theorem scaled_range {x y p q : ℚ} (hpx : p ≤ x) (hxq : x ≤ q) (hp : p ≤ 0) (hq : 0 ≤ q) (h0 : 0 ≤ y) (h1 : y ≤ 1) :
    p ≤ x * y ∧ x * y ≤ q := by
  constructor <;> nlinarith

theorem clamp_range {lo hi : ℚ} (x : ℚ) (h : lo ≤ hi) : lo ≤ max lo (min hi x) ∧ max lo (min hi x) ≤ hi :=
  ⟨le_max_left _ _, max_le h (min_le_left _ _)⟩

theorem offset_range (note : Word) :
    (-5 : ℚ) ≤ ((clampedNote note - 60 : Int) : ℚ) / 12 ∧ ((clampedNote note - 60 : Int) : ℚ) / 12 ≤ 67 / 12 := by
  obtain ⟨h0, h1⟩ := clampedNote_range note
  have h0' : (0 : ℚ) ≤ clampedNote note := by exact_mod_cast h0
  have h1' : (clampedNote note : ℚ) ≤ 127 := by exact_mod_cast h1
  push_cast
  constructor <;> linarith

theorem exactKeyExponent_range (note : Word) (keytrack : ℚ) :
    -5 ≤ exactKeyExponent note keytrack ∧ exactKeyExponent note keytrack ≤ 67 / 12 := by
  obtain ⟨hlo, hhi⟩ := offset_range note
  obtain ⟨h0, h1⟩ := clamp_range keytrack zero_le_one
  exact scaled_range hlo hhi (by norm_num) (by norm_num) h0 h1

theorem exactContourFactor_range {ev : ℚ} (contour : ℚ) (h0 : 0 ≤ ev) (h1 : ev ≤ 1) :
    0 ≤ exactContourFactor ev contour ∧ exactContourFactor ev contour ≤ 2 := by
  obtain ⟨hlo, hhi⟩ := clamp_range contour (show (-1 : ℚ) ≤ 1 by norm_num)
  obtain ⟨hl, hh⟩ := scaled_range hlo hhi (by norm_num) (by norm_num) h0 h1
  rw [exactContourFactor, mul_comm]
  constructor <;> linarith

theorem exactModFactor_range (modvalue : ℚ) :
    1 / 2 ≤ exactModFactor modvalue ∧ exactModFactor modvalue ≤ 3 / 2 := by
  obtain ⟨hlo, hhi⟩ := clamp_range modvalue (show (-1 : ℚ) ≤ 1 by norm_num)
  rw [exactModFactor]
  constructor <;> linarith

/-- The key-tracking factor's range: its ends are `2^-5` and a value above `2^(67/12)`. -/
theorem exp2Power_range {x : ℚ} (h0 : -5 ≤ x) (h1 : x ≤ 67 / 12) :
    1 / 32 ≤ (exp2Power .nearest x).toReal ∧ (exp2Power .nearest x).toReal ≤ 47.95 := by
  constructor
  · calc (1 / 32 : ℝ) = (exp2Power .nearest (-5 : Int)).toReal := by
          rw [exp2Power_int .nearest (by norm_num) (by norm_num)]; norm_num
      _ ≤ _ := exp2Power_mono .nearest (by exact_mod_cast h0)
  · have htop := (powerLe_iff (67 / 12) 1 0 (959 / 20)).1 (by decide +kernel)
    calc (exp2Power .nearest x).toReal ≤ (exp2Power .nearest (67 / 12)).toReal := exp2Power_mono .nearest h1
      _ = 1 * (2 : ℝ) ^ (((67 / 12 : ℚ)) : ℝ) := by rw [toReal_exp2Power_nearest, one_mul]
      _ ≤ 47.95 := by norm_num at htop ⊢; exact htop

/-- A product of values that are not negative lies between zero and the product of their bounds. -/
theorem mul_range {a b p q : ℝ} (ha : 0 ≤ a ∧ a ≤ p) (hb : 0 ≤ b ∧ b ≤ q) : 0 ≤ a * b ∧ a * b ≤ p * q :=
  ⟨mul_nonneg ha.1 hb.1, mul_le_mul ha.2 hb.2 hb.1 (ha.1.trans ha.2)⟩

theorem toReal_ofRat_range {q r : ℚ} (h : 0 ≤ q ∧ q ≤ r) :
    0 ≤ (PowerSum.ofRat q).toReal ∧ (PowerSum.ofRat q).toReal ≤ (r : ℝ) := by
  rw [toReal_ofRat]
  exact_mod_cast h

theorem composeKey_power_range (p : Params ℚ) (h : 0 ≤ p.cutoff ∧ p.cutoff ≤ 1) :
    0 ≤ (composeKey (Num.power .nearest) (mapParams .ofRat p) (.ofRat p.cutoff)).toReal ∧
      (composeKey (Num.power .nearest) (mapParams .ofRat p) (.ofRat p.cutoff)).toReal ≤ 47.95 := by
  have hcut := toReal_ofRat_range h
  rw [composeKey_power]
  split_ifs
  · obtain ⟨hlo, hhi⟩ := exactKeyExponent_range p.note p.keytrack
    have hmul := mul_range hcut ⟨exp2Power_nonneg _ _, (exp2Power_range hlo hhi).2⟩
    rw [toReal_mul]
    exact ⟨hmul.1, hmul.2.trans (by norm_num)⟩
  · exact ⟨hcut.1, hcut.2.trans (by norm_num)⟩

theorem composeContour_power_range (c : Exp2Choice) (p : Params ℚ) {e : Env ℚ} (hev : 0 ≤ e.ev ∧ e.ev ≤ 1)
    {e1 : PowerSum} {b : ℝ} (h : 0 ≤ e1.toReal ∧ e1.toReal ≤ b) :
    0 ≤ (composeContour (Num.power c) (mapParams .ofRat p) (mapEnv .ofRat e) e1).toReal ∧
      (composeContour (Num.power c) (mapParams .ofRat p) (mapEnv .ofRat e) e1).toReal ≤ b * 2 := by
  rw [composeContour_power]
  split_ifs
  · exact ⟨h.1, by linarith [h.1.trans h.2]⟩
  · rw [toReal_mul]
    exact mul_range h (by exact_mod_cast toReal_ofRat_range (exactContourFactor_range p.contour hev.1 hev.2))

theorem unclamped_power_range (p : Params ℚ) {e : Env ℚ} (hev : 0 ≤ e.ev ∧ e.ev ≤ 1)
    (hcut : 0 ≤ p.cutoff ∧ p.cutoff ≤ 1) {e3 : ℝ}
    (h : e3 = (composeMod (Num.power .nearest) (mapParams .ofRat p) (composeContour (Num.power .nearest)
      (mapParams .ofRat p) (mapEnv .ofRat e)
        (composeKey (Num.power .nearest) (mapParams .ofRat p) (.ofRat p.cutoff)))).toReal) :
    0 ≤ e3 ∧ e3 ≤ 143.9 := by
  have hcontour := composeContour_power_range .nearest p hev (composeKey_power_range p hcut)
  obtain ⟨hlo, hhi⟩ := exactModFactor_range p.modvalue
  have hmod := toReal_ofRat_range ⟨by linarith, hhi⟩
  have hprod := mul_range hcontour hmod
  rw [h, composeMod_power, toReal_mul]
  exact ⟨hprod.1, hprod.2.trans (by norm_num)⟩

/-! ### Ranges in binary32 (R150) -/

theorem holdsRat_two : HoldsRat (f32OfBits 0x40000000) 2 := holdsRat_f32OfBits (by decide +kernel)
theorem holdsRat_negHalf : HoldsRat (f32OfBits 0xBF000000) (-(1 / 2)) := holdsRat_f32OfBits (by decide +kernel)
theorem holdsRat_threeHalves : HoldsRat (f32OfBits 0x3FC00000) (3 / 2) := holdsRat_f32OfBits (by decide +kernel)
theorem holdsRat_negFive : HoldsRat (f32OfBits 0xC0A00000) (-5) := holdsRat_f32OfBits (by decide +kernel)

/-- The greatest exponent in binary32: `67 / 12` rounded. -/
theorem holdsRat_topExponent : HoldsRat (f32OfBits 0x40B2AAAB) (11709099 / 2 ^ 21) :=
  holdsRat_f32OfBits (by decide +kernel)

/-- The greatest key-tracking factor in binary32. -/
theorem holdsRat_topFactor : HoldsRat (f32OfBits 0x423FC888) (12568712 / 2 ^ 18) :=
  holdsRat_f32OfBits (by decide +kernel)

/-- Twice the greatest key-tracking factor. -/
theorem holdsRat_twiceTopFactor : HoldsRat (f32OfBits 0x42BFC888) (12568712 / 2 ^ 17) :=
  holdsRat_f32OfBits (by decide +kernel)

/-- A value between three times the greatest key-tracking factor and `143.9`. -/
theorem holdsRat_productCeiling : HoldsRat (f32OfBits 0x430FE000) 143.875 := holdsRat_f32OfBits (by decide +kernel)

theorem exp2Value_negFive : exp2Value .nearest (f32OfBits 0xC0A00000) = f32OfBits 0x3D000000 := by decide +kernel

theorem exp2Value_topExponent : exp2Value .nearest (f32OfBits 0x40B2AAAB) = f32OfBits 0x423FC888 := by
  decide +kernel

theorem noteOffset_inRange (c : Exp2Choice) (note : Word) :
    (noteOffset (Num.binary32 c) note).InRange (-5) (11709099 / 2 ^ 21) := by
  obtain ⟨h0, h1⟩ := clampedNote_range note
  obtain ⟨hlo, hhi⟩ := offset_range note
  have hnum := holdsRat_ofInt (n := clampedNote note - 60) (by omega)
  rw [noteOffset_eq, binary32_div, binary32_ofInt, binary32_twelve]
  exact inRange_of_roundsTo holdsRat_negFive holdsRat_topExponent hlo (hhi.trans (by norm_num))
    (hnum.div_roundsTo holdsRat_twelve (by norm_num))

theorem keyExponent_inRange (c : Exp2Choice) (note : Word) (keytrack : F) :
    (keyExponent (noteOffset (Num.binary32 c) note) keytrack).InRange (-5) (11709099 / 2 ^ 21) := by
  have hoff := noteOffset_inRange c note
  have hkt := inRange_clampF keytrack holdsRat_zeroF holdsRat_oneF zero_le_one
  obtain ⟨hlo, hhi⟩ := scaled_range hoff.lower hoff.upper (by norm_num) (by norm_num) hkt.lower hkt.upper
  exact inRange_mul hoff.finite hkt.finite holdsRat_negFive holdsRat_topExponent hlo hhi

/-- The default `EXP2` at an exponent of the range: it rises, and is known at the greatest exponent. -/
theorem exp2Value_inRange {x : F} {p : ℚ} (h : x.InRange p (11709099 / 2 ^ 21)) :
    (exp2Value .nearest x).InRange 0 (12568712 / 2 ^ 18) := by
  obtain ⟨u, hu, -⟩ := ord_eq_toRat h.finite
  have htop : F.le x (f32OfBits 0x40B2AAAB) = true :=
    (le_iff_toRat h.finite holdsRat_topExponent.finite).2 (h.upper.trans_eq holdsRat_topExponent.value.symm)
  have hupper := exp2Value_mono .nearest htop
  have hlower := (isPower_exp2Value .nearest hu).zero_le
  rw [exp2Value_topExponent] at hupper
  rw [← zeroF_eq] at hlower
  exact inRange_of_le holdsRat_zeroF holdsRat_topFactor hlower hupper

theorem contourFactor_inRange {ev : F} (contour : F) (h : ev.InRange 0 1) : (contourFactor ev contour).InRange 0 2 := by
  have hca := inRange_clampF contour holdsRat_negOne holdsRat_oneF (by norm_num)
  obtain ⟨hlo, hhi⟩ := scaled_range hca.lower hca.upper (by norm_num) (by norm_num) h.lower h.upper
  rw [mul_comm] at hlo hhi
  obtain ⟨hfin, hlo, hhi⟩ := inRange_mul h.finite hca.finite holdsRat_negOne holdsRat_oneF hlo hhi
  have hone := holdsRat_oneF.value
  exact inRange_add holdsRat_oneF.finite hfin holdsRat_zeroF holdsRat_two (by linarith) (by linarith)

theorem modFactor_inRange (modvalue : F) : (modFactor modvalue).InRange (1 / 2) (3 / 2) := by
  obtain ⟨hfin, hlo, hhi⟩ := inRange_clampF modvalue holdsRat_negOne holdsRat_oneF (by norm_num)
  have hhalf := holdsRat_half.value
  obtain ⟨hfin, hlo, hhi⟩ := inRange_mul hfin holdsRat_half.finite holdsRat_negHalf holdsRat_half
    (by rw [hhalf]; linarith) (by rw [hhalf]; linarith)
  have hone := holdsRat_oneF.value
  exact inRange_add holdsRat_oneF.finite hfin holdsRat_half holdsRat_threeHalves (by linarith) (by linarith)

theorem composeKey_inRange (p : Params F) {e0 : F} (h : e0.InRange 0 1) :
    (composeKey (Num.binary32 .nearest) p e0).InRange 0 (12568712 / 2 ^ 18) := by
  rw [composeKey_binary32]
  split_ifs
  · exact h.mul (exp2Value_inRange (keyExponent_inRange _ _ _)) holdsRat_topFactor (by norm_num)
  · exact ⟨h.finite, h.lower, h.upper.trans (by norm_num)⟩

theorem composeContour_inRange (c : Exp2Choice) (p : Params F) {e : Env F} {e1 : F} (hev : e.ev.InRange 0 1)
    (h : e1.InRange 0 (12568712 / 2 ^ 18)) :
    (composeContour (Num.binary32 c) p e e1).InRange 0 (12568712 / 2 ^ 17) := by
  rw [composeContour_binary32]
  split_ifs
  · exact ⟨h.finite, h.lower, h.upper.trans (by norm_num)⟩
  · exact h.mul (contourFactor_inRange p.contour hev) holdsRat_twiceTopFactor (by norm_num)

theorem composeMod_inRange (c : Exp2Choice) (p : Params F) {e2 : F} (h : e2.InRange 0 (12568712 / 2 ^ 17)) :
    (composeMod (Num.binary32 c) p e2).InRange 0 143.875 := by
  obtain ⟨hfin, hlo, hhi⟩ := modFactor_inRange p.modvalue
  rw [composeMod_binary32]
  exact h.mul ⟨hfin, by linarith, hhi⟩ holdsRat_productCeiling (by norm_num)

/-- Settles O27: each factor is a clamp scaled and shifted, or `EXP2` at an exponent of the range; in binary32 rounding
keeps each of them between values that words encode. -/
theorem compositorRanges : Obligations.CompositorRanges := by
  unfold Obligations.CompositorRanges
  refine ⟨fun s hexp2 => ?exact, exp2Value_negFive, exp2Value_topExponent, fun s hexp2 hev hcut e3 he3 => ?binary32⟩
  case exact =>
    have hnum : s.powerNum = Num.power .nearest := congrArg Num.power hexp2
    rw [hnum]
    refine ⟨?key, ?mod, fun hev0 hev1 => ⟨?contour, fun hcut0 hcut1 e3 he3 => ?product⟩⟩
    case key =>
      obtain ⟨hlo, hhi⟩ := exactKeyExponent_range s.params.note (realOfBits s.params.keytrack)
      refine ⟨_, hlo, hhi, mul_noteOffset_power .nearest _ _, ?_⟩
      rw [power_exp2, exp2_ofRat]
      exact ⟨toReal_exp2Power_nearest _, exp2Power_range hlo hhi⟩
    case mod =>
      obtain ⟨hlo, hhi⟩ := exactModFactor_range (realOfBits s.params.modvalue)
      exact ⟨_, hlo, hhi, composeMod_power .nearest s.exactParams⟩
    case contour =>
      obtain ⟨hlo, hhi⟩ := exactContourFactor_range (realOfBits s.params.contour) hev0 hev1
      exact ⟨_, hlo, hhi, fun hst e1 =>
        (composeContour_power .nearest s.exactParams s.exactEnv e1).trans (if_neg hst)⟩
    case product =>
      exact unclamped_power_range s.exactParams (e := s.exactEnv) ⟨hev0, hev1⟩ ⟨hcut0, hcut1⟩ he3
  case binary32 =>
    have hnum : s.f32Num = Num.binary32 .nearest := congrArg Num.binary32 hexp2
    have hkey := composeKey_inRange s.paramValues (e0 := s.paramValues.cutoff) (inRange_of_within hcut)
    have hcontour := composeContour_inRange .nearest s.paramValues (e := s.envValues) (inRange_of_within hev) hkey
    obtain ⟨hfin, hlo, hhi⟩ := composeMod_inRange .nearest s.paramValues hcontour
    rw [he3, hnum]
    exact ⟨hfin, hlo, hhi.trans (by norm_num)⟩

end Sys2Proof.Machine

/-! The sample step and the loop of `PROC` (43_frame_processor.md R160 to R163): the units that a sample step runs, in
either format, and what the loop makes of each output word. -/

namespace Sys2Proof.Machine

/-! ### The operands of the filter step (R161, R163) -/

/-- The filter step after a tick reads what the tick leaves alone, and the envelope it has left. -/
theorem tick_filterStep (s : State) (x : Word) :
    s.tick.filterStep x = ladderStep s.f32Num (f32OfBits x) (compose s.f32Num s.paramValues s.tick.envValues)
      (resonanceOperand s.f32Num s.consts s.paramValues) s.ladderValues := by
  simp only [State.filterStep, tick_f32Num, tick_paramValues, tick_consts, tick_ladderValues]

theorem tick_filterStepExact (s : State) (x : Word) :
    s.tick.filterStepExact x = ladderStep s.powerNum (.ofRat (realOfBits x))
      (compose s.powerNum s.powerParams s.tick.powerEnv) (resonanceOperand s.powerNum s.powerConsts s.powerParams)
      s.real.ladder := by
  simp only [State.filterStepExact, tick_powerNum, tick_powerParams, tick_powerConsts, tick_real_ladder]

/-- The ceiling of R11 holds a rational that is not negative. -/
theorem exists_holdsRat_resMax {c : Config} (hc : configValid c = true) :
    ∃ q, 0 ≤ q ∧ q ≤ 1 ∧ HoldsRat (f32OfBits c.resMax) q ∧ realOfBits c.resMax = q := by
  obtain ⟨-, -, -, -, -, hceil⟩ := (configValid_iff c).1 hc
  have hrange := inRange_of_within hceil
  exact ⟨_, hrange.lower, hrange.upper, holdsRat_of_isFinite hrange.finite, realOfBits_of_finite hrange.finite⟩

/-- The resonance operand in exact arithmetic. -/
theorem resonanceOperand_exact {s : State} (hc : configValid s.cfg = true) :
    resonanceOperand s.powerNum s.powerConsts s.powerParams =
      .ofRat (max 0 (min (realOfBits s.cfg.resMax) (realOfBits s.params.resonance))) := by
  obtain ⟨q, hq, -, -, hmax⟩ := exists_holdsRat_resMax hc
  have hceil : 0 ≤ s.exactConsts.resMax := hq.trans_eq hmax.symm
  exact clamp_ofRat _ _ hceil

/-- Settles O39: the operand is a clamp between two values that words encode. -/
theorem resonanceOperandInRange : Obligations.ResonanceOperandInRange := by
  unfold Obligations.ResonanceOperandInRange
  intro s hc
  obtain ⟨q, hq, -, hmax, -⟩ := exists_holdsRat_resMax hc
  have hrange := inRange_clampF s.paramValues.resonance holdsRat_zeroF hmax hq
  exact ⟨hrange.within holdsRat_zeroF hmax, hrange.finite, clamp_nan s.cfg.exp2 zeroF _⟩

/-! ### One sample step -/

theorem sampleStep_exactEnv (s : State) (n : Nat) : (s.sampleStep n).exactEnv = s.tick.exactEnv :=
  filterSample_exactEnv s.tick n

theorem sampleStep_sameControl (s : State) (n : Nat) : sameControl s (s.sampleStep n) :=
  ⟨sampleStep_cfg s n, sampleStep_fault s n, sampleStep_fcode s n, sampleStep_busy s n, sampleStep_rx s n,
    sampleStep_port s n, sampleStep_resetIn s n⟩

/-- The stage registers after a sample step in exact arithmetic: the filter step's results. -/
theorem sampleStep_real_ladder {s : State} (n : Nat) (hnum : s.cfg.num = .exact) :
    (s.sampleStep n).real.ladder = s.tick.filterStepExact (s.ibuf.read n) := by
  rw [sampleStep_real n hnum]

/-- The output word of a sample step in binary32 is the word of the new `S4` (R164). -/
theorem sampleStep_obuf_read {s : State} {n size : Nat} (hnum : s.cfg.num = .binary32)
    (hwf : Memory.wf size s.obuf = true) :
    (s.sampleStep n).obuf.read n = bitsOfF32 (s.nanSeq + 7) (s.tick.filterStep (s.ibuf.read n)).s4 := by
  rw [sampleStep_obuf n hnum, memory_read_write hwf]

/-- In exact arithmetic it is the new `S4` itself. -/
theorem sampleStep_real_obuf_read {s : State} {n size : Nat} (hnum : s.cfg.num = .exact)
    (hwf : Memory.wf size s.real.obuf = true) :
    (s.sampleStep n).real.obuf.read n = (s.sampleStep n).real.ladder.s4 := by
  rw [sampleStep_real n hnum]
  exact memory_read_write hwf

/-- Key tracking in binary32 with the operand written as the clamp it is (R143). -/
theorem composeKey_clamped (c : Exp2Choice) (p : Params F) (e0 : F) :
    composeKey (Num.binary32 c) p e0 =
      if F.lt zeroF (clampF p.keytrack zeroF oneF) then
        F.mul e0 (exp2Value c (F.mul (F.div (F.ofInt (clampedNote p.note - 60)) (f32OfBits 0x41400000))
          (clampF p.keytrack zeroF oneF)))
      else e0 := by
  rw [lt_zeroF_clampF, composeKey_binary32, keyExponent, noteOffset_eq]
  rfl

/-- Settles O36: the values are those of the compositor's steps and of the filter step, which the stores write. -/
theorem sampleStepRunsTheUnits : Obligations.SampleStepRunsTheUnits := by
  unfold Obligations.SampleStepRunsTheUnits
  intro s n hwf _
  refine ⟨⟨sampleStep_env s n, sampleStep_exactEnv s n⟩, sampleStep_params s n, fun i => by rw [sampleStep_ibuf],
    fun i hi => (sampleStep_obuf_other s n hi).1, fun i hi => (sampleStep_obuf_other s n hi).2, sampleStep_resp s n,
    sampleStep_sameControl s n, sampleStep_sameOtherFormat s n, fun hnum => ?values⟩
  case values =>
    rw [sampleStep_obuf_read hnum hwf, sampleStep_ladder n hnum, tick_filterStep]
    refine ⟨_, _, composeKey s.f32Num s.paramValues s.paramValues.cutoff, _, _, _, _, _, _, _, _, _, _, _, _, _, _, _,
      _, _, _, rfl, rfl, composeKey_clamped _ _ _, rfl, rfl, rfl, rfl, rfl, rfl, rfl, rfl, rfl, rfl, rfl, rfl, rfl,
      rfl, rfl, rfl, rfl, rfl, ?_⟩
    exact ⟨(storable_add _ _).isBitsOf _, (storable_add _ _).isBitsOf _, (storable_add _ _).isBitsOf _,
      (storable_add _ _).isBitsOf _, (storable_add _ _).isBitsOf _⟩

/-! ### The compositor's steps on the reals (R141 to R146) -/

section Reals

variable (c : Exp2Choice) (p : Params ℚ) (e : Env ℚ)

theorem toReal_composeKey (e0 : ℚ) : (composeKey (Num.power c) (mapParams .ofRat p) (.ofRat e0)).toReal =
    if 0 < max 0 (min 1 p.keytrack) then
      e0 * (exp2Power c (((clampedNote p.note - 60 : Int) : ℚ) / 12 * max 0 (min 1 p.keytrack))).toReal
    else e0 := by
  have htest : 0 < max 0 (min 1 p.keytrack) ↔ 0 < p.keytrack := by simp
  rw [composeKey_power, apply_ite PowerSum.toReal, toReal_mul, toReal_ofRat]
  simp only [htest, exactKeyExponent]

theorem toReal_composeContour (e1 : PowerSum) :
    (composeContour (Num.power c) (mapParams .ofRat p) (mapEnv .ofRat e) e1).toReal =
      if e.stage = .idle then e1.toReal
      else e1.toReal * (1 + e.ev * (max (-1) (min 1 p.contour) : ℚ)) := by
  rw [composeContour_power, apply_ite PowerSum.toReal, toReal_mul, toReal_ofRat, exactContourFactor]
  push_cast
  rfl

theorem toReal_composeMod (e2 : PowerSum) : (composeMod (Num.power c) (mapParams .ofRat p) e2).toReal =
    e2.toReal * (1 + (max (-1) (min 1 p.modvalue) : ℚ) / 2) := by
  rw [composeMod_power, toReal_mul, toReal_ofRat, exactModFactor]
  push_cast
  ring

theorem toReal_compose : (compose (Num.power c) (mapParams .ofRat p) (mapEnv .ofRat e)).toReal =
    max (1 / 1000) (min (999 / 1000) (composeMod (Num.power c) (mapParams .ofRat p)
      (composeContour (Num.power c) (mapParams .ofRat p) (mapEnv .ofRat e)
        (composeKey (Num.power c) (mapParams .ofRat p) (.ofRat p.cutoff)))).toReal) := by
  have hclamp := (clamp_power c (comparable_unclamped c p e) (comparable_ofRat (1 / 1000))
    (comparable_ofRat (999 / 1000)) (by rw [toReal_ofRat, toReal_ofRat]; norm_num)).2
  rw [toReal_ofRat, toReal_ofRat] at hclamp
  push_cast at hclamp
  exact hclamp

end Reals

/-- Settles O37: the values are the reals that the compositor's steps and the filter step compute. -/
theorem exactSampleStepRunsTheUnits : Obligations.ExactSampleStepRunsTheUnits := by
  unfold Obligations.ExactSampleStepRunsTheUnits
  intro s n hnum hc hwf _
  rw [sampleStep_real_obuf_read hnum hwf, sampleStep_real_ladder n hnum, tick_filterStepExact,
    resonanceOperand_exact hc]
  have hg (f : PowerSum) : ((Num.power s.cfg.exp2).sub (Num.power s.cfg.exp2).one f).toReal = 1 - f.toReal := by
    simp [sub_eq_add_neg]
  have hinput (x : ℚ) (fb y : PowerSum) :
      ((Num.power s.cfg.exp2).sub (.ofRat x) ((Num.power s.cfg.exp2).mul fb y)).toReal =
        x - fb.toReal * y.toReal := by
    simp [sub_eq_add_neg]
  have hstage := toReal_filterStage s.cfg.exp2
  refine ⟨_, _, _, _, _, _, _, _, _, _, _, _, _, _, _, _, rfl, rfl, rfl, ?power,
    toReal_composeKey s.cfg.exp2 s.exactParams _, toReal_composeContour s.cfg.exp2 s.exactParams s.tick.exactEnv _,
    toReal_composeMod s.cfg.exp2 s.exactParams _, toReal_compose s.cfg.exp2 s.exactParams s.tick.exactEnv,
    toReal_ofRat _, (toReal_filterF s.cfg.exp2 _).trans (mul_comm _ _), toReal_filterFeedback s.cfg.exp2 _ _, hg _,
    hinput _ _ _, hstage _ _ _ _, hstage _ _ _ _, hstage _ _ _ _, hstage _ _ _ _, rfl, rfl, rfl, rfl, rfl⟩
  case power =>
    intro hexp2
    rw [hexp2, toReal_exp2Power_nearest]
    push_cast
    rfl

/-! ### The loop (R160) -/

/-- The loop from `n` on leaves the word of an index it has passed as that index's own sample step wrote it. -/
theorem sampleSteps_obuf_own (s : State) (n : Nat) {i k : Nat} (h : i < k) :
    (State.sampleSteps k n s).obuf.read (n + i) = ((State.sampleSteps i n s).sampleStep (n + i)).obuf.read (n + i) ∧
      (State.sampleSteps k n s).real.obuf.read (n + i) =
        ((State.sampleSteps i n s).sampleStep (n + i)).real.obuf.read (n + i) := by
  obtain ⟨j, rfl⟩ := Nat.exists_eq_add_of_le h
  rw [sampleSteps_add, ← sampleSteps_succ_last]
  exact sampleSteps_obuf_other _ _ _ _ (.inl (by omega))

/-- The same as the host reads it, in either format. -/
theorem sampleSteps_outputBits_own (s : State) (n : Nat) {i k : Nat} (h : i < k) :
    (State.sampleSteps k n s).outputBits (n + i) =
      ((State.sampleSteps i n s).sampleStep (n + i)).outputBits (n + i) := by
  have hown := sampleSteps_obuf_own s n h
  unfold State.outputBits
  rw [hown.1, hown.2, sampleSteps_cfg, sampleStep_cfg, sampleSteps_cfg]

/-- Settles O38: the trace is that of the loop, whose laws say what it leaves. -/
theorem procRunsEverySample : Obligations.ProcRunsEverySample := by
  unfold Obligations.ProcRunsEverySample
  refine ⟨rfl, fun s => ⟨_, fun n => State.sampleSteps n 0 { s with busy := true }, exec_proc s, rfl, fun n _ => ?step,
    rfl, fun n hn => ?own, fun i hi => ?beyond, exec_sameOtherFormat (exec_proc s), fun i => ?ibuf, ?rest⟩⟩
  case step => simp only [sampleSteps_succ_last, Nat.zero_add]
  case own =>
    have hbefore := sampleSteps_obuf_other { s with busy := true } 0 n n (.inr (by omega))
    have hafter := sampleSteps_obuf_own { s with busy := true } 0 hn
    rw [← sampleSteps_succ_last, Nat.zero_add] at hafter
    exact ⟨hbefore.1, hafter.1, hbefore.2, hafter.2⟩
  case beyond => exact sampleSteps_obuf_other { s with busy := true } 0 s.cfg.frameSize i (.inr (by omega))
  case ibuf => rw [sampleSteps_ibuf]
  case rest => simp

end Sys2Proof.Machine

/-! Silence (43_frame_processor.md R169, 40_ladder_filter.md R101): a filter step from zero on zero gives zero, with any
operands in binary32 that the clamps leave, and with any operands at all in exact arithmetic. -/

namespace Sys2Proof.Machine

/-! ### Zeros in binary32 -/

/-- A finite value times `+0.0` is a zero of either sign. -/
theorem mul_zeroF {v : F} (h : v.isFinite = true) : ∃ neg, F.mul v zeroF = .fin neg 0 := by
  obtain ⟨s, u, rfl⟩ := exists_of_isFinite h
  exact ⟨_, by rw [zeroF_eq, F.mul, Nat.mul_zero, roundUnits_zero]⟩

theorem zeroF_mul {v : F} (h : v.isFinite = true) : ∃ neg, F.mul zeroF v = .fin neg 0 := by
  obtain ⟨s, u, rfl⟩ := exists_of_isFinite h
  exact ⟨_, by rw [zeroF_eq, F.mul, Nat.zero_mul, roundUnits_zero]⟩

/-- `+0.0` times a finite value with a plus sign is `+0.0`. -/
theorem zeroF_mul_pos (u : Nat) : F.mul zeroF (.fin false u) = zeroF := by
  rw [zeroF_eq, F.mul, Nat.zero_mul, roundUnits_zero]
  rfl

/-- A zero of either sign added to `+0.0` or taken from it leaves `+0.0`. -/
theorem zeroF_add_zero (neg : Bool) : F.add zeroF (.fin neg 0) = zeroF := by
  rw [zeroF_eq]
  cases neg
  · rw [F.add, if_pos rfl, Nat.add_zero, roundUnits_zero]
  · rfl

theorem zeroF_sub_zero (neg : Bool) : F.sub zeroF (.fin neg 0) = zeroF := zeroF_add_zero (!neg)

/-! ### The filter step in binary32 -/

section Binary32

variable (c : Exp2Choice)

theorem filterStage_zeroF {g : F} (u : Nat) (hg : g.isFinite = true) :
    filterStage (Num.binary32 c) (.fin false u) g zeroF zeroF = zeroF := by
  obtain ⟨neg, hneg⟩ := zeroF_mul hg
  rw [filterStage, binary32_mul, binary32_add, zeroF_mul_pos, hneg, zeroF_add_zero]

/-- From zero on zero the step gives zero, where its coefficients are finite and `f` has a plus sign. -/
theorem ladderStep_zeroF {ec rr : F} {u : Nat} (hf : filterF (Num.binary32 c) ec = .fin false u)
    (hfb : (filterFeedback (Num.binary32 c) (.fin false u) rr).isFinite = true)
    (hg : (F.sub oneF (.fin false u)).isFinite = true) :
    ladderStep (Num.binary32 c) zeroF ec rr ⟨zeroF, zeroF, zeroF, zeroF⟩ = ⟨zeroF, zeroF, zeroF, zeroF⟩ := by
  obtain ⟨neg, hneg⟩ := mul_zeroF hfb
  have hinput : (Num.binary32 c).sub zeroF
      ((Num.binary32 c).mul (filterFeedback (Num.binary32 c) (.fin false u) rr) zeroF) = zeroF := by
    rw [binary32_mul, binary32_sub, hneg, zeroF_sub_zero]
  have hstage : filterStage (Num.binary32 c) (.fin false u)
      ((Num.binary32 c).sub (Num.binary32 c).one (.fin false u)) zeroF zeroF = zeroF := filterStage_zeroF c u hg
  simp only [ladderStep, hf, hinput, hstage]

theorem inRange_sub {x y a b : F} {p q : ℚ} (hx : x.isFinite = true) (hy : y.isFinite = true) (ha : HoldsRat a p)
    (hb : HoldsRat b q) (hp : p ≤ x.toRat - y.toRat) (hq : x.toRat - y.toRat ≤ q) : (F.sub x y).InRange p q := by
  obtain ⟨s, u, rfl⟩ := exists_of_isFinite hx
  obtain ⟨t, v, rfl⟩ := exists_of_isFinite hy
  exact inRange_of_roundsTo ha hb hp hq (roundsTo_sub s t u v)

theorem holdsRat_four : HoldsRat (f32OfBits 0x40800000) 4 := holdsRat_f32OfBits (by decide +kernel)

theorem inRange_of_value {v : F} {q : ℚ} (h : HoldsRat v q) (hq : 0 ≤ q) : v.InRange 0 q :=
  ⟨h.finite, hq.trans_eq h.value.symm, h.value.le⟩

/-- The literals 1.16 and 0.15 (R15) in ranges whose ends words encode. -/
theorem inRange_c116 : (f32OfBits 0x3F947AE1).InRange 0 (3 / 2) :=
  ⟨by decide +kernel, by decide +kernel, by decide +kernel⟩

theorem inRange_c015 : (f32OfBits 0x3E19999A).InRange 0 (1 / 4) :=
  ⟨by decide +kernel, by decide +kernel, by decide +kernel⟩

/-- The coefficient `f` of a cutoff within `[0, 1]`. -/
theorem filterF_inRange {ec : F} (h : ec.InRange 0 1) : (filterF (Num.binary32 c) ec).InRange 0 (3 / 2) :=
  h.mul inRange_c116 holdsRat_threeHalves (by norm_num)

/-- The feedback of such a coefficient and a resonance within `[0, 1]`. -/
theorem filterFeedback_inRange {f rr : F} (hf : f.InRange 0 (3 / 2)) (hr : rr.InRange 0 1) :
    (filterFeedback (Num.binary32 c) f rr).InRange 0 4 := by
  have hres : (F.mul rr (f32OfBits 0x40800000)).InRange 0 4 :=
    hr.mul (inRange_of_value holdsRat_four (by norm_num)) holdsRat_four (by norm_num)
  have ht1 : (F.mul (f32OfBits 0x3E19999A) f).InRange 0 (1 / 2) := inRange_c015.mul hf holdsRat_half (by norm_num)
  have ht2 : (F.mul (F.mul (f32OfBits 0x3E19999A) f) f).InRange 0 1 := ht1.mul hf holdsRat_oneF (by norm_num)
  have ht3 : (F.sub oneF (F.mul (F.mul (f32OfBits 0x3E19999A) f) f)).InRange 0 1 := by
    refine inRange_sub holdsRat_oneF.finite ht2.finite holdsRat_zeroF holdsRat_oneF ?_ ?_ <;>
      rw [holdsRat_oneF.value] <;> linarith [ht2.lower, ht2.upper]
  exact hres.mul ht3 holdsRat_four (by norm_num)

/-- A value above zero has a plus sign. -/
theorem F.InRange.exists_fin_pos {v : F} {p q : ℚ} (h : v.InRange p q) (hp : 0 < p) : ∃ u, v = .fin false u := by
  obtain ⟨s, u, rfl⟩ := exists_of_isFinite h.finite
  have hlower := hp.trans_le h.lower
  rw [toRat_fin] at hlower
  cases s
  · exact ⟨u, rfl⟩
  · have hunits : (signedUnits true u : ℚ) ≤ 0 := by simp [signedUnits]
    linarith [div_nonpos_of_nonpos_of_nonneg hunits (by positivity : (0 : ℚ) ≤ 2 ^ 149)]

/-- The coefficient `f` of a cutoff above zero has a plus sign, unless it overflows. -/
theorem exists_filterF_pos {u : Nat} (h : (filterF (Num.binary32 c) (.fin false u)).isFinite = true) :
    ∃ v, filterF (Num.binary32 c) (.fin false u) = .fin false v := by
  rw [filterF, binary32_mul, binary32_c116, f32_c116, F.mul] at h ⊢
  rcases roundUnits_cases false (u * (9730785 * 2 ^ 126)) unitsOfOne with hinf | ⟨-, hfin⟩
  · rw [show (false != false) = false from rfl, hinf] at h
    cases h
  · exact ⟨_, hfin⟩

/-- With a cutoff and a resonance that the clamps leave, a step from zero on zero gives zero. -/
theorem ladderStep_zeroF_of_inRange {ec rr : F} {p : ℚ} (hp : 0 < p) (hec : ec.InRange p 1) (hrr : rr.InRange 0 1) :
    ladderStep (Num.binary32 c) zeroF ec rr ⟨zeroF, zeroF, zeroF, zeroF⟩ = ⟨zeroF, zeroF, zeroF, zeroF⟩ := by
  have hf := filterF_inRange c (ec := ec) ⟨hec.finite, hp.le.trans hec.lower, hec.upper⟩
  obtain ⟨u, rfl⟩ := hec.exists_fin_pos hp
  obtain ⟨v, hv⟩ := exists_filterF_pos c hf.finite
  rw [hv] at hf
  have hg : (F.sub oneF (.fin false v)).InRange (-(1 / 2)) 1 := by
    refine inRange_sub holdsRat_oneF.finite hf.finite holdsRat_negHalf holdsRat_oneF ?_ ?_ <;>
      rw [holdsRat_oneF.value] <;> linarith [hf.lower, hf.upper]
  exact ladderStep_zeroF c hv (filterFeedback_inRange c hf hrr).finite hg.finite

end Binary32

/-- In a state whose stage registers are `+0.0`, the filter step on `+0.0` leaves them so. -/
theorem filterStep_silent {s : State} (hc : configValid s.cfg = true) (hl : s.ladder = ⟨0, 0, 0, 0⟩) :
    s.filterStep 0 = ⟨zeroF, zeroF, zeroF, zeroF⟩ := by
  have hlow : HoldsRat (f32OfBits 0x3A83126F) (8589935 / 2 ^ 33) := holdsRat_f32OfBits (by decide +kernel)
  have hhigh : HoldsRat (f32OfBits 0x3F7FBE77) (16760439 / 2 ^ 24) := holdsRat_f32OfBits (by decide +kernel)
  obtain ⟨hwithin, -⟩ := effectiveCutoffInRange s
  obtain ⟨h1, h2⟩ := Bool.and_eq_true_iff.1 hwithin
  obtain ⟨hfin, hlower, hupper⟩ := inRange_of_le hlow hhigh h1 h2
  obtain ⟨q, hq, hq1, hmax, -⟩ := exists_holdsRat_resMax hc
  obtain ⟨hfin', hlower', hupper'⟩ := inRange_clampF s.paramValues.resonance holdsRat_zeroF hmax hq
  have hladder : s.ladderValues = ⟨zeroF, zeroF, zeroF, zeroF⟩ := by
    rw [State.ladderValues, hl]
    rfl
  rw [State.filterStep, hladder]
  exact ladderStep_zeroF_of_inRange s.cfg.exp2 (by norm_num) ⟨hfin, hlower, hupper.trans (by norm_num)⟩
    ⟨hfin', hlower', hupper'.trans hq1⟩

/-! ### The filter step in exact arithmetic -/

@[simp] theorem mul_zero_powerSum (a : PowerSum) : a.mul .zero = .zero := by
  obtain ⟨l⟩ := a
  induction l with
  | nil => rfl
  | cons t l ih => exact ih

@[simp] theorem zero_mul_powerSum (a : PowerSum) : PowerSum.zero.mul a = .zero := rfl

@[simp] theorem zero_add_powerSum (a : PowerSum) : PowerSum.zero.add a = a := rfl

@[simp] theorem neg_zero_powerSum : PowerSum.zero.neg = .zero := rfl

theorem ladderStep_zero (c : Exp2Choice) (ec rr : PowerSum) :
    ladderStep (Num.power c) .zero ec rr ⟨.zero, .zero, .zero, .zero⟩ = ⟨.zero, .zero, .zero, .zero⟩ := by
  simp [ladderStep, filterStage]

theorem filterStepExact_silent {s : State} {x : Word} (hl : s.real.ladder = ⟨.zero, .zero, .zero, .zero⟩)
    (hx : realOfBits x = 0) : s.filterStepExact x = ⟨.zero, .zero, .zero, .zero⟩ := by
  rw [State.filterStepExact, hl, hx, ofRat_zero]
  exact ladderStep_zero _ _ _

/-- Zero has the word of `+0.0`. -/
theorem bitsOfReal_zero : bitsOfReal .zero = 0x00000000 := by
  have hword := wordOfRat_of_finite (w := 0x00000000) (by decide +kernel) (by decide)
  rw [f32_zero, toRat_fin, signedUnits_zero, Int.cast_zero, zero_div] at hword
  rw [bitsOfReal, ← ofRat_zero, toRat?_ofRat, Option.bind_some, hword, Option.getD_some]

/-! ### The frame -/

/-- What every sample step of a frame keeps, given the configuration and the input buffer, the loop keeps, and each
output word is written by a sample step from a state that has it. -/
theorem sampleSteps_keeps_given {P : State → Prop} {s : State} {size : Nat}
    (hstep : ∀ t n, n < size → t.cfg = s.cfg → t.ibuf = s.ibuf → P t → P (t.sampleStep n)) (h : P s) :
    P (State.sampleSteps size 0 s) ∧ ∀ i < size, ∃ t, t.cfg = s.cfg ∧ t.ibuf = s.ibuf ∧ P t ∧
      (State.sampleSteps size 0 s).obuf.read i = (t.sampleStep i).obuf.read i ∧
      (State.sampleSteps size 0 s).real.obuf.read i = (t.sampleStep i).real.obuf.read i := by
  have hloop {k : Nat} (hk : k ≤ size) : P (State.sampleSteps k 0 s) :=
    (sampleSteps_keeps_below (P := fun t => t.cfg = s.cfg ∧ t.ibuf = s.ibuf ∧ P t)
      (fun t n hn ⟨hcfg, hibuf, ht⟩ =>
        ⟨(sampleStep_cfg t n).trans hcfg, (sampleStep_ibuf t n).trans hibuf, hstep t n hn hcfg hibuf ht⟩)
      ⟨rfl, rfl, h⟩ k 0 (by omega)).2.2
  refine ⟨hloop le_rfl, fun i hi => ⟨State.sampleSteps i 0 s, sampleSteps_cfg .., sampleSteps_ibuf .., hloop hi.le, ?_⟩⟩
  simpa using sampleSteps_obuf_own s 0 hi

/-- The stage registers are `+0.0`, and the output buffer of `size` words is canonical. -/
def IsSilent (size : Nat) (s : State) : Prop := s.ladder = ⟨0, 0, 0, 0⟩ ∧ Memory.wf size s.obuf = true

/-- The same in exact arithmetic. -/
def IsSilentExact (size : Nat) (s : State) : Prop :=
  s.real.ladder = ⟨.zero, .zero, .zero, .zero⟩ ∧ Memory.wf size s.real.obuf = true

/-- A sample step on `+0.0` keeps the silence and writes `+0.0`. -/
theorem IsSilent.sampleStep {s : State} {n size : Nat} (hnum : s.cfg.num = .binary32) (hc : configValid s.cfg = true)
    (hn : n < size) (h : IsSilent size s) (hx : s.ibuf.read n = 0) :
    IsSilent size (s.sampleStep n) ∧ (s.sampleStep n).obuf.read n = 0 := by
  obtain ⟨hl, hwf⟩ := h
  have hstep := filterStep_silent (s := s.tick) (by rwa [tick_cfg]) (by rwa [tick_ladder])
  refine ⟨⟨?_, ?_⟩, ?_⟩
  · rw [sampleStep_ladder n hnum, hx, hstep]
    simp only [bitsOfF32_zeroF]
  · rw [sampleStep_obuf n hnum]
    exact memory_wf_write _ hwf hn
  · rw [sampleStep_obuf_read hnum hwf, hx, hstep, bitsOfF32_zeroF]

/-- A sample step on zero keeps the silence and writes zero. -/
theorem IsSilentExact.sampleStep {s : State} {n size : Nat} (hnum : s.cfg.num = .exact) (hn : n < size)
    (h : IsSilentExact size s) (hx : realOfBits (s.ibuf.read n) = 0) :
    IsSilentExact size (s.sampleStep n) ∧ (s.sampleStep n).real.obuf.read n = .zero := by
  obtain ⟨hl, hwf⟩ := h
  have hladder : (s.sampleStep n).real.ladder = ⟨.zero, .zero, .zero, .zero⟩ := by
    rw [sampleStep_real_ladder n hnum, filterStepExact_silent (by rwa [tick_real_ladder]) hx]
  refine ⟨⟨hladder, ?_⟩, by rw [sampleStep_real_obuf_read hnum hwf, hladder]⟩
  rw [sampleStep_real n hnum]
  exact memory_wf_write _ hwf hn

/-- Settles O41: each output word is written by a sample step from silence. -/
theorem silenceStaysSilent : Obligations.SilenceStaysSilent := by
  unfold Obligations.SilenceStaysSilent
  intro s hnum hc hwf hl hx
  have hstep : ∀ t n, n < s.cfg.frameSize → t.cfg = s.cfg → t.ibuf = s.ibuf → IsSilent s.cfg.frameSize t →
      IsSilent s.cfg.frameSize (t.sampleStep n) ∧ (t.sampleStep n).obuf.read n = 0 :=
    fun t n hn hcfg hibuf ht => ht.sampleStep (hcfg ▸ hnum) (hcfg ▸ hc) hn (hibuf ▸ hx n hn)
  obtain ⟨hend, hword⟩ := sampleSteps_keeps_given (s := { s with busy := true })
    (fun t n hn hcfg hibuf ht => (hstep t n hn hcfg hibuf ht).1) ⟨hl, hwf⟩
  refine ⟨_, exec_proc s, hend.1, fun i hi => ?_⟩
  obtain ⟨t, hcfg, hibuf, ht, hread, -⟩ := hword i hi
  exact hread.trans (hstep t i hi hcfg hibuf ht).2

/-- Settles O42, in the same way. -/
theorem exactSilenceStaysSilent : Obligations.ExactSilenceStaysSilent := by
  unfold Obligations.ExactSilenceStaysSilent
  intro s hnum hwf hl hx
  have hstep : ∀ t n, n < s.cfg.frameSize → t.cfg = s.cfg → t.ibuf = s.ibuf → IsSilentExact s.cfg.frameSize t →
      IsSilentExact s.cfg.frameSize (t.sampleStep n) ∧ (t.sampleStep n).real.obuf.read n = .zero :=
    fun t n hn hcfg hibuf ht => ht.sampleStep (hcfg ▸ hnum) hn (hibuf ▸ hx n hn)
  obtain ⟨hend, hword⟩ := sampleSteps_keeps_given (s := { s with busy := true })
    (fun t n hn hcfg hibuf ht => (hstep t n hn hcfg hibuf ht).1) ⟨hl, hwf⟩
  refine ⟨_, exec_proc s, hend.1, fun i hi => ?_⟩
  obtain ⟨t, hcfg, hibuf, ht, -, hread⟩ := hword i hi
  have hzero := hread.trans (hstep t i hi hcfg hibuf ht).2
  exact ⟨hzero, by rw [outputBits_exact (by simpa using hnum), hzero, bitsOfReal_zero]⟩

end Sys2Proof.Machine

/-! Frame-size independence (43_frame_processor.md R168), its kernel: a sample step does not read the frame size, the
output buffer or the sample's index, so a loop over the same input words gives the same registers and output words
wherever in a frame they stand. -/

namespace Sys2Proof.Machine

/-- The instance is the same but for its frame size, and so are the parameter registers. -/
structure SameInstance (s u : State) : Prop where
  cfg : u.cfg = { s.cfg with frameSize := u.cfg.frameSize }
  params : u.params = s.params

namespace SameInstance

theorem trans {s t u : State} (h1 : SameInstance s t) (h2 : SameInstance t u) : SameInstance s u where
  cfg := by rw [h2.cfg, h1.cfg]
  params := h2.params.trans h1.params

variable {s u : State} (h : SameInstance s u)

include h

theorem num : u.cfg.num = s.cfg.num := (congrArg Config.num h.cfg :)

/-! ### What the numeric path reads of the instance and its parameters -/

theorem f32Num : u.f32Num = s.f32Num := (congrArg (fun c : Config => Num.binary32 c.exp2) h.cfg :)
theorem consts : u.consts = s.consts := (congrArg configConsts h.cfg :)
theorem paramValues : u.paramValues = s.paramValues := congrArg (mapParams f32OfBits) h.params
theorem exactConsts : u.exactConsts = s.exactConsts := (congrArg exactConfigConsts h.cfg :)
theorem exactParams : u.exactParams = s.exactParams := congrArg (mapParams realOfBits) h.params
theorem powerNum : u.powerNum = s.powerNum := (congrArg (fun c : Config => Num.power c.exp2) h.cfg :)
theorem powerConsts : u.powerConsts = s.powerConsts := congrArg (mapConsts PowerSum.ofRat) h.exactConsts
theorem powerParams : u.powerParams = s.powerParams := congrArg (mapParams PowerSum.ofRat) h.exactParams

end SameInstance

/-- The instance is the same but for its frame size, and so are all the registers and the counter of free values. -/
structure SameRegisters (s u : State) : Prop extends SameInstance s u where
  env : u.env = s.env
  exactEnv : u.exactEnv = s.exactEnv
  ladder : u.ladder = s.ladder
  realLadder : u.real.ladder = s.real.ladder
  nanSeq : u.nanSeq = s.nanSeq

namespace SameRegisters

theorem trans {s t u : State} (h1 : SameRegisters s t) (h2 : SameRegisters t u) : SameRegisters s u where
  toSameInstance := h1.toSameInstance.trans h2.toSameInstance
  env := h2.env.trans h1.env
  exactEnv := h2.exactEnv.trans h1.exactEnv
  ladder := h2.ladder.trans h1.ladder
  realLadder := h2.realLadder.trans h1.realLadder
  nanSeq := h2.nanSeq.trans h1.nanSeq

variable {s u : State} (h : SameRegisters s u)

include h

theorem envValues : u.envValues = s.envValues := congrArg (mapEnv f32OfBits) h.env
theorem ladderValues : u.ladderValues = s.ladderValues := congrArg (mapLadder f32OfBits) h.ladder
theorem powerEnv : u.powerEnv = s.powerEnv := congrArg (mapEnv PowerSum.ofRat) h.exactEnv

theorem filterStep (x : Word) : u.filterStep x = s.filterStep x := by
  rw [State.filterStep, h.f32Num, h.paramValues, h.envValues, h.consts, h.ladderValues]
  rfl

theorem filterStepExact (x : Word) : u.filterStepExact x = s.filterStepExact x := by
  rw [State.filterStepExact, h.powerNum, h.powerParams, h.powerEnv, h.powerConsts, h.realLadder]
  rfl

/-! ### The stores -/

theorem putEnv (e : Env F) : SameRegisters (s.putEnv e) (u.putEnv e) where
  cfg := h.cfg
  params := h.params
  env := by simp only [putEnv_env, h.nanSeq]
  exactEnv := by
    obtain ⟨-, hev, het, her⟩ := Env.mk.inj h.exactEnv
    simp only [State.exactEnv, putEnv_env, putEnv_real, hev, het, her]
  ladder := h.ladder
  realLadder := h.realLadder
  nanSeq := congrArg (· + 3) h.nanSeq

theorem putEnvExact (e : Env ℚ) : SameRegisters (s.putEnvExact e) (u.putEnvExact e) where
  cfg := h.cfg
  params := h.params
  env := by simp only [putEnvExact_env, h.env]
  exactEnv := rfl
  ladder := h.ladder
  realLadder := h.realLadder
  nanSeq := h.nanSeq

theorem tick : SameRegisters s.tick u.tick := by
  cases hnum : s.cfg.num
  case binary32 =>
    rw [tick_binary32 hnum, tick_binary32 (h.num.trans hnum), h.f32Num, h.consts, h.paramValues, h.envValues]
    exact h.putEnv _
  case exact =>
    rw [tick_exact hnum, tick_exact (h.num.trans hnum), h.exactConsts, h.exactParams, h.exactEnv]
    exact h.putEnvExact _

theorem putFilter (l : Ladder F) (n m : Nat) (y : F) :
    SameRegisters ((s.putLadder l).putSample n y) ((u.putLadder l).putSample m y) where
  cfg := h.cfg
  params := h.params
  env := h.env
  exactEnv := h.exactEnv
  ladder := by simp only [putSample_ladder, putLadder_ladder, h.nanSeq]
  realLadder := h.realLadder
  nanSeq := congrArg (· + 4 + 1) h.nanSeq

theorem putFilterExact (l : Ladder PowerSum) (n m : Nat) (y : PowerSum) :
    SameRegisters ((s.putLadderExact l).putSampleExact n y) ((u.putLadderExact l).putSampleExact m y) where
  cfg := h.cfg
  params := h.params
  env := h.env
  exactEnv := h.exactEnv
  ladder := h.ladder
  realLadder := rfl
  nanSeq := h.nanSeq

/-! ### The sample step and the loop -/

theorem sampleStep {n m : Nat} (hx : u.ibuf.read m = s.ibuf.read n) :
    SameRegisters (s.sampleStep n) (u.sampleStep m) := by
  cases hnum : s.cfg.num
  case binary32 =>
    rw [sampleStep_binary32 n hnum, sampleStep_binary32 m (h.num.trans hnum), h.tick.filterStep, hx]
    exact h.tick.putFilter _ _ _ _
  case exact =>
    rw [sampleStep_exact n hnum, sampleStep_exact m (h.num.trans hnum), h.tick.filterStepExact, hx]
    exact h.tick.putFilterExact _ _ _ _

/-- The two sample steps write the same output word. -/
theorem sampleStep_outputBits {n m size size' : Nat} (hx : u.ibuf.read m = s.ibuf.read n)
    (hs : Memory.wf size s.obuf = true ∧ Memory.wf size s.real.obuf = true)
    (hu : Memory.wf size' u.obuf = true ∧ Memory.wf size' u.real.obuf = true) :
    (u.sampleStep m).outputBits m = (s.sampleStep n).outputBits n := by
  cases hnum : s.cfg.num
  case binary32 =>
    rw [outputBits_binary32 (by simpa using h.num.trans hnum), outputBits_binary32 (by simpa using hnum),
      sampleStep_obuf_read (h.num.trans hnum) hu.1, sampleStep_obuf_read hnum hs.1, h.tick.filterStep, hx, h.nanSeq]
  case exact =>
    rw [outputBits_exact (by simpa using h.num.trans hnum), outputBits_exact (by simpa using hnum),
      sampleStep_real_obuf_read (h.num.trans hnum) hu.2, sampleStep_real_obuf_read hnum hs.2,
      (h.sampleStep hx).realLadder]

theorem sampleSteps {n m k : Nat} (hx : ∀ i < k, u.ibuf.read (m + i) = s.ibuf.read (n + i)) :
    SameRegisters (State.sampleSteps k n s) (State.sampleSteps k m u) := by
  induction k with
  | zero => exact h
  | succ k ih =>
    rw [sampleSteps_succ_last, sampleSteps_succ_last]
    exact (ih fun i hi => hx i (by omega)).sampleStep (by simpa using hx k (by omega))

/-- The two loops write the same output words. -/
theorem sampleSteps_outputBits {n m k size size' : Nat} (hx : ∀ i < k, u.ibuf.read (m + i) = s.ibuf.read (n + i))
    (hs : Memory.wf size s.obuf = true ∧ Memory.wf size s.real.obuf = true) (hn : n + k ≤ size)
    (hu : Memory.wf size' u.obuf = true ∧ Memory.wf size' u.real.obuf = true) (hm : m + k ≤ size') :
    ∀ i < k, (State.sampleSteps k m u).outputBits (m + i) = (State.sampleSteps k n s).outputBits (n + i) := by
  intro i hi
  rw [sampleSteps_outputBits_own s n hi, sampleSteps_outputBits_own u m hi]
  exact (h.sampleSteps fun j hj => hx j (by omega)).sampleStep_outputBits (by simpa using hx i hi)
    (sampleSteps_obuf_wf s n i hs (by omega)) (sampleSteps_obuf_wf u m i hu (by omega))

end SameRegisters

/-- Settles O47: the long frame's loop is one of `a` and then one of `b` sample steps, and each is matched by a frame's
own. -/
theorem frameSizeIndependence : Obligations.FrameSizeIndependence := by
  unfold Obligations.FrameSizeIndependence
  intro s u t t1 t2 a b hsize hobuf hreal huobuf hureal ht ht1 hcfg hparams henv hladder hseq hibuf ht2
  obtain ⟨henv, hexactEnv⟩ := henv
  obtain ⟨hladder, hrealLadder⟩ := hladder
  rw [exec_proc, hsize] at ht
  rw [exec_proc] at ht1
  rw [exec_proc, show u.cfg.frameSize = b from (congrArg Config.frameSize hcfg :)] at ht2
  cases ht
  cases ht1
  cases ht2
  have hstart : SameRegisters { s with busy := true }
      { s with cfg := { s.cfg with frameSize := a }, busy := true } := ⟨⟨rfl, rfl⟩, rfl, rfl, rfl, rfl, rfl⟩
  have hfirst := hstart.sampleSteps (n := 0) (m := 0) (k := a) fun _ _ => rfl
  have hsecond : SameRegisters _ { u with busy := true } :=
    hfirst.trans ⟨⟨by simp [hcfg], hparams⟩, henv, hexactEnv, hladder, hrealLadder, hseq⟩
  have hinput : ∀ i < b, ({ u with busy := true } : State).ibuf.read (0 + i) =
      (State.sampleSteps a 0 { s with busy := true }).ibuf.read (0 + a + i) := by
    simpa using hibuf
  have hrest := hsecond.sampleSteps hinput
  have hwords1 := hstart.sampleSteps_outputBits (n := 0) (m := 0) (k := a) (fun _ _ => rfl) ⟨hobuf, hreal⟩ (by omega)
    ⟨hobuf, hreal⟩ (by omega)
  have hwords2 := hsecond.sampleSteps_outputBits hinput
    (sampleSteps_obuf_wf { s with busy := true } 0 a ⟨hobuf, hreal⟩ (by omega)) (by omega) ⟨huobuf, hureal⟩ (by omega)
  rw [← sampleSteps_add] at hrest hwords2
  refine ⟨⟨hrest.env.symm, hrest.exactEnv.symm⟩, ⟨hrest.ladder.symm, hrest.realLadder.symm⟩, fun i hi => ?_,
    fun i hi => ?_⟩
  · have h1 := sampleSteps_outputBits_own { s with busy := true } 0 hi
    have h2 := sampleSteps_outputBits_own { s with busy := true } 0 (hi.trans_le (Nat.le_add_right a b))
    have h3 := hwords1 i hi
    rw [h1, ← h2, Nat.zero_add] at h3
    exact h3.symm
  · have h := hwords2 i hi
    rw [Nat.zero_add, Nat.zero_add] at h
    exact h.symm

end Sys2Proof.Machine

/-! Binary32 without NaN patterns (00_scope.md R13, 44_host_commands.md R194): all NaNs are read as one, and neither the
operations nor the rules of the envelope, the compositor and the filter tell them apart. -/

namespace Sys2Proof.Machine

/-! ### Values without NaN patterns -/

/-- The value, all NaNs being one. -/
def F.plain : F → F
  | .nan _ => .nan none
  | .inf neg => .inf neg
  | .fin neg u => .fin neg u

/-- The value that a word encodes, all NaNs being one. -/
def plainOfBits (w : Word) : F := (f32OfBits w).plain

theorem plain_of_not_isNan {v : F} (h : v.isNan = false) : v.plain = v := by
  cases v with
  | nan => cases h
  | inf | fin => rfl

theorem plain_eq_nan_iff {v : F} : v.plain = .nan none ↔ v.isNan = true := by
  cases v <;> simp [F.plain, F.isNan]

/-- Two words are the same up to NaN patterns when they are read as the same plain value. -/
theorem sameUpToNan_iff {v w : Word} : sameUpToNan v w = true ↔ plainOfBits v = plainOfBits w := by
  simp only [sameUpToNan, Bool.or_eq_true, decide_eq_true_eq, Bool.and_eq_true, plainOfBits]
  constructor
  · rintro (rfl | ⟨hv, hw⟩)
    · rfl
    · rw [plain_eq_nan_iff.2 hv, plain_eq_nan_iff.2 hw]
  · intro h
    cases hv : (f32OfBits v).isNan
    case true => exact .inr ⟨rfl, plain_eq_nan_iff.1 (h ▸ plain_eq_nan_iff.2 hv)⟩
    case false =>
      have hw : (f32OfBits w).isNan = false := by
        rw [Bool.eq_false_iff] at hv ⊢
        exact fun hw => hv (plain_eq_nan_iff.1 (h.trans (plain_eq_nan_iff.2 hw)))
      rw [plain_of_not_isNan hv, plain_of_not_isNan hw] at h
      exact .inl (by rw [← bitsOfF32_f32OfBits 0 v, h, bitsOfF32_f32OfBits])

/-- A stored value is read back as it was, whichever pattern a NaN was given. -/
theorem plainOfBits_bitsOfF32 {v : F} (h : v.Storable) (n : Nat) : plainOfBits (bitsOfF32 n v) = v.plain := by
  rcases h.stored n with h | ⟨hv, hw⟩
  · rw [plainOfBits, h]
  · rw [plainOfBits, plain_eq_nan_iff.2 hw, plain_eq_nan_iff.2 hv]

/-! ### The operations of binary32 do not read NaN patterns (R194) -/

section Binary32

variable (a b : F)

@[simp] theorem plain_plain : a.plain.plain = a.plain := by cases a <;> rfl
@[simp] theorem ord_plain : a.plain.ord = a.ord := by cases a <;> rfl
@[simp] theorem neg_plain : a.plain.neg = a.neg := by cases a <;> rfl
@[simp] theorem add_plain_left : F.add a.plain b = F.add a b := by cases a <;> cases b <;> rfl
@[simp] theorem add_plain_right : F.add a b.plain = F.add a b := by cases a <;> cases b <;> rfl
@[simp] theorem sub_plain_left : F.sub a.plain b = F.sub a b := add_plain_left _ _
@[simp] theorem sub_plain_right : F.sub a b.plain = F.sub a b := by rw [F.sub, neg_plain, F.sub]
@[simp] theorem mul_plain_left : F.mul a.plain b = F.mul a b := by cases a <;> cases b <;> rfl
@[simp] theorem mul_plain_right : F.mul a b.plain = F.mul a b := by cases a <;> cases b <;> rfl
@[simp] theorem le_plain_left : F.le a.plain b = F.le a b := by rw [F.le, ord_plain, F.le]
@[simp] theorem le_plain_right : F.le a b.plain = F.le a b := by rw [F.le, ord_plain, F.le]
@[simp] theorem lt_plain_right : F.lt a b.plain = F.lt a b := by rw [F.lt, ord_plain, F.lt]

/-- What has a place in the order is no NaN. -/
theorem plain_of_le {lo x : F} (h : F.le lo x = true) : x.plain = x := plain_of_not_isNan (not_isNan_of_le h).2

@[simp] theorem clampF_plain (x lo hi : F) : clampF x.plain lo hi = clampF x lo hi := by
  unfold clampF
  rw [le_plain_right, le_plain_left]
  split_ifs with h
  · exact plain_of_le h
  · rfl
  · rfl

@[simp] theorem clampLo_plain (c : Exp2Choice) (x lo : F) :
    clampLo (Num.binary32 c) x.plain lo = clampLo (Num.binary32 c) x lo := by
  rw [clampLo_binary32, clampLo_binary32, le_plain_right]
  split_ifs with h
  · exact plain_of_le h
  · rfl

end Binary32

/-! ### The rules in binary32 do not read NaN patterns -/

section Rules

variable (c : Exp2Choice) (k : Consts F) (p : Params F) (e : Env F) (l : Ladder F)

theorem sustainLevel_plain : sustainLevel (Num.binary32 c) (mapParams F.plain p) = sustainLevel (Num.binary32 c) p :=
  clampF_plain _ _ _

theorem rateOf_plain (t : F) : rateOf (Num.binary32 c) k t.plain = rateOf (Num.binary32 c) k t := by
  rw [rateOf, clampLo_plain, rateOf]

/-- The tick moves a NaN or computes with it as with any other. -/
theorem envTick_plain : mapEnv F.plain (envTick (Num.binary32 c) k (mapParams F.plain p) (mapEnv F.plain e)) =
    mapEnv F.plain (envTick (Num.binary32 c) k p e) := by
  have hdecay : rateOf (Num.binary32 c) k (mapParams F.plain p).decay = rateOf (Num.binary32 c) k p.decay :=
    rateOf_plain c k p.decay
  have hite (b : Bool) (e1 e2 : Env F) : mapEnv F.plain (if b then e1 else e2) =
      if b then mapEnv F.plain e1 else mapEnv F.plain e2 := apply_ite _ _ _ _
  cases hst : e.stage with
  | attack =>
    rw [envTick_attack _ _ _ hst, envTick_attack _ _ _ (e := mapEnv F.plain e) hst, hdecay, sustainLevel_plain, hite,
      hite]
    simp only [mapEnv, binary32_add, add_plain_left, add_plain_right, plain_plain]
    congr
  | decay =>
    rw [envTick_decay _ _ _ hst, envTick_decay _ _ _ (e := mapEnv F.plain e) hst, sustainLevel_plain, hite, hite]
    simp only [mapEnv, binary32_sub, sub_plain_left, sub_plain_right, plain_plain]
    congr
  | release =>
    rw [envTick_release _ _ _ hst, envTick_release _ _ _ (e := mapEnv F.plain e) hst, hite, hite]
    simp only [mapEnv, binary32_sub, sub_plain_left, sub_plain_right, plain_plain]
    congr
  | sustain =>
    rw [envTick_sustain _ _ _ hst, envTick_sustain _ _ _ (e := mapEnv F.plain e) hst]
    simp only [mapEnv, plain_plain]
  | idle =>
    rw [envTick_idle _ _ _ hst, envTick_idle _ _ _ (e := mapEnv F.plain e) hst]
    simp only [mapEnv, plain_plain]

theorem compose_plain : compose (Num.binary32 c) (mapParams F.plain p) (mapEnv F.plain e) =
    compose (Num.binary32 c) p e := by
  simp only [compose_binary32, composeMod_binary32, composeContour_binary32, composeKey_binary32, keyExponent,
    contourFactor, modFactor, mapParams, mapEnv, clampF_plain, lt_plain_right, mul_plain_left]
  split_ifs <;> simp only [mul_plain_left]

theorem resonanceOperand_plain :
    resonanceOperand (Num.binary32 c) k (mapParams F.plain p) = resonanceOperand (Num.binary32 c) k p :=
  clampF_plain _ _ _

theorem ladderStep_plain (x ec rr : F) :
    ladderStep (Num.binary32 c) x.plain ec rr (mapLadder F.plain l) = ladderStep (Num.binary32 c) x ec rr l := by
  simp only [ladderStep, filterStage, mapLadder, binary32_sub, binary32_mul, binary32_add, sub_plain_left,
    mul_plain_right, mul_plain_left]

end Rules

end Sys2Proof.Machine

/-! The frame as a function of the registers that `PROC` reads and of its input words, all NaNs being one
(43_frame_processor.md R165, R167). -/

namespace Sys2Proof.Machine

/-! ### The registers that `PROC` reads, without NaN patterns -/

/-- The parameter registers that `PROC` reads, with `z` in the others: `TRIG` and `REL` read `ATTACK` and `RELEASE`, and
nothing reads `BASECUT`. -/
def onlyRead {α : Type} (z : α) (p : Params α) : Params α := { p with basecut := z, attack := z, release := z }

/-- What the registers are to `PROC`: in binary32 values, all NaNs being one, and in exact arithmetic reals. -/
structure Registers where
  params : Params F
  env : Env F
  ladder : Ladder F
  real : RealBank

/-- The registers of a state that `PROC` reads. -/
def State.registers (s : State) : Registers where
  params := mapParams plainOfBits (onlyRead 0 s.params)
  env := mapEnv plainOfBits s.env
  ladder := mapLadder plainOfBits s.ladder
  real := { s.real with obuf := [] }

/-- `registersAgree` is to have the same registers. -/
theorem registersAgree_iff {s t : State} : registersAgree s t ↔ s.registers = t.registers := by
  simp only [registersAgree, sameUpToNan_iff, State.registers, State.exactEnv, Registers.mk.injEq, mapParams, onlyRead,
    mapEnv, mapLadder, Params.mk.injEq, Env.mk.injEq, Ladder.mk.injEq, RealBank.mk.injEq]
  constructor
  · rintro ⟨hst, hnote, hcut, hres, hmod, hkey, hdec, hsus, hcon, hev, het, her, h1, h2, h3, h4, hl, -, hrev, hret,
      hrer⟩
    simp only [*, and_self]
  · rintro ⟨⟨hcut, hres, hmod, hkey, hnote, -, -, hdec, hsus, -, hcon⟩, ⟨hst, hev, het, her⟩, ⟨h1, h2, h3, h4⟩, hl,
      hrev, hret, hrer, -⟩
    simp only [*, and_self]

/-! ### The sample step as a function of the registers -/

/-- The real that exact arithmetic reads in a value (log entry 21). -/
def F.real : F → ℚ
  | .nan _ => Config.freeReal none
  | .inf neg => Config.freeReal (some neg)
  | .fin neg u => F.toRat (.fin neg u)

/-- No word is read as another real than any other of the same plain value. -/
theorem real_plainOfBits (w : Word) : (plainOfBits w).real = realOfBits w := by
  unfold plainOfBits realOfBits
  cases f32OfBits w <;> rfl

/-- A sample step in binary32, on the registers. -/
def Registers.nextBinary32 (c : Config) (x : F) (r : Registers) : Registers :=
  let e := mapEnv F.plain (envTick (Num.binary32 c.exp2) (configConsts c) r.params r.env)
  { r with
    env := e
    ladder := mapLadder F.plain (ladderStep (Num.binary32 c.exp2) x (compose (Num.binary32 c.exp2) r.params e)
      (resonanceOperand (Num.binary32 c.exp2) (configConsts c) r.params) r.ladder) }

/-- A sample step in exact arithmetic, on the registers. -/
def Registers.nextExact (c : Config) (x : F) (r : Registers) : Registers :=
  let p := mapParams F.real r.params
  let e := envTick exactNum (exactConfigConsts c) p ⟨r.env.stage, r.real.ev, r.real.et, r.real.er⟩
  { r with
    env := { r.env with stage := e.stage }
    real := ⟨ladderStep (Num.power c.exp2) (.ofRat x.real)
      (compose (Num.power c.exp2) (mapParams .ofRat p) (mapEnv .ofRat e))
      (resonanceOperand (Num.power c.exp2) (mapConsts .ofRat (exactConfigConsts c)) (mapParams .ofRat p))
      r.real.ladder, e.ev, e.et, e.er, []⟩ }

/-- A sample step on the registers, for an input word of the value `x`. -/
def Registers.next (c : Config) (x : F) (r : Registers) : Registers :=
  match c.num with
  | .binary32 => r.nextBinary32 c x
  | .exact => r.nextExact c x

/-- Every register of the envelope has a word, or is a NaN that an operation made. -/
structure StorableEnv (e : Env F) : Prop where
  ev : e.ev.Storable
  et : e.et.Storable
  er : e.er.Storable

theorem storableEnv_envValues (s : State) : StorableEnv s.envValues :=
  ⟨storable_f32OfBits _, storable_f32OfBits _, storable_f32OfBits _⟩

theorem storableEnv_trigger (s : State) : StorableEnv (envTrigger s.f32Num s.consts s.paramValues) :=
  ⟨.inr isLevel32_zero.held, .inr isLevel32_one.held, storable_div _ _⟩

theorem storableEnv_release (s : State) : StorableEnv (envRelease s.f32Num s.consts s.paramValues s.envValues) :=
  ⟨storable_f32OfBits _, .inr isLevel32_zero.held, storable_div _ _⟩

theorem storableEnv_envTick (s : State) : StorableEnv (envTick s.f32Num s.consts s.paramValues s.envValues) := by
  have hev := storable_envTick_ev s
  obtain ⟨-, het, her⟩ := storableEnv_envValues s
  cases hst : s.envValues.stage with
  | attack =>
    rw [envTick_attack _ _ _ hst] at hev ⊢
    split_ifs at hev ⊢
    · exact ⟨hev, storable_sustain s, storable_div _ _⟩
    · exact ⟨hev, het, her⟩
  | decay =>
    rw [envTick_decay _ _ _ hst] at hev ⊢
    split_ifs at hev ⊢ <;> exact ⟨hev, het, her⟩
  | release =>
    rw [envTick_release _ _ _ hst] at hev ⊢
    split_ifs at hev ⊢ <;> exact ⟨hev, het, her⟩
  | sustain => rw [envTick_sustain _ _ _ hst]; exact storableEnv_envValues s
  | idle => rw [envTick_idle _ _ _ hst]; exact storableEnv_envValues s

theorem putEnv_registers (s : State) {e : Env F} (he : StorableEnv e) :
    (s.putEnv e).registers = { s.registers with env := mapEnv F.plain e } := by
  simp only [State.registers, putEnv_params, putEnv_env, putEnv_ladder, putEnv_real, mapEnv,
    plainOfBits_bitsOfF32 he.ev, plainOfBits_bitsOfF32 he.et, plainOfBits_bitsOfF32 he.er]

theorem tick_registers_binary32 {s : State} (hnum : s.cfg.num = .binary32) :
    s.tick.registers = { s.registers with
      env := mapEnv F.plain (envTick s.f32Num s.consts s.registers.params s.registers.env) } := by
  rw [tick_binary32 hnum, putEnv_registers s (storableEnv_envTick s)]
  exact congrArg (fun e => { s.registers with env := e })
    (envTick_plain s.cfg.exp2 s.consts s.paramValues s.envValues).symm

/-- The filter step reads no NaN pattern. -/
theorem filterStep_registers (s : State) (x : Word) :
    s.filterStep x = ladderStep s.f32Num (plainOfBits x) (compose s.f32Num s.registers.params s.registers.env)
      (resonanceOperand s.f32Num s.consts s.registers.params) s.registers.ladder := by
  have hcut : compose s.f32Num s.registers.params s.registers.env = compose s.f32Num s.paramValues s.envValues :=
    compose_plain s.cfg.exp2 s.paramValues s.envValues
  have hres : resonanceOperand s.f32Num s.consts s.registers.params =
      resonanceOperand s.f32Num s.consts s.paramValues :=
    resonanceOperand_plain s.cfg.exp2 s.consts s.paramValues
  rw [hcut, hres]
  exact (ladderStep_plain s.cfg.exp2 s.ladderValues (f32OfBits x) _ _).symm

/-- Each result of the filter step has a word. -/
theorem putFilter_registers (s : State) (x : Word) (n : Nat) (y : F) :
    ((s.putLadder (s.filterStep x)).putSample n y).registers =
      { s.registers with ladder := mapLadder F.plain (s.filterStep x) } := by
  have hstage (f g u v : F) (n : Nat) : plainOfBits (bitsOfF32 n (filterStage s.f32Num f g u v)) =
      (filterStage s.f32Num f g u v).plain := plainOfBits_bitsOfF32 (storable_add _ _) n
  have hladder : mapLadder plainOfBits (s.putLadder (s.filterStep x)).ladder = mapLadder F.plain (s.filterStep x) := by
    simp only [putLadder_ladder, mapLadder, State.filterStep, ladderStep, hstage]
  exact congrArg (fun l => { s.registers with ladder := l }) hladder

theorem sampleStep_registers_binary32 {s : State} (n : Nat) (hnum : s.cfg.num = .binary32) :
    (s.sampleStep n).registers = s.registers.nextBinary32 s.cfg (plainOfBits (s.ibuf.read n)) := by
  rw [sampleStep_binary32 n hnum, putFilter_registers, filterStep_registers, tick_registers_binary32 hnum, tick_f32Num,
    tick_consts]
  rfl

theorem sampleStep_registers_exact {s : State} (n : Nat) (hnum : s.cfg.num = .exact) :
    (s.sampleStep n).registers = s.registers.nextExact s.cfg (plainOfBits (s.ibuf.read n)) := by
  have hparams : mapParams F.real s.registers.params = onlyRead (realOfBits 0) s.exactParams := by
    simp only [State.registers, State.exactParams, mapParams, onlyRead, real_plainOfBits]
  rw [sampleStep_exact n hnum, tick_exact hnum, Registers.nextExact, hparams, real_plainOfBits]
  rfl

/-- A sample step is a function of the registers that `PROC` reads and of the input word. -/
theorem sampleStep_registers (s : State) (n : Nat) :
    (s.sampleStep n).registers = s.registers.next s.cfg (plainOfBits (s.ibuf.read n)) := by
  unfold Registers.next
  cases hnum : s.cfg.num
  case binary32 => exact sampleStep_registers_binary32 n hnum
  case exact => exact sampleStep_registers_exact n hnum

/-- The value of the word that is in `OBUF` once `S4` has been written to it, all NaNs being one (R164). -/
def Registers.output (c : Config) (r : Registers) : F :=
  match c.num with
  | .binary32 => r.ladder.s4
  | .exact => plainOfBits (bitsOfReal r.real.ladder.s4)

/-- The output word of a sample step is the new `S4`'s. -/
theorem sampleStep_output {s : State} {n size : Nat}
    (hwf : Memory.wf size s.obuf = true ∧ Memory.wf size s.real.obuf = true) :
    plainOfBits ((s.sampleStep n).outputBits n) = (s.sampleStep n).registers.output s.cfg := by
  unfold Registers.output
  cases hnum : s.cfg.num
  case binary32 =>
    have hs4 : (s.tick.filterStep (s.ibuf.read n)).s4.Storable := storable_add _ _
    rw [outputBits_binary32 (by simpa using hnum), sampleStep_obuf_read hnum hwf.1, plainOfBits_bitsOfF32 hs4]
    simp only [State.registers, sampleStep_ladder n hnum, mapLadder, plainOfBits_bitsOfF32 hs4]
  case exact =>
    rw [outputBits_exact (by simpa using hnum), sampleStep_real_obuf_read hnum hwf.2]
    rfl

/-! ### The frame as a function of the registers and the input words (R165, R167) -/

/-- The registers after a sample step for each input value. -/
def Registers.run (c : Config) : List F → Registers → Registers
  | [], r => r
  | x :: xs, r => Registers.run c xs (r.next c x)

/-- The output values of these sample steps. -/
def Registers.outputs (c : Config) : List F → Registers → List F
  | [], _ => []
  | x :: xs, r => (r.next c x).output c :: Registers.outputs c xs (r.next c x)

theorem Registers.run_append (c : Config) (xs ys : List F) (r : Registers) :
    r.run c (xs ++ ys) = (r.run c xs).run c ys := by
  induction xs generalizing r with
  | nil => rfl
  | cons x xs ih => exact ih _

theorem Registers.outputs_append (c : Config) (xs ys : List F) (r : Registers) :
    r.outputs c (xs ++ ys) = r.outputs c xs ++ (r.run c xs).outputs c ys := by
  induction xs generalizing r with
  | nil => rfl
  | cons x xs ih => exact congrArg (_ :: ·) (ih _)

@[simp] theorem Registers.length_outputs (c : Config) (xs : List F) (r : Registers) :
    (r.outputs c xs).length = xs.length := by
  induction xs generalizing r with
  | nil => rfl
  | cons x xs ih => exact congrArg (· + 1) (ih _)

/-- The values of the input words `n` to `n + k - 1`. -/
def State.inputs (s : State) (n k : Nat) : List F := (List.range' n k).map fun i => plainOfBits (s.ibuf.read i)

theorem inputs_sampleStep (s : State) (m n k : Nat) : (s.sampleStep m).inputs n k = s.inputs n k := by
  simp only [State.inputs, sampleStep_ibuf]

theorem sampleSteps_registers (s : State) (n k : Nat) :
    (State.sampleSteps k n s).registers = s.registers.run s.cfg (s.inputs n k) := by
  induction k generalizing n s with
  | zero => rfl
  | succ k ih =>
    rw [sampleSteps_succ, ih, inputs_sampleStep, sampleStep_registers, sampleStep_cfg]
    rfl

/-- The output words of the loop. -/
theorem sampleSteps_outputs {s : State} {n k size : Nat}
    (hwf : Memory.wf size s.obuf = true ∧ Memory.wf size s.real.obuf = true) (hk : n + k ≤ size) :
    ((List.range' n k).map fun i => plainOfBits ((State.sampleSteps k n s).outputBits i)) =
      s.registers.outputs s.cfg (s.inputs n k) := by
  induction k generalizing n s with
  | zero => rfl
  | succ k ih =>
    have hhead := sampleSteps_outputBits_own s n (Nat.zero_lt_succ k)
    have htail := ih (s := s.sampleStep n) (sampleStep_obuf_wf s n (by omega) hwf) (n := n + 1) (by omega)
    rw [Nat.add_zero, sampleSteps_zero] at hhead
    rw [inputs_sampleStep, sampleStep_cfg] at htail
    rw [List.range'_succ, List.map_cons, hhead, sampleStep_output hwf, sampleSteps_succ, htail, sampleStep_registers]
    rfl

/-- The registers after a frame. -/
theorem exec_proc_registers {s t : State} (h : exec .proc s = .next t) :
    t.registers = s.registers.run s.cfg (s.inputs 0 s.cfg.frameSize) := by
  cases h
  exact sampleSteps_registers { s with busy := true } 0 s.cfg.frameSize

/-- The output words of a frame. -/
theorem exec_proc_outputs {s t : State} (hs : s.buffersWf = true) (h : exec .proc s = .next t) :
    ((List.range s.cfg.frameSize).map fun i => plainOfBits (t.outputBits i)) =
      s.registers.outputs s.cfg (s.inputs 0 s.cfg.frameSize) := by
  obtain ⟨-, hwf⟩ := (buffersWf_iff s).1 hs
  cases h
  rw [List.range_eq_range']
  exact sampleSteps_outputs (s := { s with busy := true }) hwf (Nat.zero_add _).le

/-- `PROC` leaves the configuration, the parameters, the input buffer and the responses. -/
theorem exec_proc_frame {s t : State} (h : exec .proc s = .next t) :
    t.cfg = s.cfg ∧ t.params = s.params ∧ t.ibuf = s.ibuf ∧ t.resp = s.resp := by
  cases h
  simp

theorem inputs_congr {s s' : State} {n k : Nat}
    (h : ∀ i, n ≤ i → i < n + k → plainOfBits (s.ibuf.read i) = plainOfBits (s'.ibuf.read i)) :
    s.inputs n k = s'.inputs n k := by
  refine List.map_congr_left fun i hi => ?_
  obtain ⟨h1, h2⟩ := List.mem_range'_1.1 hi
  exact h i h1 h2

/-- Settles O46: the registers and the output words of the frame are the same function of the same registers and
inputs. -/
theorem procIsDeterministicUpToNan : Obligations.ProcIsDeterministicUpToNan := by
  unfold Obligations.ProcIsDeterministicUpToNan
  rintro s s' ⟨hcfg, hreg, hibuf⟩ hs hs'
  obtain ⟨t, ht⟩ := exec_next .proc s
  obtain ⟨t', ht'⟩ := exec_next .proc s'
  obtain ⟨htcfg, -, htibuf, -⟩ := exec_proc_frame ht
  obtain ⟨htcfg', -, htibuf', -⟩ := exec_proc_frame ht'
  have hinputs : s.inputs 0 s.cfg.frameSize = s'.inputs 0 s.cfg.frameSize :=
    inputs_congr fun i _ hi => sameUpToNan_iff.1 (hibuf i (by omega))
  rw [registersAgree_iff] at hreg
  have hwords := exec_proc_outputs hs ht
  rw [hinputs, hreg, hcfg, ← exec_proc_outputs hs' ht', List.map_inj_left] at hwords
  refine ⟨t, t', ht, ht', ⟨by rw [htcfg, htcfg', hcfg], registersAgree_iff.2 ?_, ?_⟩, fun i hi => ?_⟩
  · rw [exec_proc_registers ht, exec_proc_registers ht', hinputs, hreg, hcfg]
  · rw [htcfg, htibuf, htibuf']
    exact hibuf
  · exact sameUpToNan_iff.2 (hwords i (List.mem_range.2 (hcfg ▸ hi)))

end Sys2Proof.Machine

/-! Sessions (43_frame_processor.md R168): a stretch of a signal does to the registers what its words do one by one,
whatever the frame size, and a control command keeps two instances alike. -/

namespace Sys2Proof.Machine

/-! ### Lists of commands -/

theorem execAll_append {is js : List Instr} {s t : State} (h : execAll is s = .next t) :
    execAll (is ++ js) s = execAll js t := by
  induction is generalizing s with
  | nil => cases h; rfl
  | cons i is ih =>
    obtain ⟨u, hu⟩ := exec_next i s
    rw [execAll, hu] at h
    rw [List.cons_append, execAll, hu]
    exact ih h

theorem execAll_cons {i : Instr} {is : List Instr} {s t : State} (h : exec i s = .next t) :
    execAll (i :: is) s = execAll is t := by
  rw [execAll, h]

theorem execAll_buffersWf {is : List Instr} {s t : State} (hs : s.buffersWf = true) (h : execAll is s = .next t) :
    t.buffersWf = true := by
  induction is generalizing s with
  | nil => cases h; exact hs
  | cons i is ih =>
    obtain ⟨u, hu⟩ := exec_next i s
    rw [execAll_cons hu] at h
    exact ih (exec_buffersWf hs hu) h

/-! ### The commands of one frame -/

/-- The host stores the words of a frame (R190): nothing but the input buffer changes. -/
theorem execAll_stin (ws : List Word) {s : State} {n : Nat} (hs : s.buffersWf = true)
    (hn : n + ws.length ≤ s.cfg.frameSize) :
    ∃ m, execAll ((ws.zipIdx n).map fun (w, i) => .stin i w) s = .next { s with ibuf := m } ∧
      (∀ i < n, m.read i = s.ibuf.read i) ∧ ({ s with ibuf := m } : State).inputs n ws.length = ws.map plainOfBits := by
  induction ws generalizing s n with
  | nil => exact ⟨s.ibuf, rfl, fun _ _ => rfl, rfl⟩
  | cons w ws ih =>
    rw [List.length_cons] at hn
    have hput : exec (.stin n w) s = .next (s.putInput n w) := by rw [exec_stin, if_pos (by omega)]
    obtain ⟨m, hexec, hbelow, hinputs⟩ := ih (n := n + 1) (exec_buffersWf hs hput) (by rw [putInput_cfg]; omega)
    have hn' : m.read n = w := by
      rw [hbelow n (Nat.lt_succ_self n), putInput_ibuf, memory_read_write ((buffersWf_iff s).1 hs).1]
    refine ⟨m, ?_, fun i hi => ?_, ?_⟩
    · rw [List.zipIdx_cons, List.map_cons, execAll_cons hput]
      exact hexec
    · rw [hbelow i (by omega), putInput_ibuf, memory_read_write_ne (by omega)]
    · rw [State.inputs, List.length_cons, List.range'_succ, List.map_cons, List.map_cons]
      exact congrArg₂ _ (congrArg plainOfBits hn') hinputs

/-- The host reads output words (R191): each is a response, and nothing else changes. -/
theorem execAll_ldout (is : List Nat) {s : State} (his : ∀ i ∈ is, i < s.cfg.frameSize) :
    execAll (is.map .ldout) s = .next { s with resp := s.resp ++ is.map s.outputBits } := by
  induction is generalizing s with
  | nil => simp [execAll]
  | cons i is ih =>
    have hread : exec (.ldout i) s = .next (s.respond (s.outputBits i)) := by
      rw [exec_ldout, if_pos (his i List.mem_cons_self)]
    have hrest := ih (s := s.respond (s.outputBits i)) fun j hj => his j (List.mem_cons_of_mem _ hj)
    rw [respond_resp, List.append_assoc] at hrest
    rw [List.map_cons, execAll_cons hread]
    exact hrest

/-! ### A stretch of a signal -/

/-- From `s` to `t` the words `ws` of a signal were processed: sample by sample they have made the registers what they
are and the responses that were added. -/
structure Hears (s : State) (ws : List Word) (t : State) : Prop where
  cfg : t.cfg = s.cfg
  params : t.params = s.params
  registers : t.registers = s.registers.run s.cfg (ws.map plainOfBits)
  responses : ∃ ys, t.resp = s.resp ++ ys ∧ ys.map plainOfBits = s.registers.outputs s.cfg (ws.map plainOfBits)

theorem Hears.nil (s : State) : Hears s [] s := ⟨rfl, rfl, rfl, [], (List.append_nil _).symm, rfl⟩

theorem Hears.append {s t u : State} {vs ws : List Word} (h1 : Hears s vs t) (h2 : Hears t ws u) :
    Hears s (vs ++ ws) u := by
  obtain ⟨ys, hys, houts⟩ := h1.responses
  obtain ⟨zs, hzs, houts'⟩ := h2.responses
  refine ⟨h2.cfg.trans h1.cfg, h2.params.trans h1.params, ?_, ys ++ zs, by rw [hzs, hys, List.append_assoc], ?_⟩
  · rw [h2.registers, h1.registers, h1.cfg, List.map_append, Registers.run_append]
  · rw [List.map_append, List.map_append, houts, houts', h1.registers, h1.cfg, Registers.outputs_append]

/-- A frame of the instance's size is heard. -/
theorem execAll_frameCommands {s : State} {frame : List Word} (hs : s.buffersWf = true)
    (hlen : frame.length = s.cfg.frameSize) :
    ∃ t, execAll (frameCommands frame) s = .next t ∧ Hears s frame t := by
  obtain ⟨m, hstin, -, hinputs⟩ := execAll_stin frame (n := 0) hs (by omega)
  obtain ⟨u, hu⟩ := exec_next .proc { s with ibuf := m }
  obtain ⟨hcfg, hparams, -, hresp⟩ := exec_proc_frame hu
  have hregs := exec_proc_registers hu
  have houts := exec_proc_outputs (execAll_buffersWf hs hstin) hu
  have hread := execAll_ldout (List.range frame.length) (s := u) fun i hi => by
    rw [hcfg]
    exact (List.mem_range.1 hi).trans_eq hlen
  rw [hlen] at hinputs
  refine ⟨{ u with resp := u.resp ++ (List.range frame.length).map u.outputBits }, ?_, hcfg, hparams,
    hregs.trans (congrArg (fun xs => s.registers.run s.cfg xs) hinputs), _, congrArg (· ++ _) hresp, ?_⟩
  · rw [frameCommands, List.append_assoc, execAll_append hstin, execAll_append (execAll_cons hu), hread]
  · rw [List.map_map, hlen]
    exact houts.trans (congrArg (fun xs => s.registers.outputs s.cfg xs) hinputs)

/-- The first `q` frames of a signal are heard. -/
theorem execAll_frames {s : State} (signal : List Word) (hs : s.buffersWf = true) {q : Nat}
    (hq : q * s.cfg.frameSize ≤ signal.length) :
    ∃ t, execAll ((List.range q).flatMap fun j =>
        frameCommands ((signal.drop (j * s.cfg.frameSize)).take s.cfg.frameSize)) s = .next t ∧
      Hears s (signal.take (q * s.cfg.frameSize)) t := by
  induction q with
  | zero => exact ⟨s, rfl, by rw [Nat.zero_mul, List.take_zero]; exact .nil s⟩
  | succ q ih =>
    rw [Nat.succ_mul] at hq
    obtain ⟨t, ht, hheard⟩ := ih (by omega)
    obtain ⟨u, hu, hframe⟩ := execAll_frameCommands (s := t)
      (frame := (signal.drop (q * s.cfg.frameSize)).take s.cfg.frameSize) (execAll_buffersWf hs ht) (by
        rw [hheard.cfg, List.length_take, List.length_drop]
        omega)
    refine ⟨u, ?_, ?_⟩
    · rw [List.range_succ, List.flatMap_append, execAll_append ht, List.flatMap_singleton, hu]
    · rw [Nat.succ_mul, List.take_add]
      exact hheard.append hframe

/-- A stretch of whole frames is heard. -/
theorem execAll_signalCommands {s : State} {signal : List Word} (hs : s.buffersWf = true)
    (hdvd : s.cfg.frameSize ∣ signal.length) :
    ∃ t, execAll (signalCommands s.cfg.frameSize signal) s = .next t ∧ Hears s signal t := by
  have hwhole : signal.length / s.cfg.frameSize * s.cfg.frameSize = signal.length := Nat.div_mul_cancel hdvd
  obtain ⟨t, ht, hheard⟩ := execAll_frames signal hs hwhole.le
  rw [hwhole, List.take_length] at hheard
  exact ⟨t, ht, hheard⟩

/-! ### Two instances of different frame sizes -/

/-- The sample steps on the registers do not read the frame size. -/
theorem Registers.run_frameSize (c : Config) (k : Nat) (xs : List F) (r : Registers) :
    r.run { c with frameSize := k } xs = r.run c xs := by
  induction xs generalizing r with
  | nil => rfl
  | cons x xs ih => exact ih _

theorem Registers.outputs_frameSize (c : Config) (k : Nat) (xs : List F) (r : Registers) :
    r.outputs { c with frameSize := k } xs = r.outputs c xs := by
  induction xs generalizing r with
  | nil => rfl
  | cons x xs ih => exact congrArg (_ :: ·) (ih _)

/-- Two instances that differ in their frame size, with the same parameters and, up to NaN patterns, the same registers:
what a session in frames of either size keeps. -/
structure Alike (s s' : State) : Prop extends SameInstance s s' where
  registers : s'.registers = s.registers

namespace Alike

variable {s s' : State} (h : Alike s s')

include h

theorem setParams (p : Params Word) : Alike { s with params := p } { s' with params := p } where
  cfg := h.cfg
  params := rfl
  registers := congrArg (fun r => { r with params := mapParams plainOfBits (onlyRead 0 p) }) h.registers

theorem putEnv {e e' : Env F} (he : StorableEnv e) (he' : StorableEnv e')
    (heq : mapEnv F.plain e' = mapEnv F.plain e) : Alike (s.putEnv e) (s'.putEnv e') where
  cfg := h.cfg
  params := h.params
  registers := by rw [putEnv_registers s he, putEnv_registers s' he', heq, h.registers]

theorem putEnvExact (e : Env ℚ) : Alike (s.putEnvExact e) (s'.putEnvExact e) where
  cfg := h.cfg
  params := h.params
  registers := congrArg (fun r : Registers => { r with
    env := { r.env with stage := e.stage }, real := { r.real with ev := e.ev, et := e.et, er := e.er } }) h.registers

theorem exactEnv : s'.exactEnv = s.exactEnv :=
  congrArg (fun r : Registers => (⟨r.env.stage, r.real.ev, r.real.et, r.real.er⟩ : Env ℚ)) h.registers

/-- `TRIG` keeps two instances alike. -/
theorem trig {t t' : State} (ht : exec .trig s = .next t) (ht' : exec .trig s' = .next t') : Alike t t' := by
  cases hnum : s.cfg.num
  case binary32 =>
    rw [exec_trig_binary32 hnum] at ht
    rw [exec_trig_binary32 (h.num.trans hnum)] at ht'
    cases ht
    cases ht'
    refine h.putEnv (storableEnv_trigger s) (storableEnv_trigger s') ?_
    rw [h.f32Num, h.consts, h.paramValues]
  case exact =>
    rw [exec_trig_exact hnum] at ht
    rw [exec_trig_exact (h.num.trans hnum), h.exactConsts, h.exactParams] at ht'
    cases ht
    cases ht'
    exact h.putEnvExact _

/-- `REL` keeps two instances alike: of the envelope's registers it moves `EV`. -/
theorem rel {t t' : State} (ht : exec .rel s = .next t) (ht' : exec .rel s' = .next t') : Alike t t' := by
  cases hnum : s.cfg.num
  case binary32 =>
    rw [exec_rel_binary32 hnum] at ht
    rw [exec_rel_binary32 (h.num.trans hnum)] at ht'
    cases ht
    cases ht'
    have hev : plainOfBits s'.env.ev = plainOfBits s.env.ev :=
      (congrArg (fun r : Registers => r.env.ev) h.registers :)
    refine h.putEnv (storableEnv_release s) (storableEnv_release s') ?_
    rw [h.f32Num, h.consts, h.paramValues]
    exact congrArg (fun v => { mapEnv F.plain (envRelease s.f32Num s.consts s.paramValues s.envValues) with ev := v })
      hev
  case exact =>
    rw [exec_rel_exact hnum] at ht
    rw [exec_rel_exact (h.num.trans hnum), h.exactConsts, h.exactParams, h.exactEnv] at ht'
    cases ht
    cases ht'
    exact h.putEnvExact _

/-- A control command keeps two instances alike. -/
theorem exec_control {i : Instr} {t t' : State} (hi : isControlCommand i = true) (ht : exec i s = .next t)
    (ht' : exec i s' = .next t') : Alike t t' := by
  cases i with
  | setcut | setres | setmod | setenv | setkey =>
    cases ht
    cases ht'
    rw [h.params]
    exact h.setParams _
  | trig => exact h.trig ht ht'
  | rel => exact h.rel ht ht'
  | proc | getcut | getres | stin | ldout => cases hi

end Alike

/-- A control command leaves the configuration and the responses. -/
theorem exec_control_frame {i : Instr} {s t : State} (hi : isControlCommand i = true) (h : exec i s = .next t) :
    t.cfg = s.cfg ∧ t.resp = s.resp := by
  cases i with
  | setcut | setres | setmod | setenv | setkey => cases h; exact ⟨rfl, rfl⟩
  | trig | rel =>
    cases h
    split <;> exact ⟨rfl, rfl⟩
  | proc | getcut | getres | stin | ldout => cases hi

/-- From `s` to `t` and from `s'` to `t'` two instances stay themselves and alike, and add `n` responses that agree up
to NaN patterns. -/
structure AnswerAlike (s s' t t' : State) (n : Nat) : Prop where
  alike : Alike t t'
  cfg : t.cfg = s.cfg
  cfg' : t'.cfg = s'.cfg
  responses : ∃ ys ys', t.resp = s.resp ++ ys ∧ t'.resp = s'.resp ++ ys' ∧ ys.length = n ∧
    ys.map plainOfBits = ys'.map plainOfBits

theorem AnswerAlike.of_noResponse {s s' t t' : State} (h : Alike t t') (ht : t.cfg = s.cfg ∧ t.resp = s.resp)
    (ht' : t'.cfg = s'.cfg ∧ t'.resp = s'.resp) : AnswerAlike s s' t t' 0 :=
  ⟨h, ht.1, ht'.1, [], [], by rw [ht.2, List.append_nil], by rw [ht'.2, List.append_nil], rfl, rfl⟩

theorem AnswerAlike.trans {s s' t t' u u' : State} {m n : Nat} (h1 : AnswerAlike s s' t t' m)
    (h2 : AnswerAlike t t' u u' n) : AnswerAlike s s' u u' (m + n) := by
  obtain ⟨ys, ys', hys, hys', hlen, heq⟩ := h1.responses
  obtain ⟨zs, zs', hzs, hzs', hlen', heq'⟩ := h2.responses
  refine ⟨h2.alike, h2.cfg.trans h1.cfg, h2.cfg'.trans h1.cfg', ys ++ zs, ys' ++ zs', ?_, ?_, ?_, ?_⟩
  · rw [hzs, hys, List.append_assoc]
  · rw [hzs', hys', List.append_assoc]
  · rw [List.length_append, hlen, hlen']
  · rw [List.map_append, List.map_append, heq, heq']

/-- Two instances that are alike answer a stretch of a signal alike. -/
theorem Alike.hears {s s' t t' : State} {ws : List Word} (h : Alike s s') (ht : Hears s ws t) (ht' : Hears s' ws t') :
    AnswerAlike s s' t t' ws.length := by
  obtain ⟨ys, hys, houts⟩ := ht.responses
  obtain ⟨ys', hys', houts'⟩ := ht'.responses
  rw [h.registers, h.cfg, Registers.outputs_frameSize] at houts'
  refine ⟨⟨⟨?_, ?_⟩, ?_⟩, ht.cfg, ht'.cfg, ys, ys', hys, hys', ?_, houts.trans houts'.symm⟩
  · rw [ht'.cfg, ht.cfg]
    exact h.cfg
  · rw [ht'.params, ht.params]
    exact h.params
  · rw [ht'.registers, ht.registers, h.registers, h.cfg, Registers.run_frameSize]
  · simpa using congrArg List.length houts

/-- Two instances that are alike answer control commands alike. -/
theorem Alike.execAll_control {is : List Instr} {s s' : State} (h : Alike s s')
    (his : ∀ i ∈ is, isControlCommand i = true) :
    ∃ t t', execAll is s = .next t ∧ execAll is s' = .next t' ∧ AnswerAlike s s' t t' 0 := by
  induction is generalizing s s' with
  | nil => exact ⟨s, s', rfl, rfl, .of_noResponse h ⟨rfl, rfl⟩ ⟨rfl, rfl⟩⟩
  | cons i is ih =>
    have hi := his i List.mem_cons_self
    obtain ⟨u, hu⟩ := exec_next i s
    obtain ⟨u', hu'⟩ := exec_next i s'
    have hstep := AnswerAlike.of_noResponse (h.exec_control hi hu hu') (exec_control_frame hi hu)
      (exec_control_frame hi hu')
    obtain ⟨t, t', ht, ht', hrest⟩ := ih hstep.alike fun j hj => his j (List.mem_cons_of_mem _ hj)
    exact ⟨t, t', (execAll_cons hu).trans ht, (execAll_cons hu').trans ht', hstep.trans hrest⟩

/-- Two instances that are alike answer a session alike, each in frames of its own size. -/
theorem Alike.execAll_session (session : List (List Instr × List Word)) {s s' : State} (h : Alike s s')
    (hs : s.buffersWf = true) (hs' : s'.buffersWf = true)
    (hsession : ∀ stretch ∈ session, (∀ i ∈ stretch.1, isControlCommand i = true) ∧
      s.cfg.frameSize ∣ stretch.2.length ∧ s'.cfg.frameSize ∣ stretch.2.length) :
    ∃ t t', execAll (sessionCommands s.cfg.frameSize session) s = .next t ∧
      execAll (sessionCommands s'.cfg.frameSize session) s' = .next t' ∧
      AnswerAlike s s' t t' (session.flatMap Prod.snd).length := by
  induction session generalizing s s' with
  | nil => exact ⟨s, s', rfl, rfl, .of_noResponse h ⟨rfl, rfl⟩ ⟨rfl, rfl⟩⟩
  | cons stretch session ih =>
    obtain ⟨hcontrol, hdvd, hdvd'⟩ := hsession stretch List.mem_cons_self
    obtain ⟨u, u', hu, hu', hbefore⟩ := h.execAll_control hcontrol
    obtain ⟨v, hv, hheard⟩ := execAll_signalCommands (execAll_buffersWf hs hu) (hbefore.cfg ▸ hdvd)
    obtain ⟨v', hv', hheard'⟩ := execAll_signalCommands (execAll_buffersWf hs' hu') (hbefore.cfg' ▸ hdvd')
    have hstretch := hbefore.trans (hbefore.alike.hears hheard hheard')
    have hwf := execAll_buffersWf (execAll_buffersWf hs hu) hv
    have hwf' := execAll_buffersWf (execAll_buffersWf hs' hu') hv'
    obtain ⟨t, t', ht, ht', hafter⟩ := ih hstretch.alike hwf hwf' fun x hx => by
      rw [hstretch.cfg, hstretch.cfg']
      exact hsession x (List.mem_cons_of_mem _ hx)
    rw [hbefore.cfg] at hv
    rw [hbefore.cfg'] at hv'
    rw [hstretch.cfg] at ht
    rw [hstretch.cfg'] at ht'
    refine ⟨t, t', ?_, ?_, ?_⟩
    · rw [sessionCommands, List.flatMap_cons, List.append_assoc, execAll_append hu, execAll_append hv]
      exact ht
    · rw [sessionCommands, List.flatMap_cons, List.append_assoc, execAll_append hu', execAll_append hv']
      exact ht'
    · rw [List.flatMap_cons, List.length_append, ← Nat.zero_add stretch.2.length]
      exact hstretch.trans hafter

/-- Settles O48: both instances hear the session's words one by one. -/
theorem framesOfAnySizeAgree : Obligations.FramesOfAnySizeAgree := by
  unfold Obligations.FramesOfAnySizeAgree
  intro s s' session hcfg _ _ hparams hreg hs hs' hsession
  have halike : Alike s s' := ⟨⟨hcfg, hparams.symm⟩, (registersAgree_iff.1 hreg).symm⟩
  obtain ⟨t, t', ht, ht', hanswer⟩ := halike.execAll_session session hs hs' hsession
  obtain ⟨ys, ys', hys, hys', hlen, heq⟩ := hanswer.responses
  refine ⟨t, t', ys, ys', ht, ht', hys, hys', hlen, ?_, registersAgree_iff.2 hanswer.alike.registers.symm⟩
  simp only [sameUpToNan_iff]
  rwa [← List.forall₂_map_right_iff, ← List.forall₂_map_left_iff, List.forall₂_eq_eq_eq]

end Sys2Proof.Machine

/-! The host's commands (44_host_commands.md R180 to R191): a setter writes the registers it names, a getter responds
with one, `STIN` and `LDOUT` reach one buffer word or fault on its index; each leaves everything else unchanged. -/

namespace Sys2Proof.Machine

/-! ### The command cycle (R180) -/

/-- Settles O7, by the decoder's answer at the words received and offered. -/
theorem stepRunsDecodedCommand : Obligations.StepRunsDecodedCommand := by
  unfold Obligations.StepRunsDecodedCommand
  exact fun s i rest haccepting hdecode => step_of_cmd haccepting hdecode

/-! ### What an update leaves unchanged -/

@[simp] theorem sameLadder_refl (s : State) : sameLadder s s := ⟨rfl, rfl⟩
@[simp] theorem sameEnvelope_refl (s : State) : sameEnvelope s s := ⟨rfl, rfl⟩
@[simp] theorem sameBuffers_refl (s : State) : sameBuffers s s := ⟨fun _ => rfl, fun _ => rfl, fun _ => rfl⟩
@[simp] theorem sameControl_refl (s : State) : sameControl s s := ⟨rfl, rfl, rfl, rfl, rfl, rfl, rfl⟩

theorem sameButParams_setParams (s : State) (p : Params Word) : sameButParams s { s with params := p } :=
  ⟨sameLadder_refl s, sameEnvelope_refl s, sameBuffers_refl s, sameControl_refl s, rfl, rfl⟩

theorem respond_sameButResponses (s : State) (w : Word) : sameButResponses s (s.respond w) :=
  ⟨rfl, sameLadder_refl s, sameEnvelope_refl s, sameBuffers_refl s, sameControl_refl s, rfl⟩

theorem putInput_sameControl (s : State) (i : Nat) (w : Word) : sameControl s (s.putInput i w) := sameControl_refl s

/-- What the fault pins read after an index that is no word of the buffer (60_exceptions.md R211, R214). -/
theorem raiseFault_bufferIndex_outputs (s : State) :
    (s.raiseFault .bufferIndex).faultOut = 1 ∧ (s.raiseFault .bufferIndex).fcodeOut = 2 := ⟨rfl, rfl⟩

/-! ### The setters and the read-back commands (R181 to R189) -/

/-- Settles O9, setter by setter: each replaces the parameter file and nothing else. -/
theorem settersStoreRawOperands : Obligations.SettersStoreRawOperands := by
  unfold Obligations.SettersStoreRawOperands
  refine fun s => ⟨fun v => ⟨rfl, ?setcut⟩, fun v => ⟨rfl, ?setres⟩, fun v => ⟨rfl, ?setmod⟩,
    fun a d u r c => ⟨rfl, ?setenv⟩, fun b k n => ⟨rfl, ?setkey⟩⟩
  case setcut => exact ⟨_, exec_setcut v s, rfl, sameButParams_setParams s _⟩
  case setres => exact ⟨_, exec_setres v s, rfl, sameButParams_setParams s _⟩
  case setmod => exact ⟨_, exec_setmod v s, rfl, sameButParams_setParams s _⟩
  case setenv => exact ⟨_, exec_setenv a d u r c s, rfl, sameButParams_setParams s _⟩
  case setkey => exact ⟨_, exec_setkey b k n s, rfl, toInt_i32Word, sameButParams_setParams s _⟩

/-- Settles O10: alone and after the matching setter. -/
theorem gettersRespondRawRegisters : Obligations.GettersRespondRawRegisters := by
  unfold Obligations.GettersRespondRawRegisters
  refine ⟨rfl, rfl, fun s => ⟨?getcut, ?getres, fun v => ?afterSetcut, fun v => ?afterSetres⟩⟩
  case getcut => exact ⟨_, exec_getcut s, respond_resp s _, respond_sameButResponses s _⟩
  case getres => exact ⟨_, exec_getres s, respond_resp s _, respond_sameButResponses s _⟩
  case afterSetcut =>
    rw [execAll_cons (exec_setcut v s), execAll_cons (exec_getcut _)]
    exact ⟨_, rfl, respond_resp _ v⟩
  case afterSetres =>
    rw [execAll_cons (exec_setres v s), execAll_cons (exec_getres _)]
    exact ⟨_, rfl, respond_resp _ v⟩

/-! ### The buffers (R190, R191) -/

theorem exec_stin_inside {s : State} {i : Nat} (h : i < s.cfg.frameSize) (v : Word) :
    exec (.stin i v) s = .next (s.putInput i v) := by rw [exec_stin, if_pos h]

theorem exec_stin_outside {s : State} {i : Nat} (h : ¬ i < s.cfg.frameSize) (v : Word) :
    exec (.stin i v) s = .next (s.raiseFault .bufferIndex) := by rw [exec_stin, if_neg h]

theorem exec_ldout_inside {s : State} {i : Nat} (h : i < s.cfg.frameSize) :
    exec (.ldout i) s = .next (s.respond (s.outputBits i)) := by rw [exec_ldout, if_pos h]

theorem exec_ldout_outside {s : State} {i : Nat} (h : ¬ i < s.cfg.frameSize) :
    exec (.ldout i) s = .next (s.raiseFault .bufferIndex) := by rw [exec_ldout, if_neg h]

/-- Settles O50, by the index on either side of the bound; inside, a read after the write. -/
theorem stinWritesOneInputWord : Obligations.StinWritesOneInputWord := by
  unfold Obligations.StinWritesOneInputWord
  refine fun s i v hwf => ⟨rfl, ?_⟩
  split_ifs with hi
  · exact ⟨_, exec_stin_inside hi v, memory_read_write hwf, fun j hj => memory_read_write_ne hj, fun _ => rfl,
      rfl, rfl, rfl, rfl, rfl, putInput_sameControl s i v, rfl⟩
  · exact ⟨_, exec_stin_outside hi v, rfl, raiseFault_bufferIndex_outputs s⟩

/-- Settles O51, by the index on either side of the bound. -/
theorem ldoutRespondsOneOutputWord : Obligations.LdoutRespondsOneOutputWord := by
  unfold Obligations.LdoutRespondsOneOutputWord
  refine fun s i => ⟨rfl, ?_⟩
  split_ifs with hi
  · exact ⟨_, exec_ldout_inside hi, respond_resp s _, fun hnum => by rw [respond_resp, outputBits_binary32 hnum],
      respond_sameButResponses s _⟩
  · exact ⟨_, exec_ldout_outside hi, rfl, raiseFault_bufferIndex_outputs s⟩

/-- The word of a real that a finite word encodes is that word, but for `-0.0` (log entry 21). -/
theorem bitsOfReal_ofRat_of_finite {w : Word} (h : (f32OfBits w).isFinite = true) (hz : w ≠ 0x80000000) :
    bitsOfReal (.ofRat (f32OfBits w).toRat) = w := by
  rw [bitsOfReal, toRat?_ofRat, Option.bind_some, wordOfRat_of_finite h hz, Option.getD_some]

/-- Settles O52: the response is the word of the real in `OBUF`, and reading a finite word gives its value. -/
theorem exactOutputWords : Obligations.ExactOutputWords := by
  unfold Obligations.ExactOutputWords
  refine ⟨fun s i w hnum hi hfinite hz hread => ⟨_, exec_ldout_inside hi, ?_⟩, fun w => realOfBits_of_finite⟩
  rw [respond_resp, outputBits_exact hnum, hread, bitsOfReal_ofRat_of_finite hfinite hz]

end Sys2Proof.Machine

/-! Faults (60_exceptions.md): which commands raise one (R210, R214), that a fault stays until a reset (R216), and that
no step stops the machine (R218). -/

namespace Sys2Proof.Machine

/-! ### The commands that fault (R210, R214) -/

/-- The commands that fault when they execute in `s`: buffer accesses at an index that is no word of the buffer. -/
def IndexFaults (s : State) (i : Instr) : Prop :=
  (∃ k v, i = .stin k v ∧ s.cfg.frameSize ≤ k) ∨ ∃ k, i = .ldout k ∧ s.cfg.frameSize ≤ k

theorem exec_fault_of_not_indexFaults {i : Instr} {s t : State} (h : exec i s = .next t) (hi : ¬ IndexFaults s i) :
    t.fault = s.fault := by
  cases i with
  | setcut | setres | setmod | setenv | setkey | getcut | getres => cases h; rfl
  | trig | rel =>
    cases h
    split <;> rfl
  | proc => cases h; simp
  | stin k v =>
    rw [exec_stin_inside (not_le.1 fun hk => hi (.inl ⟨k, v, rfl, hk⟩))] at h
    cases h
    rfl
  | ldout k =>
    rw [exec_ldout_inside (not_le.1 fun hk => hi (.inr ⟨k, rfl, hk⟩))] at h
    cases h
    rfl

/-- Settles O53: every other command leaves the latch, and a command that sets it gives the cause `BUFFER_INDEX`. -/
theorem onlyBufferCommandsFault : Obligations.OnlyBufferCommandsFault := by
  unfold Obligations.OnlyBufferCommandsFault
  intro i s t hs h ht
  have hset : t.fault ≠ s.fault := by simp [hs, ht]
  constructor
  · by_contra hi
    exact hset (exec_fault_of_not_indexFaults h hi)
  · rcases exec_fault h with ⟨hkept, -⟩ | ⟨-, hcode⟩
    · exact absurd hkept hset
    · exact hcode

/-! ### A fault stays (R216) -/

theorem core_run_succ {s t : State} (h : step s = .next t) (k : Nat) : core.run (k + 1) s = core.run k t := by
  simp only [Host.Core.run, show core.step s = .next t from h]

/-- The first step discards the words offered, and every later one finds none. -/
theorem core_run_of_fault {s : State} (hr : s.resetIn = false) (hb : s.busy = false) (hf : s.fault = true) (k : Nat) :
    core.run (k + 1) s = .next s.discard := by
  induction k generalizing s with
  | zero => exact core_run_succ (step_of_fault hr hb hf) 0
  | succ k ih =>
    calc core.run (k + 1 + 1) s = core.run (k + 1) s.discard := core_run_succ (step_of_fault hr hb hf) (k + 1)
      _ = .next s.discard.discard := ih (s := s.discard) hr hb hf
      _ = .next s.discard := rfl

/-- Settles O54: at least one step is a first step and the ones after it. -/
theorem faultIsTerminal : Obligations.FaultIsTerminal := by
  unfold Obligations.FaultIsTerminal
  intro s k hf hb hr hk
  obtain ⟨j, rfl⟩ := Nat.exists_eq_add_of_le' hk
  exact core_run_of_fault hr hb hf j

/-! ### No step stops the machine (R218), and none changes the configuration (10_state.md R43) -/

theorem exec_cfg {i : Instr} {s t : State} (h : exec i s = .next t) : t.cfg = s.cfg := by
  cases exec_effect h with
  | params | envelope | envelopeExact | response | input | indexFault => rfl
  | frame => simp

theorem step_cfg {s t : State} (h : step s = .next t) : t.cfg = s.cfg := by
  rcases step_cases h with ⟨-, rfl⟩ | ⟨-, -, rfl⟩ | ⟨-, -, -, rfl⟩ |
    ⟨-, -, -, ⟨i, rest, -, hexec⟩ | ⟨rest, -, rfl⟩ | ⟨-, rfl⟩⟩
  · exact resetEvent_cfg s
  · rfl
  · exact discard_cfg s
  · exact (exec_cfg hexec).trans (taken_cfg s rest)
  · exact illegalHeader_cfg s rest
  · exact await_cfg s

/-- Settles O57: the next state that every step has, with the configuration that every step keeps. -/
theorem everyStepHasANextState : Obligations.EveryStepHasANextState := by
  unfold Obligations.EveryStepHasANextState
  intro s
  obtain ⟨t, ht⟩ := step_next s
  exact ⟨t, ht, step_cfg ht⟩

end Sys2Proof.Machine

/-! Non-finite values (70_reset_and_hazards.md R244): an infinity or a NaN in a stage register stays there and reaches the
registers after it, and neither the parameters nor the envelope read the stage registers. -/

namespace Sys2Proof.Machine

/-! ### Operations on values that are not finite -/

theorem not_isFinite_of_isNan {v : F} (h : v.isNan = true) : v.isFinite = false := by
  obtain ⟨o, rfl⟩ := exists_of_isNan h
  rfl

theorem not_isFinite_add {v w : F} (h : v.isFinite = false ∨ w.isFinite = false) : (F.add v w).isFinite = false := by
  unfold F.add
  split
  · rcases h with h | h <;> cases h
  · split_ifs <;> rfl
  all_goals rfl

/-- An infinity times a zero is a NaN, and times any other value an infinity or a NaN. -/
theorem not_isFinite_mul {v : F} (h : v.isFinite = false) (w : F) : (F.mul v w).isFinite = false := by
  cases v with
  | nan => rfl
  | fin => cases h
  | inf neg =>
    cases w with
    | nan | inf => rfl
    | fin s u =>
      unfold F.mul
      dsimp only
      split_ifs <;> rfl

/-- What is stored for a value reads back as finite exactly when the value is. -/
theorem F.Storable.isFinite_stored {v : F} (h : v.Storable) (n : Nat) :
    (f32OfBits (bitsOfF32 n v)).isFinite = v.isFinite := by
  rcases h.stored n with heq | ⟨hv, hw⟩
  · rw [heq]
  · rw [not_isFinite_of_isNan hv, not_isFinite_of_isNan hw]

/-! ### The filter step -/

/-- How non-finite values pass from the stage registers `l` to the stage registers `t` of a later time. -/
structure NonFiniteFlows (l t : Ladder F) : Prop where
  s1 : l.s1.isFinite = false → t.s1.isFinite = false
  s2 : l.s1.isFinite = false ∨ l.s2.isFinite = false → t.s2.isFinite = false
  s3 : l.s1.isFinite = false ∨ l.s2.isFinite = false ∨ l.s3.isFinite = false → t.s3.isFinite = false
  s4 : l.s1.isFinite = false ∨ l.s2.isFinite = false ∨ l.s3.isFinite = false ∨ l.s4.isFinite = false →
    t.s4.isFinite = false
  nan : l.s4.isNan = true → t.s1.isNan = true ∧ t.s2.isNan = true ∧ t.s3.isNan = true ∧ t.s4.isNan = true

/-- Each register's own clause carries it on from the time between. -/
theorem NonFiniteFlows.trans {l t u : Ladder F} (h1 : NonFiniteFlows l t) (h2 : NonFiniteFlows t u) :
    NonFiniteFlows l u where
  s1 h := h2.s1 (h1.s1 h)
  s2 h := h2.s2 (.inr (h1.s2 h))
  s3 h := h2.s3 (.inr (.inr (h1.s3 h)))
  s4 h := h2.s4 (.inr (.inr (.inr (h1.s4 h))))
  nan h := h2.nan (h1.nan h).2.2.2

section FilterStep

variable (c : Exp2Choice) {f g u v : F}

/-- Whatever the coefficients, a stage passes on what is not finite in its input and in its register. -/
theorem not_isFinite_filterStage (h : u.isFinite = false ∨ v.isFinite = false) :
    (filterStage (Num.binary32 c) f g u v).isFinite = false :=
  not_isFinite_add (h.imp (not_isFinite_mul · f) (not_isFinite_mul · g))

theorem isNan_filterStage (h : u.isNan = true ∨ v.isNan = true) :
    (filterStage (Num.binary32 c) f g u v).isNan = true :=
  isNan_add (h.imp (fun hu => isNan_mul (.inl hu)) (fun hv => isNan_mul (.inl hv)))

/-- Each stage reads its own register and the result of the stage before it, and the first one the old `S4` through the
feedback (40_ladder_filter.md R93, R94). -/
theorem ladderStep_nonFiniteFlows (x ec rr : F) (l : Ladder F) :
    NonFiniteFlows l (ladderStep (Num.binary32 c) x ec rr l) := by
  have h1 (h : l.s1.isFinite = false) : (ladderStep (Num.binary32 c) x ec rr l).s1.isFinite = false :=
    not_isFinite_filterStage c (.inr h)
  have h2 (h : l.s1.isFinite = false ∨ l.s2.isFinite = false) :
      (ladderStep (Num.binary32 c) x ec rr l).s2.isFinite = false :=
    not_isFinite_filterStage c (h.imp_left h1)
  have h3 (h : (l.s1.isFinite = false ∨ l.s2.isFinite = false) ∨ l.s3.isFinite = false) :
      (ladderStep (Num.binary32 c) x ec rr l).s3.isFinite = false :=
    not_isFinite_filterStage c (h.imp_left h2)
  have h4 (h : ((l.s1.isFinite = false ∨ l.s2.isFinite = false) ∨ l.s3.isFinite = false) ∨ l.s4.isFinite = false) :
      (ladderStep (Num.binary32 c) x ec rr l).s4.isFinite = false :=
    not_isFinite_filterStage c (h.imp_left h3)
  refine ⟨h1, h2, fun h => h3 (or_assoc.2 h), fun h => h4 (or_assoc.2 (or_assoc.2 h)), fun h => ?nan⟩
  case nan =>
    have hfeedback (fb : F) : (F.sub x (F.mul fb l.s4)).isNan = true := isNan_sub (.inr (isNan_mul (.inr h)))
    have hn1 : (ladderStep (Num.binary32 c) x ec rr l).s1.isNan = true := isNan_filterStage c (.inl (hfeedback _))
    have hn2 : (ladderStep (Num.binary32 c) x ec rr l).s2.isNan = true := isNan_filterStage c (.inl hn1)
    have hn3 : (ladderStep (Num.binary32 c) x ec rr l).s3.isNan = true := isNan_filterStage c (.inl hn2)
    exact ⟨hn1, hn2, hn3, isNan_filterStage c (.inl hn3)⟩

end FilterStep

/-! ### The frame -/

/-- The stage registers hold what is stored for the new values. -/
theorem NonFiniteFlows.stored {l t : Ladder F} (h : NonFiniteFlows l t) (h1 : t.s1.Storable) (h2 : t.s2.Storable)
    (h3 : t.s3.Storable) (h4 : t.s4.Storable) (n : Nat) :
    NonFiniteFlows l (mapLadder f32OfBits ⟨bitsOfF32 n t.s1, bitsOfF32 (n + 1) t.s2, bitsOfF32 (n + 2) t.s3,
      bitsOfF32 (n + 3) t.s4⟩) where
  s1 hl := (h1.isFinite_stored _).trans (h.s1 hl)
  s2 hl := (h2.isFinite_stored _).trans (h.s2 hl)
  s3 hl := (h3.isFinite_stored _).trans (h.s3 hl)
  s4 hl := (h4.isFinite_stored _).trans (h.s4 hl)
  nan hl := by
    obtain ⟨hn1, hn2, hn3, hn4⟩ := h.nan hl
    exact ⟨(h1.isNan_stored _).trans hn1, (h2.isNan_stored _).trans hn2, (h3.isNan_stored _).trans hn3,
      (h4.isNan_stored _).trans hn4⟩

theorem sampleStep_nonFiniteFlows {s : State} (n : Nat) (hnum : s.cfg.num = .binary32) :
    NonFiniteFlows s.ladderValues (s.sampleStep n).ladderValues := by
  have hflows : NonFiniteFlows s.ladderValues (s.tick.filterStep (s.ibuf.read n)) := by
    rw [tick_filterStep]
    exact ladderStep_nonFiniteFlows s.cfg.exp2 _ _ _ _
  have hstored := hflows.stored (storable_add _ _) (storable_add _ _) (storable_add _ _) (storable_add _ _)
    (s.nanSeq + 3)
  rwa [← sampleStep_ladder n hnum] at hstored

/-- At least one sample step is a first step and the ones after it. -/
theorem sampleSteps_nonFiniteFlows {s : State} (n k : Nat) (hnum : s.cfg.num = .binary32) :
    NonFiniteFlows s.ladderValues (State.sampleSteps (k + 1) n s).ladderValues := by
  induction k with
  | zero => exact sampleStep_nonFiniteFlows n hnum
  | succ k ih =>
    rw [sampleSteps_succ_last]
    exact ih.trans (sampleStep_nonFiniteFlows _ (by rwa [sampleSteps_cfg]))

/-- The output word of a sample step is finite exactly when the new `S4` is: both are stored for the same value. -/
theorem sampleStep_isFinite_output {s : State} {n size : Nat} (hnum : s.cfg.num = .binary32)
    (hwf : Memory.wf size s.obuf = true) :
    (f32OfBits ((s.sampleStep n).obuf.read n)).isFinite = (s.sampleStep n).ladderValues.s4.isFinite := by
  have hs4 : (s.tick.filterStep (s.ibuf.read n)).s4.Storable := storable_add _ _
  rw [sampleStep_obuf_read hnum hwf, State.ladderValues, sampleStep_ladder n hnum, mapLadder, hs4.isFinite_stored,
    hs4.isFinite_stored]

/-- In binary32 the loop keeps the canonical form of its output buffer, whatever exact arithmetic holds. -/
theorem sampleSteps_obuf_wf_of_binary32 {s : State} {n k size : Nat} (hnum : s.cfg.num = .binary32)
    (hwf : Memory.wf size s.obuf = true) (hk : n + k ≤ size) :
    Memory.wf size (State.sampleSteps k n s).obuf = true := by
  refine (sampleSteps_keeps_below (P := fun t => t.cfg.num = .binary32 ∧ Memory.wf size t.obuf = true) ?_
    ⟨hnum, hwf⟩ k n hk).2
  intro t m hm ⟨htnum, htwf⟩
  rw [sampleStep_cfg, sampleStep_obuf m htnum]
  exact ⟨htnum, memory_wf_write _ htwf hm⟩

/-- Each output word of a frame is as finite as the `S4` of its own sample step. -/
theorem sampleSteps_isFinite_output {s : State} {i size : Nat} (hnum : s.cfg.num = .binary32)
    (hwf : Memory.wf size s.obuf = true) (hi : i < size) :
    (f32OfBits ((State.sampleSteps size 0 s).obuf.read i)).isFinite =
      (State.sampleSteps (i + 1) 0 s).ladderValues.s4.isFinite := by
  have hown := (sampleSteps_obuf_own s 0 hi).1
  rw [Nat.zero_add] at hown
  rw [hown, sampleSteps_succ_last, Nat.zero_add]
  exact sampleStep_isFinite_output (by rwa [sampleSteps_cfg]) (sampleSteps_obuf_wf_of_binary32 hnum hwf (by omega))

/-! ### What the envelope reads -/

/-- What the tick reads is the same, and as many free values have been drawn. -/
structure SameTickReads (s u : State) : Prop where
  cfg : u.cfg = s.cfg
  params : u.params = s.params
  env : u.env = s.env
  nanSeq : u.nanSeq = s.nanSeq

theorem SameTickReads.tick_env {s u : State} (h : SameTickReads s u) (hnum : s.cfg.num = .binary32) :
    u.tick.env = s.tick.env := by
  rw [tick_binary32 hnum, tick_binary32 (by rwa [h.cfg])]
  simp only [putEnv_env, State.f32Num, State.consts, State.paramValues, State.envValues, h.cfg, h.params, h.env,
    h.nanSeq]

theorem SameTickReads.sampleStep {s u : State} (h : SameTickReads s u) (n : Nat) (hnum : s.cfg.num = .binary32) :
    SameTickReads (s.sampleStep n) (u.sampleStep n) where
  cfg := by rw [sampleStep_cfg, sampleStep_cfg, h.cfg]
  params := by rw [sampleStep_params, sampleStep_params, h.params]
  env := by rw [sampleStep_env, sampleStep_env, h.tick_env hnum]
  nanSeq := by rw [sampleStep_nanSeq n hnum, sampleStep_nanSeq n (by rwa [h.cfg]), h.nanSeq]

theorem SameTickReads.sampleSteps {s u : State} (h : SameTickReads s u) (n k : Nat) (hnum : s.cfg.num = .binary32) :
    SameTickReads (State.sampleSteps k n s) (State.sampleSteps k n u) := by
  induction k with
  | zero => exact h
  | succ k ih =>
    rw [sampleSteps_succ_last, sampleSteps_succ_last]
    exact ih.sampleStep _ (by rwa [sampleSteps_cfg])

/-- Settles O40: a frame is at least one filter step, each output word is stored by a filter step of its own, and what
the tick reads is the same whatever the stage registers hold. -/
theorem nonFiniteStateIsPermanent : Obligations.NonFiniteStateIsPermanent := by
  unfold Obligations.NonFiniteStateIsPermanent
  intro s t hnum hsize hwf ht
  cases ht
  have hflows (k : Nat) := sampleSteps_nonFiniteFlows (s := { s with busy := true }) 0 k hnum
  obtain ⟨k, hk⟩ := Nat.exists_eq_add_of_le' hsize
  have hend := hflows k
  rw [← hk] at hend
  refine ⟨sampleSteps_params .., hend.s1, hend.s2, hend.s3, fun h => ⟨hend.s4 h, fun i hi => ?output⟩, hend.nan,
    fun l => ⟨_, exec_proc _, ?reads⟩⟩
  case output => exact (sampleSteps_isFinite_output (s := { s with busy := true }) hnum hwf hi).trans ((hflows i).s4 h)
  case reads =>
    have hreads : SameTickReads { s with busy := true } { s with ladder := l, busy := true } := ⟨rfl, rfl, rfl, rfl⟩
    have hloop := hreads.sampleSteps 0 s.cfg.frameSize hnum
    exact ⟨hloop.params, hloop.env⟩

end Sys2Proof.Machine

/-! The boot sequence (70_reset_and_hazards.md R236): the setters write the parameter file alone, and no register is
written by two of them, so that their order does not matter. -/

namespace Sys2Proof.Machine

/-- The parameter file after a command: a setter stores its operands (44_host_commands.md R181 to R185), and no other
command writes it. -/
def writeParams : Instr → Params Word → Params Word
  | .setcut v, p => { p with cutoff := v }
  | .setres v, p => { p with resonance := v }
  | .setmod v, p => { p with modvalue := v }
  | .setenv a d u r c, p => { p with attack := a, decay := d, sustain := u, release := r, contour := c }
  | .setkey b k n, p => { p with basecut := b, keytrack := k, note := BitVec.ofInt 32 n }
  | .trig, p | .rel, p | .proc, p | .getcut, p | .getres, p | .stin _ _, p | .ldout _, p => p

/-- The command writes the parameter file and nothing else. -/
def WritesOnlyParams (i : Instr) : Prop :=
  ∀ s : State, exec i s = .next { s with params := writeParams i s.params }

theorem execAll_of_writesOnlyParams {l : List Instr} (hl : ∀ i ∈ l, WritesOnlyParams i) (s : State) :
    execAll l s = .next { s with params := l.foldl (fun p i => writeParams i p) s.params } := by
  induction l generalizing s with
  | nil => rfl
  | cons i l ih =>
    obtain ⟨hi, hrest⟩ := List.forall_mem_cons.1 hl
    rw [execAll_cons (hi s), ih hrest]
    rfl

/-- Each of the five setters once, in the order of their opcodes. -/
def bootSequence (cut res md a d u r c b k : Word) (n : Int) : List Instr :=
  [.setcut cut, .setres res, .setmod md, .setenv a d u r c, .setkey b k n]

section Boot

variable {cut res md a d u r c b k : Word} {n : Int} {i j : Instr}

theorem mem_bootSequence : i ∈ bootSequence cut res md a d u r c b k n ↔
    i = .setcut cut ∨ i = .setres res ∨ i = .setmod md ∨ i = .setenv a d u r c ∨ i = .setkey b k n := by
  simp [bootSequence]

theorem bootSequence_writesOnlyParams (h : i ∈ bootSequence cut res md a d u r c b k n) : WritesOnlyParams i := by
  rcases mem_bootSequence.1 h with rfl | rfl | rfl | rfl | rfl <;> exact fun _ => rfl

/-- Two different setters write different registers. -/
theorem bootSequence_writeParams_comm (hi : i ∈ bootSequence cut res md a d u r c b k n)
    (hj : j ∈ bootSequence cut res md a d u r c b k n) (p : Params Word) :
    writeParams j (writeParams i p) = writeParams i (writeParams j p) := by
  rcases mem_bootSequence.1 hi with rfl | rfl | rfl | rfl | rfl <;>
    rcases mem_bootSequence.1 hj with rfl | rfl | rfl | rfl | rfl <;> rfl

end Boot

/-- Settles O12: in any order the setters leave the parameter file that they leave in the order of their opcodes. -/
theorem bootSequenceFixesParameters : Obligations.BootSequenceFixesParameters := by
  unfold Obligations.BootSequenceFixesParameters
  intro cut res md a d u r c b k n l hperm s
  change l.Perm (bootSequence cut res md a d u r c b k n) at hperm
  have hrun := execAll_of_writesOnlyParams (fun i hi => bootSequence_writesOnlyParams (hperm.mem_iff.1 hi)) s
  have horder := hperm.symm.foldl_eq' (f := fun p i => writeParams i p)
    (fun i hi j hj p => bootSequence_writeParams_comm hi hj p) s.params
  rw [← horder] at hrun
  exact ⟨_, hrun, rfl, sameButParams_setParams s _⟩

end Sys2Proof.Machine

/-! The words that the host still offers when a reset is asserted (70_reset_and_hazards.md R230, R240; log entries 5 and
10). -/

namespace Sys2Proof.Machine

/-- After a reset the block accepts commands, and the next one starts with the first word offered. -/
theorem step_resetEvent_of_cmd {s : State} {i : Instr} {rest : List Word} (hd : decode s.port = .cmd i rest) :
    step s.resetEvent = exec i { s.resetEvent with port := rest } :=
  step_of_cmd (s := s.resetEvent) rfl hd

/-- Settles O56: the next state is the reset event's, which keeps the words offered and the count of free values. -/
theorem resetKeepsOfferedWords : Obligations.ResetKeepsOfferedWords := by
  unfold Obligations.ResetKeepsOfferedWords
  intro s h
  exact ⟨s.resetEvent, step_of_reset h, resetEvent_port s, resetEvent_resetIn s, resetEvent_nanSeq s,
    fun _ _ hd => step_resetEvent_of_cmd hd⟩

end Sys2Proof.Machine
